-- ==== Sys2Proof/Word.lean ====
section
/-! DEFINITION. The word types of the bflat CORE engine (00_scope.md R7, R8). -/

namespace Sys2Proof

/-- One position of MEM (10_state.md R20). -/
abbrev Byte := BitVec 8

/-- An operand register or a result register: XLEN = 64 (00_scope.md R6). -/
abbrev Word := BitVec 64

/-- One UTF-16 code unit of a text operand (43_serializer.md R159). -/
abbrev CodeUnit := BitVec 16

end Sys2Proof
end

