-- ==== Sys2Proof/Config.lean ====
section
/-! DEFINITION. The parameters of an implementation (00_scope.md R6) and the free values: constants
with no body, which nothing can evaluate and no proof can know (93_implementation_defined.md). -/

namespace Sys2Proof

/-- The open parameters of 00_scope.md R6: the size of MEM in bytes, the width of a position
register and the number of view slots. State carries them as plain data (log 1). -/
structure Config where
  memSize : Nat
  aw      : Nat
  nview   : Nat
deriving DecidableEq, Repr, Inhabited

/-- The ranges 00_scope.md R6 gives the parameters. -/
abbrev Config.Valid (c : Config) : Prop :=
  1 ≤ c.memSize ∧ c.memSize < 2 ^ c.aw ∧ 2 ≤ c.nview ∧ c.nview ≤ 256

/-- The parameters of `State.reset` (DESIGN CHOICE, log 1): MEMSIZE = 64 and NVIEW = 2, which the
test vectors of 95_test_vectors.md take, and AW = 32, which R6 suggests. -/
def Config.standard : Config := { memSize := 64, aw := 32, nview := 2 }

/-- What a byte of MEM that nothing has written since power-on number `epoch` reads as, by position
(10_state.md R36: unspecified; log 5). -/
opaque Config.powerOnByte : (epoch address : Nat) → Byte

/-- The byte an unspecified position of MEM holds after a BufferTooSmall, by draw and position
(60_exceptions.md R247; log 14). -/
opaque Config.freeByte : (draw address : Nat) → Byte

/-- An unspecified 64-bit value, by draw and by which register takes it (log 3). -/
opaque Config.freeWord : (draw which : Nat) → Word

/-- An unspecified natural number, by draw and by which register takes it; a use of it cuts it to
the bounds the spec gives that register (log 3). -/
opaque Config.freeNat : (draw which : Nat) → Nat

/-- What a 64-bit result register holds after a command delivered a position of 2^64 or more to it,
which only AW > 64 admits; the spec states no value there (log 16). -/
opaque Config.widePosition : (position : Nat) → Word

end Sys2Proof
end

