-- ==== Sys2Proof/Syntax.lean ====
section
/-! DEFINITION. The instructions: one constructor for every row of spec/opcode_table.json, the 40
commands (30_encoding.md R80) and the 20 entry forms of the wire format (R72). -/

namespace Sys2Proof

/-- The assigned type codes 0 to 9 of an entry (30_encoding.md R72). -/
inductive EntryType where
  | null | string | binary | int8 | int16 | int32 | int64 | double | datetime | varint
deriving DecidableEq, Repr, Inhabited

/-- The instructions. A command carries the descriptor fields R80 says it uses: `ty` is TY, `vs` is
VS, `a` and `b` are A and B, `t` and `d` are the operand strings T and D. An entry form carries
ILEN, the one field of byte0 its row of the table leaves open; the rest of an entry stands in MEM
and its meaning reads it there (log 8). -/
inductive Instr where
  -- the cursor commands (40_cursor.md)
  | winit (a b : Word)
  | wrewind
  | wrem
  | parse (a b : Word)
  | rrewind
  | rrem
  -- the varint codec (41_varint.md)
  | vputu (a : Word)
  | vputs (a : Word)
  | vgetu
  | vgets
  -- the fixed-width codec (42_fixed.md)
  | put8 (a : Word)
  | put16 (a : Word)
  | put32 (a : Word)
  | put64 (a : Word)
  | putd (a : Word)
  | get8
  | get16
  | get32
  | get64
  | getd
  -- the serializer (43_serializer.md)
  | escalar (ty : Byte) (t : List Byte) (a : Word) (d : List Byte)
  | earray (ty : Byte) (t : List Byte) (a : Word)
  | eelem (ty : Byte) (a : Word) (d : List Byte)
  | escalart (ty : Byte) (t : List Byte) (a : Word) (d : List Byte)
  | earrayt (ty : Byte) (t : List Byte) (a : Word)
  | eelemt (ty : Byte) (d : List Byte)
  -- the reader (44_reader.md)
  | next
  | mark (vs : Byte)
  | vinfo (vs : Byte)
  | vtag (vs : Byte)
  -- the view accessors (45_view.md)
  | vi8 (vs : Byte) (a : Word)
  | vi16 (vs : Byte) (a : Word)
  | vi32 (vs : Byte) (a : Word)
  | vi64 (vs : Byte) (a : Word)
  | vdt (vs : Byte) (a : Word)
  | vdbl (vs : Byte) (a : Word)
  | vstr (vs : Byte) (a : Word)
  | vbin (vs : Byte) (a : Word)
  | vvar (vs : Byte) (a : Word)
  | vlong (vs : Byte) (a : Word)
  -- the entry forms of the wire format, scalar (30_encoding.md R71, R72)
  | entryNull (ilen : BitVec 3)
  | entryString (ilen : BitVec 3)
  | entryBinary (ilen : BitVec 3)
  | entryInt8 (ilen : BitVec 3)
  | entryInt16 (ilen : BitVec 3)
  | entryInt32 (ilen : BitVec 3)
  | entryInt64 (ilen : BitVec 3)
  | entryDouble (ilen : BitVec 3)
  | entryDatetime (ilen : BitVec 3)
  | entryVarint (ilen : BitVec 3)
  -- the entry forms of the wire format, array
  | entryNullArr (ilen : BitVec 3)
  | entryStringArr (ilen : BitVec 3)
  | entryBinaryArr (ilen : BitVec 3)
  | entryInt8Arr (ilen : BitVec 3)
  | entryInt16Arr (ilen : BitVec 3)
  | entryInt32Arr (ilen : BitVec 3)
  | entryInt64Arr (ilen : BitVec 3)
  | entryDoubleArr (ilen : BitVec 3)
  | entryDatetimeArr (ilen : BitVec 3)
  | entryVarintArr (ilen : BitVec 3)
deriving DecidableEq, Repr

/-- A command as a model sees it: the tuple of 30_encoding.md R81. -/
structure Command where
  op : Byte
  ty : Byte
  vs : Byte
  a  : Word
  b  : Word
  t  : List Byte
  d  : List Byte
deriving DecidableEq, Repr

/-- Why presented bytes are no command. -/
inductive DecodeError where
  /-- The bytes are fewer than the 32 of a header (30_encoding.md R81). -/
  | shortHeader
  /-- The bytes are not 32 + TLEN + DLEN of them; the field is that length (30_encoding.md R81). -/
  | badLength (expected : Nat)
  /-- The opcode is unassigned (30_encoding.md R84). -/
  | badOpcode (op : Byte)
deriving DecidableEq, Repr

end Sys2Proof
end

