-- ==== Sys2Proof/WellFormed.lean ====
section
/-! DEFINITION. Which instructions a descriptor can carry: TLEN and DLEN are fields of 32 bits
(30_encoding.md R81), so T and D are shorter than 2^32 bytes. Every other operand is admitted at
every value of its type: an operand value the engine turns away (TY above 9, VS not below NVIEW) is
an instruction with a meaning. -/

namespace Sys2Proof

/-- The operand string T of an instruction, empty where it uses none. -/
def Instr.tagOperand : Instr → List Byte
  | .escalar _ t _ _ | .earray _ t _ | .escalart _ t _ _ | .earrayt _ t _ => t
  | _ => []

/-- The operand string D of an instruction, empty where it uses none. -/
def Instr.dataOperand : Instr → List Byte
  | .escalar _ _ _ d | .eelem _ _ d | .escalart _ _ _ d | .eelemt _ d => d
  | _ => []

/-- TLEN and DLEN each fit 32 bits (30_encoding.md R81). -/
def Instr.wellFormed (i : Instr) : Bool :=
  decide (i.tagOperand.length < 2 ^ 32) && decide (i.dataOperand.length < 2 ^ 32)

end Sys2Proof
end

