-- ==== Sys2Proof/Decode.lean ====
section
/-! DEFINITION. The decoder and the encoder: the command descriptor (30_encoding.md R80, R81) and
byte0 of an entry (R71, R72). The two are separate encodings: a descriptor is what the host
presents, an entry is what the reader fetches from MEM. -/

namespace Sys2Proof

/-! ## Byte order (20_memory.md R51) -/

/-- The number a little-endian byte sequence stands for. -/
def leNat : List Byte → Nat
  | [] => 0
  | b :: bs => b.toNat + 256 * leNat bs

/-- The low `n` bytes of `v`, lowest first. -/
def leBytes : (n v : Nat) → List Byte
  | 0, _ => []
  | n + 1, v => BitVec.ofNat 8 (v % 256) :: leBytes n (v / 256)

/-- `n` bytes of a sequence from offset `off`. -/
def slice (bs : List Byte) (off n : Nat) : List Byte := (bs.drop off).take n

/-! ## The command descriptor -/

/-- Reads the descriptor layout of 30_encoding.md R81. Bytes 3 and 12 to 15 are unused and
ignored (R83). -/
def parseDescriptor (bs : List Byte) : Except DecodeError Command :=
  if bs.length < 32 then .error .shortHeader
  else
    let tlen := leNat (slice bs 4 4)
    let dlen := leNat (slice bs 8 4)
    if bs.length = 32 + tlen + dlen then
      .ok { op := bs.getD 0 0
            ty := bs.getD 1 0
            vs := bs.getD 2 0
            a := BitVec.ofNat 64 (leNat (slice bs 16 8))
            b := BitVec.ofNat 64 (leNat (slice bs 24 8))
            t := slice bs 32 tlen
            d := slice bs (32 + tlen) dlen }
    else .error (.badLength (32 + tlen + dlen))

/-- The opcode table of 30_encoding.md R80; every other opcode is unassigned (R84). -/
def decodeCommand (c : Command) : Except DecodeError Instr :=
  match c.op.toNat with
  | 0x10 => .ok (.winit c.a c.b)
  | 0x11 => .ok .wrewind
  | 0x12 => .ok .wrem
  | 0x18 => .ok (.parse c.a c.b)
  | 0x19 => .ok .rrewind
  | 0x1A => .ok .rrem
  | 0x20 => .ok (.vputu c.a)
  | 0x21 => .ok (.vputs c.a)
  | 0x28 => .ok .vgetu
  | 0x29 => .ok .vgets
  | 0x30 => .ok (.put8 c.a)
  | 0x31 => .ok (.put16 c.a)
  | 0x32 => .ok (.put32 c.a)
  | 0x33 => .ok (.put64 c.a)
  | 0x34 => .ok (.putd c.a)
  | 0x38 => .ok .get8
  | 0x39 => .ok .get16
  | 0x3A => .ok .get32
  | 0x3B => .ok .get64
  | 0x3C => .ok .getd
  | 0x40 => .ok (.escalar c.ty c.t c.a c.d)
  | 0x41 => .ok (.earray c.ty c.t c.a)
  | 0x42 => .ok (.eelem c.ty c.a c.d)
  | 0x44 => .ok (.escalart c.ty c.t c.a c.d)
  | 0x45 => .ok (.earrayt c.ty c.t c.a)
  | 0x46 => .ok (.eelemt c.ty c.d)
  | 0x50 => .ok .next
  | 0x51 => .ok (.mark c.vs)
  | 0x52 => .ok (.vinfo c.vs)
  | 0x53 => .ok (.vtag c.vs)
  | 0x58 => .ok (.vi8 c.vs c.a)
  | 0x59 => .ok (.vi16 c.vs c.a)
  | 0x5A => .ok (.vi32 c.vs c.a)
  | 0x5B => .ok (.vi64 c.vs c.a)
  | 0x5C => .ok (.vdt c.vs c.a)
  | 0x5D => .ok (.vdbl c.vs c.a)
  | 0x5E => .ok (.vstr c.vs c.a)
  | 0x5F => .ok (.vbin c.vs c.a)
  | 0x60 => .ok (.vvar c.vs c.a)
  | 0x61 => .ok (.vlong c.vs c.a)
  | _ => .error (.badOpcode c.op)

/-- The instruction a presented descriptor stands for, on any bytes. -/
def decode (bs : List Byte) : Except DecodeError Instr :=
  match parseDescriptor bs with
  | .ok c => decodeCommand c
  | .error e => .error e

/-! ## byte0 of an entry -/

/-- The array flag of byte0, its bit 7 (30_encoding.md R71). -/
def entryArray (b0 : Byte) : Bool := b0.getLsbD 7

/-- The type code of byte0, its bits 6 to 3 (30_encoding.md R71). -/
def entryTypeCode (b0 : Byte) : BitVec 4 := b0.extractLsb' 3 4

/-- The inline tag length of byte0, its bits 2 to 0 (30_encoding.md R71). -/
def entryInlineLength (b0 : Byte) : BitVec 3 := b0.extractLsb' 0 3

/-- The entry form byte0 selects (30_encoding.md R72); none for the unassigned type codes 10 to 15
(R77). -/
def decodeEntry (b0 : Byte) : Option Instr :=
  let il := entryInlineLength b0
  match entryArray b0, (entryTypeCode b0).toNat with
  | false, 0 => some (.entryNull il)
  | false, 1 => some (.entryString il)
  | false, 2 => some (.entryBinary il)
  | false, 3 => some (.entryInt8 il)
  | false, 4 => some (.entryInt16 il)
  | false, 5 => some (.entryInt32 il)
  | false, 6 => some (.entryInt64 il)
  | false, 7 => some (.entryDouble il)
  | false, 8 => some (.entryDatetime il)
  | false, 9 => some (.entryVarint il)
  | true, 0 => some (.entryNullArr il)
  | true, 1 => some (.entryStringArr il)
  | true, 2 => some (.entryBinaryArr il)
  | true, 3 => some (.entryInt8Arr il)
  | true, 4 => some (.entryInt16Arr il)
  | true, 5 => some (.entryInt32Arr il)
  | true, 6 => some (.entryInt64Arr il)
  | true, 7 => some (.entryDoubleArr il)
  | true, 8 => some (.entryDatetimeArr il)
  | true, 9 => some (.entryVarintArr il)
  | _, _ => none

/-! ## The encoder -/

/-- The descriptor of a command, unused bytes zero (30_encoding.md R81, R83). -/
def descriptor (c : Command) : List Byte :=
  [c.op, c.ty, c.vs, 0] ++ leBytes 4 c.t.length ++ leBytes 4 c.d.length ++ leBytes 4 0
    ++ leBytes 8 c.a.toNat ++ leBytes 8 c.b.toNat ++ c.t ++ c.d

/-- A command of opcode `op` that uses no operand field. -/
def plainCommand (op : Byte) : Command := { op := op, ty := 0, vs := 0, a := 0, b := 0, t := [], d := [] }

/-- The command of an instruction, fields it does not use zero or empty (30_encoding.md R80, R83);
none for an entry form, which is no command. -/
def Instr.toCommand : Instr → Option Command
  | .winit a b => some { plainCommand 0x10 with a := a, b := b }
  | .wrewind => some (plainCommand 0x11)
  | .wrem => some (plainCommand 0x12)
  | .parse a b => some { plainCommand 0x18 with a := a, b := b }
  | .rrewind => some (plainCommand 0x19)
  | .rrem => some (plainCommand 0x1A)
  | .vputu a => some { plainCommand 0x20 with a := a }
  | .vputs a => some { plainCommand 0x21 with a := a }
  | .vgetu => some (plainCommand 0x28)
  | .vgets => some (plainCommand 0x29)
  | .put8 a => some { plainCommand 0x30 with a := a }
  | .put16 a => some { plainCommand 0x31 with a := a }
  | .put32 a => some { plainCommand 0x32 with a := a }
  | .put64 a => some { plainCommand 0x33 with a := a }
  | .putd a => some { plainCommand 0x34 with a := a }
  | .get8 => some (plainCommand 0x38)
  | .get16 => some (plainCommand 0x39)
  | .get32 => some (plainCommand 0x3A)
  | .get64 => some (plainCommand 0x3B)
  | .getd => some (plainCommand 0x3C)
  | .escalar ty t a d => some { plainCommand 0x40 with ty := ty, t := t, a := a, d := d }
  | .earray ty t a => some { plainCommand 0x41 with ty := ty, t := t, a := a }
  | .eelem ty a d => some { plainCommand 0x42 with ty := ty, a := a, d := d }
  | .escalart ty t a d => some { plainCommand 0x44 with ty := ty, t := t, a := a, d := d }
  | .earrayt ty t a => some { plainCommand 0x45 with ty := ty, t := t, a := a }
  | .eelemt ty d => some { plainCommand 0x46 with ty := ty, d := d }
  | .next => some (plainCommand 0x50)
  | .mark vs => some { plainCommand 0x51 with vs := vs }
  | .vinfo vs => some { plainCommand 0x52 with vs := vs }
  | .vtag vs => some { plainCommand 0x53 with vs := vs }
  | .vi8 vs a => some { plainCommand 0x58 with vs := vs, a := a }
  | .vi16 vs a => some { plainCommand 0x59 with vs := vs, a := a }
  | .vi32 vs a => some { plainCommand 0x5A with vs := vs, a := a }
  | .vi64 vs a => some { plainCommand 0x5B with vs := vs, a := a }
  | .vdt vs a => some { plainCommand 0x5C with vs := vs, a := a }
  | .vdbl vs a => some { plainCommand 0x5D with vs := vs, a := a }
  | .vstr vs a => some { plainCommand 0x5E with vs := vs, a := a }
  | .vbin vs a => some { plainCommand 0x5F with vs := vs, a := a }
  | .vvar vs a => some { plainCommand 0x60 with vs := vs, a := a }
  | .vlong vs a => some { plainCommand 0x61 with vs := vs, a := a }
  | .entryNull _ | .entryString _ | .entryBinary _ | .entryInt8 _ | .entryInt16 _ | .entryInt32 _
  | .entryInt64 _ | .entryDouble _ | .entryDatetime _ | .entryVarint _ | .entryNullArr _
  | .entryStringArr _ | .entryBinaryArr _ | .entryInt8Arr _ | .entryInt16Arr _ | .entryInt32Arr _
  | .entryInt64Arr _ | .entryDoubleArr _ | .entryDatetimeArr _ | .entryVarintArr _ => none

/-- byte0 = ARR*128 + TYPE*8 + ILEN (30_encoding.md R71). -/
def packByte0 (arr : Bool) (ty : Nat) (il : BitVec 3) : Byte :=
  BitVec.ofNat 8 ((if arr then 128 else 0) + ty * 8 + il.toNat)

/-- byte0 of an entry form; none for a command. -/
def Instr.toByte0 : Instr → Option Byte
  | .entryNull il => some (packByte0 false 0 il)
  | .entryString il => some (packByte0 false 1 il)
  | .entryBinary il => some (packByte0 false 2 il)
  | .entryInt8 il => some (packByte0 false 3 il)
  | .entryInt16 il => some (packByte0 false 4 il)
  | .entryInt32 il => some (packByte0 false 5 il)
  | .entryInt64 il => some (packByte0 false 6 il)
  | .entryDouble il => some (packByte0 false 7 il)
  | .entryDatetime il => some (packByte0 false 8 il)
  | .entryVarint il => some (packByte0 false 9 il)
  | .entryNullArr il => some (packByte0 true 0 il)
  | .entryStringArr il => some (packByte0 true 1 il)
  | .entryBinaryArr il => some (packByte0 true 2 il)
  | .entryInt8Arr il => some (packByte0 true 3 il)
  | .entryInt16Arr il => some (packByte0 true 4 il)
  | .entryInt32Arr il => some (packByte0 true 5 il)
  | .entryInt64Arr il => some (packByte0 true 6 il)
  | .entryDoubleArr il => some (packByte0 true 7 il)
  | .entryDatetimeArr il => some (packByte0 true 8 il)
  | .entryVarintArr il => some (packByte0 true 9 il)
  | .winit _ _ | .wrewind | .wrem | .parse _ _ | .rrewind | .rrem | .vputu _ | .vputs _ | .vgetu
  | .vgets | .put8 _ | .put16 _ | .put32 _ | .put64 _ | .putd _ | .get8 | .get16 | .get32 | .get64
  | .getd | .escalar _ _ _ _ | .earray _ _ _ | .eelem _ _ _ | .escalart _ _ _ _ | .earrayt _ _ _
  | .eelemt _ _ | .next | .mark _ | .vinfo _ | .vtag _ | .vi8 _ _ | .vi16 _ _ | .vi32 _ _
  | .vi64 _ _ | .vdt _ _ | .vdbl _ _ | .vstr _ _ | .vbin _ _ | .vvar _ _ | .vlong _ _ => none

/-- The bytes of an instruction: a command's descriptor, an entry form's byte0. -/
def encode (i : Instr) : List Byte :=
  match i.toCommand with
  | some c => descriptor c
  | none => i.toByte0.toList

/-! ## Table words -/

/-- The bytes of a table word as a descriptor: bit 0 is the lowest bit of the first byte, every bit
from `nbits` up is 0, and there are 32 + TLEN + DLEN bytes. -/
def wordBytes (nbits w : Nat) : List Byte :=
  let v := w % 2 ^ nbits
  leBytes (32 + v / 2 ^ 32 % 2 ^ 32 + v / 2 ^ 64 % 2 ^ 32) v

/-- What the decoder reads from a table word: the command of its descriptor where the opcode is
assigned, else the entry form of its byte0 (log 9 says why a word is tried as both). -/
def decodeTableWord (nbits w : Nat) : Option Instr :=
  match decode (wordBytes nbits w) with
  | .ok i => some i
  | .error _ => decodeEntry ((wordBytes nbits w).getD 0 0)

end Sys2Proof
end

