-- ==== Sys2Proof/Machine/State.lean ====
section
/-! DEFINITION. The state of the machine (10_state.md) as plain data, the reasons a step stops, and
reset. INVENTORY.md lists every field with the rule that names it. -/

namespace Sys2Proof.Machine

/-- MEM as the list of the positions something has written, with their bytes. A position not listed
holds no written byte and reads as `Config.powerOnByte` (log 5). -/
abbrev Memory := List Host.Cell

/-- The canonical form: positions strictly rising. No entry can equal what an unlisted position
holds, because an unlisted position holds no byte. -/
abbrev Memory.wf (m : Memory) : Prop := m.Pairwise (fun x y => x.1 < y.1)

/-- A cursor, the writer's or the reader's (10_state.md R21, R24). Positions are AW bits wide and
held as natural numbers (log 2). -/
structure Cursor where
  start    : Nat
  pos      : Nat
  limit    : Nat
  init     : Bool
  errKind  : BitVec 2
  errCause : BitVec 3
  errPos   : Nat
  /-- The MODEL's own: the least value the spec allows `pos` while it is unspecified after a fault
  (60_exceptions.md R247; log 11). -/
  low      : Nat
deriving DecidableEq, Repr, Inhabited

/-- One record of an element table (10_state.md R31). -/
inductive Elem where
  /-- A String or Binary element: OFF and LEN. -/
  | span (off len : Nat)
  /-- A Varint element: VAL. -/
  | val (v : Word)
deriving DecidableEq, Repr, Inhabited

/-- A view slot (10_state.md R30, R31). -/
structure View where
  valid   : Bool
  reuse   : Bool
  type    : BitVec 4
  array   : Bool
  count   : BitVec 64
  tagOff  : Nat
  tagLen  : Nat
  dataOff : Nat
  elems   : List Elem
deriving DecidableEq, Repr, Inhabited

/-- The unspecified contents of a slot, by draw (10_state.md R30, 60_exceptions.md R247; log 3). -/
opaque freeView : (draw : Nat) → View

/-- What the host does other than presenting a command (10_state.md R33, 20_memory.md R62,
70_reset_and_hazards.md R271). -/
inductive HostAccess where
  | writeMem (addr : Nat) (bytes : List Byte)
  | readMem (addr : Nat)
  | readReg (num : Nat)
  | reset
deriving DecidableEq, Repr

/-- One move of the host (log 6). -/
inductive HostMove where
  | command (bytes : List Byte)
  | access (a : HostAccess)
deriving DecidableEq, Repr

/-- Why a step stops with a fault. -/
inductive Fault where
  /-- An access to a position at or beyond MEMSIZE, which does not exist (10_state.md R20, 20_memory.md
  R51). Raised by a host access outside MEM, and by a command only in a state no run reaches. Safe. -/
  | outsideMem (addr : Nat)
deriving DecidableEq, Repr

/-- Why a step is refused. -/
inductive Refusal where
  /-- An instruction that has no meaning yet; raised by an arm of `exec`. Safe. -/
  | notModelled (mnemonic : String)
  /-- The host presents bytes that are not a descriptor (30_encoding.md R81), of which the spec says
  nothing; raised by `step`. Safe (log 7). -/
  | badDescriptor (e : DecodeError)
deriving DecidableEq, Repr

/-- The machine's state. The fields from `memEpoch` on that the docstring marks are the MODEL's own. -/
structure State where
  /-- The MODEL's own: the parameters, which no step changes (log 1). -/
  cfg      : Config
  /-- MEM (R20). -/
  mem      : Memory
  /-- The MODEL's own: which power-on contents unwritten positions have (log 5). -/
  memEpoch : Nat
  /-- The writer's cursor W (R21, R24). -/
  w        : Cursor
  /-- The reader's cursor R (R21, R24). -/
  r        : Cursor
  /-- STATUS (R26). -/
  status   : BitVec 8
  /-- REASON (R27). -/
  reason   : BitVec 8
  /-- x[0] (R25). -/
  x0       : Word
  /-- x[1] (R25). -/
  x1       : Word
  /-- The MODEL's own: whether x[0] holds a value a rule fixed (log 11). -/
  x0Known  : Bool
  /-- The MODEL's own: whether x[1] holds a value a rule fixed (log 11). -/
  x1Known  : Bool
  /-- CV.VALID (R32). -/
  cvValid  : Bool
  /-- CV.SLOT (R32). -/
  cvSlot   : BitVec 8
  /-- VIEW[0] to VIEW[NVIEW-1] (R29, R30). -/
  views    : List View
  /-- The MODEL's own: how many free values have been drawn (log 3). -/
  draws    : Nat
  /-- The MODEL's own: the host's coming moves (log 6). -/
  inbox    : List HostMove
  /-- The MODEL's own: what the host's latest read returned (log 6). -/
  hostData : Nat
deriving DecidableEq, Repr

/-- What a step of this machine answers. -/
abbrev Result := Host.Outcome State Fault Refusal

/-- A cursor after reset (10_state.md R36); the position registers, which R36 calls unspecified, are
0 (DESIGN CHOICE, log 4). -/
def Cursor.reset : Cursor :=
  { start := 0, pos := 0, limit := 0, init := false, errKind := 0, errCause := 0, errPos := 0, low := 0 }

/-- A slot after reset (10_state.md R36); every field but VALID and REUSE, which R36 calls
unspecified, is 0 or empty (DESIGN CHOICE, log 4). -/
def View.empty : View :=
  { valid := false, reuse := false, type := 0, array := false, count := 0, tagOff := 0, tagLen := 0,
    dataOff := 0, elems := [] }

/-- The state after reset of an engine with parameters `c` (10_state.md R36, 70_reset_and_hazards.md
R270): nothing written in MEM, both cursors uninitialised, no view, STATUS = OK, REASON = 0. -/
def State.resetOf (c : Config) : State :=
  { cfg := c, mem := [], memEpoch := 0, w := Cursor.reset, r := Cursor.reset, status := 0, reason := 0,
    x0 := 0, x1 := 0, x0Known := false, x1Known := false, cvValid := false, cvSlot := 0,
    views := List.replicate c.nview View.empty, draws := 0, inbox := [], hostData := 0 }

/-- The state after reset, with the parameters the model takes for it (log 1). -/
def State.reset : State := State.resetOf Config.standard

end Sys2Proof.Machine
end

