-- ==== Sys2Proof/Machine/Flags.lean ====
section
/-! DEFINITION. The state that behaves like flags (10_state.md R28): STATUS and REASON, the error
records of the cursors, and the one-bit state of the result registers. The engine has no arithmetic
flags. -/

namespace Sys2Proof.Machine

/-- The outcomes STATUS reports (10_state.md R26). -/
inductive Status where
  | ok | endOfDoc | eFormat | eBufSmall | eConvNull | eConvType | rejected
deriving DecidableEq, Repr

/-- The codes of STATUS (10_state.md R26). -/
def statusCode : Status → BitVec 8
  | .ok => 0
  | .endOfDoc => 1
  | .eFormat => 2
  | .eBufSmall => 3
  | .eConvNull => 4
  | .eConvType => 5
  | .rejected => 6

/-- Why a command is rejected (10_state.md R27). -/
inductive Reason where
  | badOp | noInit | errPending | badType | emptyTag | badRange | badSlot | noView | badText
deriving DecidableEq, Repr

/-- The codes of REASON (10_state.md R27). -/
def reasonCode : Reason → BitVec 8
  | .badOp => 1
  | .noInit => 2
  | .errPending => 3
  | .badType => 4
  | .emptyTag => 5
  | .badRange => 6
  | .badSlot => 7
  | .noView => 8
  | .badText => 9

/-- The causes of a FormatError (60_exceptions.md R241). -/
inductive Cause where
  | truncVarint | truncFixed | zeroTag | badType | truncBytes | varintRange
deriving DecidableEq, Repr

/-- The codes of ERR.CAUSE (60_exceptions.md R241). -/
def causeCode : Cause → BitVec 3
  | .truncVarint => 1
  | .truncFixed => 2
  | .zeroTag => 3
  | .badType => 4
  | .truncBytes => 5
  | .varintRange => 6

/-- ERR.KIND of a FormatError (10_state.md R24). -/
def kindFormat : BitVec 2 := 1

/-- ERR.KIND of a BufferTooSmall (10_state.md R24). -/
def kindBuffer : BitVec 2 := 2

/-- STATUS and REASON of a command that completes (30_encoding.md R85). -/
def State.complete (st : Status) (s : State) : State := { s with status := statusCode st, reason := 0 }

/-- A rejection writes STATUS and REASON and nothing else (30_encoding.md R85). -/
def State.reject (why : Reason) (s : State) : State :=
  { s with status := statusCode .rejected, reason := reasonCode why }

/-- Return from a fault: the record of a cursor cleared, its position left (60_exceptions.md R249). -/
def Cursor.clearErr (c : Cursor) : Cursor := { c with errKind := 0, errCause := 0 }

/-- Whether a fault of the cursor is pending (10_state.md R24). -/
def Cursor.pending (c : Cursor) : Bool := decide (c.errKind ≠ 0)

/-- `x[0] <- v` (10_state.md R25). -/
def State.setX0 (v : Word) (s : State) : State := { s with x0 := v, x0Known := true }

/-- `x[1] <- v` (10_state.md R25). -/
def State.setX1 (v : Word) (s : State) : State := { s with x1 := v, x1Known := true }

/-- x[0] becomes unspecified: a free value (log 3). -/
def State.looseX0 (s : State) : State :=
  { s with x0 := Config.freeWord s.draws 0, x0Known := false, draws := s.draws + 1 }

/-- x[0] and x[1] become unspecified: free values (log 3). -/
def State.looseX (s : State) : State :=
  { s with x0 := Config.freeWord s.draws 0, x1 := Config.freeWord s.draws 1,
           x0Known := false, x1Known := false, draws := s.draws + 1 }

end Sys2Proof.Machine
end

