-- ==== Sys2Proof/Machine/Operands.lean ====
section
/-! DEFINITION. How operands are read (30_encoding.md R82, 00_scope.md R8), type codes and element
widths (30_encoding.md R72), and how a value is delivered to a result register. -/

namespace Sys2Proof.Machine

/-- `zext_64(A)` (00_scope.md R8). -/
def zext (a : Word) : Nat := a.toNat

/-- `sext_64(A)` (00_scope.md R8). -/
def sext (a : Word) : Int := a.toInt

/-- `A[8n-1:0]`, the value of a command that takes `n` bytes (30_encoding.md R82). -/
def lowBytes (n : Nat) (a : Word) : Nat := a.toNat % 2 ^ (8 * n)

/-- `sext_8n(u)` delivered in 64 bits (42_fixed.md R131). -/
def signed (n u : Nat) : Word := (BitVec.ofNat (8 * n) u).signExtend 64

/-- A position or a length delivered to a 64-bit result register. The spec states no value for one
that does not fit, which takes AW > 64 (log 16). -/
def deliver (p : Nat) : Word := if p < 2 ^ 64 then BitVec.ofNat 64 p else Config.widePosition p

/-- The type with a given code (30_encoding.md R72); none for an unassigned one (R77). -/
def typeOfCode : Nat → Option EntryType
  | 0 => some .null
  | 1 => some .string
  | 2 => some .binary
  | 3 => some .int8
  | 4 => some .int16
  | 5 => some .int32
  | 6 => some .int64
  | 7 => some .double
  | 8 => some .datetime
  | 9 => some .varint
  | _ => none

/-- The code of a type (30_encoding.md R72). -/
def typeCode : EntryType → Nat
  | .null => 0
  | .string => 1
  | .binary => 2
  | .int8 => 3
  | .int16 => 4
  | .int32 => 5
  | .int64 => 6
  | .double => 7
  | .datetime => 8
  | .varint => 9

/-- The fixed width of an element, 0 for the types that have none (30_encoding.md R72). -/
def typeWidth : EntryType → Nat
  | .int8 => 1
  | .int16 => 2
  | .int32 => 4
  | .int64 | .double | .datetime => 8
  | .null | .string | .binary | .varint => 0

/-- The code units of a text operand, low byte first; none for an odd byte length (30_encoding.md
R82, 43_serializer.md R159). -/
def codeUnits : List Byte → Option (List CodeUnit)
  | [] => some []
  | [_] => none
  | lo :: hi :: rest =>
    match codeUnits rest with
    | some us => some (BitVec.ofNat 16 (lo.toNat + 256 * hi.toNat) :: us)
    | none => none

/-- A high surrogate, 0xD800 to 0xDBFF (43_serializer.md R159; log 18). -/
def isHigh (u : CodeUnit) : Bool := decide (0xD800 ≤ u.toNat ∧ u.toNat ≤ 0xDBFF)

/-- A low surrogate, 0xDC00 to 0xDFFF (43_serializer.md R159; log 18). -/
def isLow (u : CodeUnit) : Bool := decide (0xDC00 ≤ u.toNat ∧ u.toNat ≤ 0xDFFF)

/-- A text is well formed when every high surrogate is followed at once by a low one and every low
one follows a high one (43_serializer.md R159; log 18). -/
def textWellFormed : List CodeUnit → Bool
  | [] => true
  | [u] => !isHigh u && !isLow u
  | u :: v :: rest =>
    if isHigh u then isLow v && textWellFormed rest
    else !isLow u && textWellFormed (v :: rest)

/-- The text a UTF-16 operand carries; none where the engine answers BADTEXT (43_serializer.md
R159). -/
def textOf (bs : List Byte) : Option (List CodeUnit) :=
  match codeUnits bs with
  | some us => if textWellFormed us then some us else none
  | none => none

end Sys2Proof.Machine
end

