-- ==== Sys2Proof/Machine/Ops.lean ====
section
/-! DEFINITION. The shared operations: reading and writing MEM (20_memory.md), the six cursor
accesses (R54 to R59), taking a fault (60_exceptions.md R247, R248), the envelope of a command
(30_encoding.md R85) and the view slots (10_state.md R29 to R32). -/

namespace Sys2Proof.Machine

/-! ## MEM -/

/-- The byte written at a position, if one was. -/
def Memory.lookup : Memory → Nat → Option Byte
  | [], _ => none
  | (k, b) :: m, a => if k = a then some b else Memory.lookup m a

/-- The memory with one byte written; the form stays canonical. -/
def Memory.insert : Memory → Nat → Byte → Memory
  | [], a, b => [(a, b)]
  | (k, c) :: m, a, b =>
    if a < k then (a, b) :: (k, c) :: m
    else if a = k then (a, b) :: m
    else (k, c) :: Memory.insert m a b

/-- The memory with a byte sequence written from a position up. -/
def Memory.writeBytes : Memory → Nat → List Byte → Memory
  | m, _, [] => m
  | m, a, b :: bs => Memory.writeBytes (m.insert a b) (a + 1) bs

/-- The memory with `n` unspecified bytes from a position up (60_exceptions.md R247; log 14). -/
def Memory.loosen (draw : Nat) : Memory → Nat → Nat → Memory
  | m, _, 0 => m
  | m, a, n + 1 => Memory.loosen draw (m.insert a (Config.freeByte draw a)) (a + 1) n

/-- `MEM[a]`: the written byte, or what the position holds since power-on (log 5). -/
def State.byteAt (s : State) (a : Nat) : Byte :=
  match s.mem.lookup a with
  | some b => b
  | none => Config.powerOnByte s.memEpoch a

/-- `MEM[a .. a+n)`. -/
def State.bytesAt (s : State) : (a n : Nat) → List Byte
  | _, 0 => []
  | a, n + 1 => s.byteAt a :: s.bytesAt (a + 1) n

/-! ## What can end a command early -/

/-- The three fault kinds (60_exceptions.md R240). -/
inductive Raise where
  | format (cause : Cause) (pos : Nat)
  | bufferTooSmall
  | conversionNull
  | conversionType
deriving DecidableEq, Repr

/-- A raised fault of the engine, or an access to a position that does not exist, which no run
reaches (log 12). -/
inductive Stop where
  | raised (e : Raise)
  | outside (addr : Nat)
deriving DecidableEq, Repr

/-- `MemRead(addr, n)` (20_memory.md R51). -/
def memRead (s : State) (a n : Nat) : Except Stop Nat :=
  if a + n ≤ s.cfg.memSize then .ok (leNat (s.bytesAt a n)) else .error (.outside (a + n - 1))

/-! ## The cursor accesses -/

/-- `rd8(C, cause)` (20_memory.md R54). -/
def rd8 (s : State) (c : Cursor) (cause : Cause) : Except Stop (Byte × Cursor) :=
  if c.limit ≤ c.pos then .error (.raised (.format cause c.pos))
  else if c.pos < s.cfg.memSize then .ok (s.byteAt c.pos, { c with pos := c.pos + 1 })
  else .error (.outside c.pos)

/-- `rdN(C, n)` (20_memory.md R55). -/
def rdN (s : State) (c : Cursor) (n : Nat) : Except Stop (Nat × Cursor) :=
  if c.limit < c.pos + n then .error (.raised (.format .truncFixed c.pos))
  else
    match memRead s c.pos n with
    | .ok v => .ok (v, { c with pos := c.pos + n })
    | .error e => .error e

/-- `skip(C, n, cause)` (20_memory.md R56). -/
def skip (c : Cursor) (n : Nat) (cause : Cause) : Except Stop Cursor :=
  if c.limit < c.pos + n then .error (.raised (.format cause c.pos)) else .ok { c with pos := c.pos + n }

/-- Writes a byte sequence at W.POS and advances; the store the three writing accesses share. -/
def storeAtW (s : State) (bs : List Byte) : Except Stop State :=
  if bs = [] ∨ s.w.pos + bs.length ≤ s.cfg.memSize then
    .ok { s with mem := s.mem.writeBytes s.w.pos bs, w := { s.w with pos := s.w.pos + bs.length } }
  else .error (.outside (s.w.pos + bs.length - 1))

/-- `wr8(W, b)` (20_memory.md R57). -/
def wr8 (s : State) (b : Byte) : Except Stop State :=
  if s.w.limit ≤ s.w.pos then .error (.raised .bufferTooSmall) else storeAtW s [b]

/-- `wrN(W, n, v)` (20_memory.md R58). -/
def wrN (s : State) (n v : Nat) : Except Stop State :=
  if s.w.limit < s.w.pos + n then .error (.raised .bufferTooSmall) else storeAtW s (leBytes n v)

/-- `wrbytes(W, s)` (20_memory.md R59). -/
def wrbytes (s : State) (bs : List Byte) : Except Stop State :=
  if s.w.limit < s.w.pos + bs.length then .error (.raised .bufferTooSmall) else storeAtW s bs

/-! ## The view slots -/

/-- `VIEW[k]`. -/
def State.viewAt (s : State) (k : Nat) : View := s.views.getD k View.empty

/-- `VIEW[k] <- v`. -/
def State.setView (k : Nat) (v : View) (s : State) : State := { s with views := s.views.set k v }

/-- The slot a faulting NEXT was filling: VALID = 0, REUSE = 0, every other field unspecified
(60_exceptions.md R247). -/
def ruinedView (aw draw : Nat) : View :=
  let v := freeView draw
  { v with valid := false, reuse := false, tagOff := v.tagOff % 2 ^ aw, tagLen := v.tagLen % 2 ^ aw,
           dataOff := v.dataOff % 2 ^ aw }

/-- The slot NEXT writes (44_reader.md R192). -/
def chooseSlot (s : State) : Nat :=
  let cur := s.cvSlot.toNat
  if s.cvValid && (s.viewAt cur).valid && (s.viewAt cur).reuse then cur
  else if s.cvValid then (cur + 1) % s.cfg.nview
  else 0

/-! ## Taking a fault, and returning from one -/

/-- An unspecified position between two bounds (60_exceptions.md R247). -/
def freeBetween (draw which lo hi : Nat) : Nat := lo + Config.freeNat draw which % (hi - lo + 1)

/-- What a FormatError writes (60_exceptions.md R247); `slot` is the slot NEXT was filling, none for
the other reading commands. -/
def takeFormat (cause : Cause) (pos : Nat) (slot : Option Nat) (s : State) : State :=
  let d := s.draws
  { s with
    r := { s.r with errKind := kindFormat, errCause := causeCode cause, errPos := pos,
                    pos := freeBetween d 0 s.r.start s.r.limit, low := s.r.start }
    status := statusCode .eFormat, reason := 0
    x0 := Config.freeWord d 0, x1 := Config.freeWord d 1, x0Known := false, x1Known := false
    views := match slot with
      | some k => s.views.set k (ruinedView s.cfg.aw d)
      | none => s.views
    draws := d + 1 }

/-- What a BufferTooSmall writes (60_exceptions.md R247); the command started at this W.POS. -/
def takeBufferTooSmall (s : State) : State :=
  let d := s.draws
  { s with
    mem := s.mem.loosen d s.w.pos (s.w.limit - s.w.pos)
    w := { s.w with errKind := kindBuffer, errCause := 0, errPos := Config.freeNat d 1 % 2 ^ s.cfg.aw,
                    pos := freeBetween d 0 s.w.pos s.w.limit, low := s.w.pos }
    status := statusCode .eBufSmall, reason := 0
    x0 := Config.freeWord d 0, x1 := Config.freeWord d 1, x0Known := false, x1Known := false
    draws := d + 1 }

/-- What a ConversionError writes: STATUS, and x[0], x[1] unspecified (60_exceptions.md R248). -/
def takeConversion (st : Status) (s : State) : State := s.looseX.complete st

/-- Taking a fault: what the engine writes when a command raises one (60_exceptions.md R247, R248).
The state is the one the command started in: all that a faulting command may have done before is in
the unspecified part. -/
def takeFault (e : Raise) (slot : Option Nat) (s : State) : State :=
  match e with
  | .format cause pos => takeFormat cause pos slot s
  | .bufferTooSmall => takeBufferTooSmall s
  | .conversionNull => takeConversion .eConvNull s
  | .conversionType => takeConversion .eConvType s

/-- Return from a fault by opening a region (60_exceptions.md R249, 40_cursor.md R101, R104). -/
def openRegion (off len : Nat) (c : Cursor) : Cursor :=
  { c.clearErr with start := off, pos := off, limit := off + len, init := true }

/-- Return from a fault by rewinding (60_exceptions.md R249, 40_cursor.md R102, R105). -/
def rewound (c : Cursor) : Cursor := { c.clearErr with pos := c.start }

/-! ## The envelope (30_encoding.md R85) -/

/-- How a command's body ends: completion with STATUS = OK, a fault of the engine, or an access
outside MEM. -/
def finish (s : State) (slot : Option Nat) (body : Except Stop State) : Result :=
  match body with
  | .ok t => .next (t.complete .ok)
  | .error (.raised e) => .next (takeFault e slot s)
  | .error (.outside a) => .fault (.outsideMem a)

/-- A data command of W. The body is preceded by the operand checks: a reason to reject, or what the
command does. -/
def writerData (s : State) (body : Except Reason (Except Stop State)) : Result :=
  if !s.w.init then .next (s.reject .noInit)
  else if s.w.pending then .next (s.reject .errPending)
  else
    match body with
    | .error why => .next (s.reject why)
    | .ok m => finish s none m

/-- The tests every data command of R passes (30_encoding.md R85). -/
def readerReady (s : State) (k : Result) : Result :=
  if !s.r.init then .next (s.reject .noInit)
  else if s.r.pending then .next (s.reject .errPending)
  else k

/-- A data command of R that fills no slot. -/
def readerData (s : State) (body : Except Stop State) : Result := readerReady s (finish s none body)

/-- A view command: the slot number and the slot are tested, no cursor is (30_encoding.md R85). -/
def viewCommand (s : State) (vs : Byte) (body : View → Result) : Result :=
  if s.cfg.nview ≤ vs.toNat then .next (s.reject .badSlot)
  else if !(s.viewAt vs.toNat).valid then .next (s.reject .noView)
  else body (s.viewAt vs.toNat)

/-- A value read through R delivered to x[0], R advanced. -/
def deliverX0 (s : State) (m : Except Stop (Word × Cursor)) : Except Stop State :=
  match m with
  | .ok (v, c) => .ok (State.setX0 v { s with r := c })
  | .error e => .error e

end Sys2Proof.Machine
end

