-- ==== Sys2Proof/Machine/CursorCommands.lean ====
section
/-! DEFINITION. The cursor commands (40_cursor.md). -/

namespace Sys2Proof.Machine

/-- WINIT off, len (40_cursor.md R101). -/
def execWinit (a b : Word) (s : State) : Result :=
  if s.cfg.memSize < zext a + zext b then .next (s.reject .badRange)
  else .next (State.complete .ok { s with w := openRegion (zext a) (zext b) s.w })

/-- WREWIND (40_cursor.md R102). -/
def execWrewind (s : State) : Result :=
  if !s.w.init then .next (s.reject .noInit)
  else .next (State.complete .ok { s with w := rewound s.w })

/-- WREM (40_cursor.md R103). -/
def execWrem (s : State) : Result := writerData s (.ok (.ok (s.setX0 (deliver (s.w.limit - s.w.pos)))))

/-- PARSE off, len (40_cursor.md R104). -/
def execParse (a b : Word) (s : State) : Result :=
  if s.cfg.memSize < zext a + zext b then .next (s.reject .badRange)
  else .next (State.complete .ok { s with r := openRegion (zext a) (zext b) s.r })

/-- RREWIND (40_cursor.md R105). -/
def execRrewind (s : State) : Result :=
  if !s.r.init then .next (s.reject .noInit)
  else .next (State.complete .ok { s with r := rewound s.r })

/-- RREM (40_cursor.md R106). -/
def execRrem (s : State) : Result := readerData s (.ok (s.setX0 (deliver (s.r.limit - s.r.pos))))

end Sys2Proof.Machine
end

