-- ==== Sys2Proof/Machine/Fixed.lean ====
section
/-! DEFINITION. The little-endian fixed-width codec (42_fixed.md). -/

namespace Sys2Proof.Machine

/-- Packing the low `n` bytes of A (42_fixed.md R130). -/
def packW (s : State) (n : Nat) (a : Word) : Except Stop State := wrN s n (lowBytes n a)

/-- Unpacking `n` bytes, sign-extended to 64 bits (42_fixed.md R131). -/
def unpackR (s : State) (n : Nat) : Except Stop (Word × Cursor) :=
  match rdN s s.r n with
  | .ok (u, c) => .ok (signed n u, c)
  | .error e => .error e

/-- PUT8 (42_fixed.md R134). -/
def execPut8 (a : Word) (s : State) : Result := writerData s (.ok (packW s 1 a))

/-- PUT16 (42_fixed.md R135). -/
def execPut16 (a : Word) (s : State) : Result := writerData s (.ok (packW s 2 a))

/-- PUT32 (42_fixed.md R136). -/
def execPut32 (a : Word) (s : State) : Result := writerData s (.ok (packW s 4 a))

/-- PUT64 (42_fixed.md R137). -/
def execPut64 (a : Word) (s : State) : Result := writerData s (.ok (packW s 8 a))

/-- PUTD: the 64-bit pattern is moved unopened (42_fixed.md R132, R138). -/
def execPutd (a : Word) (s : State) : Result := writerData s (.ok (packW s 8 a))

/-- GET8 (42_fixed.md R139). -/
def execGet8 (s : State) : Result := readerData s (deliverX0 s (unpackR s 1))

/-- GET16 (42_fixed.md R140). -/
def execGet16 (s : State) : Result := readerData s (deliverX0 s (unpackR s 2))

/-- GET32 (42_fixed.md R141). -/
def execGet32 (s : State) : Result := readerData s (deliverX0 s (unpackR s 4))

/-- GET64 (42_fixed.md R142). -/
def execGet64 (s : State) : Result := readerData s (deliverX0 s (unpackR s 8))

/-- GETD: the 64-bit pattern is moved unopened (42_fixed.md R132, R143). -/
def execGetd (s : State) : Result := readerData s (deliverX0 s (unpackR s 8))

end Sys2Proof.Machine
end

