-- ==== Sys2Proof/Machine/Varint.lean ====
section
/-! DEFINITION. The LEB128 varint codec (41_varint.md). -/

namespace Sys2Proof.Machine

/-- The groups of `uleb`, at most `fuel` of them (41_varint.md R110). -/
def ulebGroups : (fuel v : Nat) → List Byte
  | 0, _ => []
  | fuel + 1, v =>
    if v / 128 = 0 then [BitVec.ofNat 8 (v % 128)]
    else BitVec.ofNat 8 (v % 128 + 128) :: ulebGroups fuel (v / 128)

/-- `uleb(v)` for 0 <= v < 2^64, which has at most ten groups (41_varint.md R110). -/
def uleb (v : Nat) : List Byte := ulebGroups 10 v

/-- The groups of `sleb`, at most `fuel` of them (41_varint.md R111). Division and remainder are the
floor ones of 00_scope.md R8. -/
def slebGroups : (fuel : Nat) → (v : Int) → List Byte
  | 0, _ => []
  | fuel + 1, v =>
    let g := (v % 128).toNat
    if (v / 128 = 0 ∧ g < 64) ∨ (v / 128 = -1 ∧ 64 ≤ g) then [BitVec.ofNat 8 g]
    else BitVec.ofNat 8 (g + 128) :: slebGroups fuel (v / 128)

/-- `sleb(v)` for -2^63 <= v < 2^63, which has at most ten groups (41_varint.md R111). -/
def sleb (v : Int) : List Byte := slebGroups 10 v

/-- `udec` from group `k` on with the value so far (41_varint.md R112, R114). `fuel` is 10 - k: the
tenth byte ends the varint or raises, so the first case is not met. -/
def udecFrom (s : State) : (fuel k res : Nat) → Cursor → Except Stop (Nat × Cursor)
  | 0, _, _, c => .error (.raised (.format .varintRange c.pos))
  | fuel + 1, k, res, c =>
    match rd8 s c .truncVarint with
    | .error e => .error e
    | .ok (b, c') =>
      let g := b.toNat % 128
      if k = 9 ∧ (1 < g ∨ b.getLsbD 7) then .error (.raised (.format .varintRange c.pos))
      else if b.getLsbD 7 then udecFrom s fuel (k + 1) (res ||| (g <<< (7 * k))) c'
      else .ok (res ||| (g <<< (7 * k)), c')

/-- `udec(C)` (41_varint.md R112). -/
def udec (s : State) (c : Cursor) : Except Stop (Nat × Cursor) := udecFrom s 10 0 0 c

/-- `sdec` from group `k` on with the value so far (41_varint.md R113, R114). -/
def sdecFrom (s : State) : (fuel k res : Nat) → Cursor → Except Stop (Int × Cursor)
  | 0, _, _, c => .error (.raised (.format .varintRange c.pos))
  | fuel + 1, k, res, c =>
    match rd8 s c .truncVarint with
    | .error e => .error e
    | .ok (b, c') =>
      let g := b.toNat % 128
      if k = 9 ∧ (b.getLsbD 7 ∨ (g ≠ 0x00 ∧ g ≠ 0x7F)) then
        .error (.raised (.format .varintRange c.pos))
      else if b.getLsbD 7 then sdecFrom s fuel (k + 1) (res ||| (g <<< (7 * k))) c'
      else if 64 ≤ g then .ok (((res ||| (g <<< (7 * k)) : Nat) : Int) - 2 ^ (7 * k + 7), c')
      else .ok (((res ||| (g <<< (7 * k)) : Nat) : Int), c')

/-- `sdec(C)` (41_varint.md R113). -/
def sdec (s : State) (c : Cursor) : Except Stop (Int × Cursor) := sdecFrom s 10 0 0 c

/-- `udec` as a 64-bit pattern. -/
def udecWord (s : State) (c : Cursor) : Except Stop (Word × Cursor) :=
  match udec s c with
  | .ok (v, c') => .ok (BitVec.ofNat 64 v, c')
  | .error e => .error e

/-- `sdec` as a 64-bit two's-complement pattern. -/
def sdecWord (s : State) (c : Cursor) : Except Stop (Word × Cursor) :=
  match sdec s c with
  | .ok (v, c') => .ok (BitVec.ofInt 64 v, c')
  | .error e => .error e

/-- VPUTU (41_varint.md R115). -/
def execVputu (a : Word) (s : State) : Result := writerData s (.ok (wrbytes s (uleb (zext a))))

/-- VPUTS (41_varint.md R116). -/
def execVputs (a : Word) (s : State) : Result := writerData s (.ok (wrbytes s (sleb (sext a))))

/-- VGETU (41_varint.md R117). -/
def execVgetu (s : State) : Result := readerData s (deliverX0 s (udecWord s s.r))

/-- VGETS (41_varint.md R118). -/
def execVgets (s : State) : Result := readerData s (deliverX0 s (sdecWord s s.r))

end Sys2Proof.Machine
end

