-- ==== Sys2Proof/Machine/Reader.lean ====
section
/-! DEFINITION. The sequential reader (44_reader.md): the parts of NEXT (R191 to R202), the meaning
of each entry form, NEXT, MARK, VINFO and VTAG. -/

namespace Sys2Proof.Machine

/-! ## The parts of an entry -/

/-- The tag length (44_reader.md R194); `e0` is the position of byte0. -/
def readTagLen (s : State) (il : BitVec 3) (e0 : Nat) (c : Cursor) : Except Stop (Nat × Cursor) :=
  if il.toNat ≠ 0 then .ok (il.toNat, c)
  else
    match udec s c with
    | .error e => .error e
    | .ok (n, c') => if n = 0 then .error (.raised (.format .zeroTag e0)) else .ok (n, c')

/-- The element count (44_reader.md R196). -/
def readCount (s : State) (arr : Bool) (c : Cursor) : Except Stop (Nat × Cursor) :=
  if arr then udec s c else .ok (1, c)

/-- The elements of a String or Binary entry (44_reader.md R199). Every pass reads a byte, so `fuel`,
which is more than the bytes that remain, is never used up (R203). -/
def readSpans (s : State) : (fuel cnt : Nat) → Cursor → Except Stop (List Elem × Cursor)
  | 0, _, c => .error (.raised (.format .truncVarint c.pos))
  | fuel + 1, cnt, c =>
    if cnt = 0 then .ok ([], c)
    else
      match udec s c with
      | .error e => .error e
      | .ok (len, c1) =>
        match skip c1 len .truncBytes with
        | .error e => .error e
        | .ok c2 =>
          match readSpans s fuel (cnt - 1) c2 with
          | .error e => .error e
          | .ok (es, c3) => .ok (.span c1.pos len :: es, c3)

/-- The elements of a Varint entry (44_reader.md R200); `fuel` as in `readSpans`. -/
def readVals (s : State) : (fuel cnt : Nat) → Cursor → Except Stop (List Elem × Cursor)
  | 0, _, c => .error (.raised (.format .truncVarint c.pos))
  | fuel + 1, cnt, c =>
    if cnt = 0 then .ok ([], c)
    else
      match sdecWord s c with
      | .error e => .error e
      | .ok (v, c1) =>
        match readVals s fuel (cnt - 1) c1 with
        | .error e => .error e
        | .ok (es, c2) => .ok (.val v :: es, c2)

/-- The bound 44_reader.md R203 allows on the passes of an element loop. -/
def loopBound (c : Cursor) : Nat := c.limit - c.pos + 1

/-- The payload, by type (44_reader.md R197 to R200). -/
def readPayload (s : State) (ty : EntryType) (cnt : Nat) (c : Cursor) :
    Except Stop (List Elem × Cursor) :=
  match ty with
  | .null => .ok ([], c)
  | .string | .binary => readSpans s (loopBound c) cnt c
  | .int8 | .int16 | .int32 | .int64 | .double | .datetime =>
    match skip c (cnt * typeWidth ty) .truncFixed with
    | .ok c' => .ok ([], c')
    | .error e => .error e
  | .varint => readVals s (loopBound c) cnt c

/-- What stands before the payload: the tag's place, the count, and the cursor after them
(44_reader.md R194 to R196). -/
def readHead (s : State) (arr : Bool) (il : BitVec 3) (e0 : Nat) (c : Cursor) :
    Except Stop ((Nat × Nat) × Nat × Cursor) :=
  match readTagLen s il e0 c with
  | .error e => .error e
  | .ok (tlen, c1) =>
    match skip c1 tlen .truncBytes with
    | .error e => .error e
    | .ok c2 =>
      match readCount s arr c2 with
      | .error e => .error e
      | .ok (cnt, c3) => .ok ((c1.pos, tlen), cnt, c3)

/-- The entry behind byte0 as a view, and the cursor after the entry (44_reader.md R190). `ty` is
none for the unassigned type codes, which raise after the tag and the count (R201). `e0` is the
position of byte0 and `c` stands one past it. -/
def readEntry (s : State) (arr : Bool) (ty : Option EntryType) (il : BitVec 3) (e0 : Nat)
    (c : Cursor) : Except Stop (View × Cursor) :=
  match readHead s arr il e0 c with
  | .error e => .error e
  | .ok ((toff, tlen), cnt, c3) =>
    match ty with
    | none => .error (.raised (.format .badType e0))
    | some y =>
      match readPayload s y cnt c3 with
      | .error e => .error e
      | .ok (es, c4) =>
        .ok ({ valid := true, reuse := false, type := BitVec.ofNat 4 (typeCode y), array := arr,
               count := BitVec.ofNat 64 cnt, tagOff := toff, tagLen := tlen, dataOff := c3.pos,
               elems := es }, c4)

/-! ## NEXT -/

/-- What a completed NEXT writes (44_reader.md R202). -/
def fillSlot (k : Nat) (v : View) (c : Cursor) (s : State) : State :=
  State.setX0 (BitVec.ofNat 64 k)
    (State.setView k v { s with r := c, cvValid := true, cvSlot := BitVec.ofNat 8 k })

/-- NEXT once byte0 has been fetched: the entry decoded into the chosen slot, or the fault. -/
def takeEntry (s : State) (arr : Bool) (ty : Option EntryType) (il : BitVec 3) : Result :=
  let k := chooseSlot s
  finish s (some k)
    (match readEntry s arr ty il s.r.pos { s.r with pos := s.r.pos + 1 } with
     | .ok (v, c) => .ok (fillSlot k v c s)
     | .error e => .error e)

/-- The step of the reader: its tests, the end of the document (44_reader.md R191), the fetch of byte0
at R.POS, and what is done with byte0. -/
def readerStep (s : State) (k : Byte → Result) : Result :=
  readerReady s
    (if s.r.limit ≤ s.r.pos then .next (s.complete .endOfDoc)
     else if s.r.pos < s.cfg.memSize then k (s.byteAt s.r.pos)
     else .fault (.outsideMem s.r.pos))

/-- NEXT (44_reader.md R190): byte0 is taken apart as R193 says. -/
def execNext (s : State) : Result :=
  readerStep s fun b0 =>
    takeEntry s (entryArray b0) (typeOfCode (entryTypeCode b0).toNat) (entryInlineLength b0)

/-! ## The entry forms: what NEXT does where the byte0 it fetches is of that form (log 8) -/

/-- An entry of a given form at R.POS, taken by the step of the reader. -/
def entryAtR (s : State) (arr : Bool) (ty : EntryType) (il : BitVec 3) : Result :=
  readerStep s fun _ => takeEntry s arr (some ty) il

/-- ENTRY.NULL (44_reader.md R197). -/
def execEntryNull (il : BitVec 3) (s : State) : Result := entryAtR s false .null il
/-- ENTRY.STRING (44_reader.md R199). -/
def execEntryString (il : BitVec 3) (s : State) : Result := entryAtR s false .string il
/-- ENTRY.BINARY (44_reader.md R199). -/
def execEntryBinary (il : BitVec 3) (s : State) : Result := entryAtR s false .binary il
/-- ENTRY.INT8 (44_reader.md R198). -/
def execEntryInt8 (il : BitVec 3) (s : State) : Result := entryAtR s false .int8 il
/-- ENTRY.INT16 (44_reader.md R198). -/
def execEntryInt16 (il : BitVec 3) (s : State) : Result := entryAtR s false .int16 il
/-- ENTRY.INT32 (44_reader.md R198). -/
def execEntryInt32 (il : BitVec 3) (s : State) : Result := entryAtR s false .int32 il
/-- ENTRY.INT64 (44_reader.md R198). -/
def execEntryInt64 (il : BitVec 3) (s : State) : Result := entryAtR s false .int64 il
/-- ENTRY.DOUBLE (44_reader.md R198). -/
def execEntryDouble (il : BitVec 3) (s : State) : Result := entryAtR s false .double il
/-- ENTRY.DATETIME (44_reader.md R198). -/
def execEntryDatetime (il : BitVec 3) (s : State) : Result := entryAtR s false .datetime il
/-- ENTRY.VARINT (44_reader.md R200). -/
def execEntryVarint (il : BitVec 3) (s : State) : Result := entryAtR s false .varint il
/-- ENTRY.NULL[] (44_reader.md R197). -/
def execEntryNullArr (il : BitVec 3) (s : State) : Result := entryAtR s true .null il
/-- ENTRY.STRING[] (44_reader.md R199). -/
def execEntryStringArr (il : BitVec 3) (s : State) : Result := entryAtR s true .string il
/-- ENTRY.BINARY[] (44_reader.md R199). -/
def execEntryBinaryArr (il : BitVec 3) (s : State) : Result := entryAtR s true .binary il
/-- ENTRY.INT8[] (44_reader.md R198). -/
def execEntryInt8Arr (il : BitVec 3) (s : State) : Result := entryAtR s true .int8 il
/-- ENTRY.INT16[] (44_reader.md R198). -/
def execEntryInt16Arr (il : BitVec 3) (s : State) : Result := entryAtR s true .int16 il
/-- ENTRY.INT32[] (44_reader.md R198). -/
def execEntryInt32Arr (il : BitVec 3) (s : State) : Result := entryAtR s true .int32 il
/-- ENTRY.INT64[] (44_reader.md R198). -/
def execEntryInt64Arr (il : BitVec 3) (s : State) : Result := entryAtR s true .int64 il
/-- ENTRY.DOUBLE[] (44_reader.md R198). -/
def execEntryDoubleArr (il : BitVec 3) (s : State) : Result := entryAtR s true .double il
/-- ENTRY.DATETIME[] (44_reader.md R198). -/
def execEntryDatetimeArr (il : BitVec 3) (s : State) : Result := entryAtR s true .datetime il
/-- ENTRY.VARINT[] (44_reader.md R200). -/
def execEntryVarintArr (il : BitVec 3) (s : State) : Result := entryAtR s true .varint il

/-! ## The other reader commands -/

/-- MARK (44_reader.md R205). -/
def execMark (vs : Byte) (s : State) : Result :=
  viewCommand s vs fun v => .next (State.complete .ok (s.setView vs.toNat { v with reuse := true }))

/-- VINFO (44_reader.md R206). -/
def execVinfo (vs : Byte) (s : State) : Result :=
  viewCommand s vs fun v =>
    .next (State.complete .ok
      ((s.setX0 (BitVec.ofNat 64 ((if v.array then 16 else 0) + v.type.toNat))).setX1 v.count))

/-- VTAG (44_reader.md R207). -/
def execVtag (vs : Byte) (s : State) : Result :=
  viewCommand s vs fun v =>
    .next (State.complete .ok ((s.setX0 (deliver v.tagOff)).setX1 (deliver v.tagLen)))

end Sys2Proof.Machine
end

