-- ==== Sys2Proof/Machine/Serializer.lean ====
section
/-! DEFINITION. The tag/value frame serializer (43_serializer.md): what is written (R151, R152),
the UTF-8 of a text (R160), the byte forms (R153 to R155) and the text forms (R163 to R165). -/

namespace Sys2Proof.Machine

/-- byte0 with a number in its ILEN field (30_encoding.md R71). -/
def headerByte (arr : Bool) (ty : EntryType) (il : Nat) : Byte :=
  BitVec.ofNat 8 ((if arr then 128 else 0) + typeCode ty * 8 + il)

/-- `hdr(arr, ty, tag)` (43_serializer.md R151). -/
def hdr (arr : Bool) (ty : EntryType) (tag : List Byte) : List Byte :=
  if tag.length ≤ 7 then headerByte arr ty tag.length :: tag
  else headerByte arr ty 0 :: (uleb tag.length ++ tag)

/-- A counted byte string, the encoding of a String or Binary element (30_encoding.md R75). -/
def counted (d : List Byte) : List Byte := uleb d.length ++ d

/-- `elem(ty, A, D)` (43_serializer.md R152). -/
def elemBytes (ty : EntryType) (a : Word) (d : List Byte) : List Byte :=
  match ty with
  | .null => []
  | .string | .binary => counted d
  | .int8 => leBytes 1 (lowBytes 1 a)
  | .int16 => leBytes 2 (lowBytes 2 a)
  | .int32 => leBytes 4 (lowBytes 4 a)
  | .int64 | .double | .datetime => leBytes 8 (zext a)
  | .varint => sleb (sext a)

/-! ## UTF-8 (43_serializer.md R160; log 18) -/

/-- The UTF-8 of a code point of one code unit: the first three rows of 43_serializer.md R160. -/
def utf8Unit (u : CodeUnit) : List Byte :=
  let c := u.toNat
  if c < 0x80 then [BitVec.ofNat 8 c]
  else if c ≤ 0x7FF then [BitVec.ofNat 8 (0xC0 + c / 64), BitVec.ofNat 8 (0x80 + c % 64)]
  else [BitVec.ofNat 8 (0xE0 + c / 4096), BitVec.ofNat 8 (0x80 + c / 64 % 64),
        BitVec.ofNat 8 (0x80 + c % 64)]

/-- The code point of a surrogate pair: the fourth row of 43_serializer.md R160. -/
def pairPoint (hi lo : CodeUnit) : Nat := 0x10000 + (hi.toNat - 0xD800) * 0x400 + (lo.toNat - 0xDC00)

/-- The UTF-8 of a surrogate pair: the fourth row of 43_serializer.md R160. -/
def utf8Pair (hi lo : CodeUnit) : List Byte :=
  let c := pairPoint hi lo
  [BitVec.ofNat 8 (0xF0 + c / 262144), BitVec.ofNat 8 (0x80 + c / 4096 % 64),
   BitVec.ofNat 8 (0x80 + c / 64 % 64), BitVec.ofNat 8 (0x80 + c % 64)]

/-- `utf8(u)` (43_serializer.md R160). It is used on well-formed texts only. -/
def utf8 : List CodeUnit → List Byte
  | [] => []
  | [u] => utf8Unit u
  | u :: v :: rest =>
    if isHigh u && isLow v then utf8Pair u v ++ utf8 rest else utf8Unit u ++ utf8 (v :: rest)

/-! ## The byte forms -/

/-- The bytes of ESCALAR after its operand checks (43_serializer.md R153). -/
def scalarBytes (ty : Byte) (t : List Byte) (a : Word) (d : List Byte) : Except Reason (List Byte) :=
  match typeOfCode ty.toNat with
  | none => .error .badType
  | some y => if t.length = 0 then .error .emptyTag else .ok (hdr false y t ++ elemBytes y a d)

/-- The bytes of EARRAY after its operand checks (43_serializer.md R154). -/
def arrayBytes (ty : Byte) (t : List Byte) (a : Word) : Except Reason (List Byte) :=
  match typeOfCode ty.toNat with
  | none => .error .badType
  | some y => if t.length = 0 then .error .emptyTag else .ok (hdr true y t ++ uleb (zext a))

/-- The bytes of EELEM after its operand check (43_serializer.md R155). -/
def elementBytes (ty : Byte) (a : Word) (d : List Byte) : Except Reason (List Byte) :=
  match typeOfCode ty.toNat with
  | none => .error .badType
  | some y => .ok (elemBytes y a d)

/-- A serializer command: its operand checks and the bytes it hands to `wrbytes`. -/
def serialize (s : State) (bytes : Except Reason (List Byte)) : Result :=
  writerData s (bytes.map (wrbytes s))

/-- ESCALAR (43_serializer.md R153). -/
def execEscalar (ty : Byte) (t : List Byte) (a : Word) (d : List Byte) (s : State) : Result :=
  serialize s (scalarBytes ty t a d)

/-- EARRAY (43_serializer.md R154). -/
def execEarray (ty : Byte) (t : List Byte) (a : Word) (s : State) : Result :=
  serialize s (arrayBytes ty t a)

/-- EELEM (43_serializer.md R155). -/
def execEelem (ty : Byte) (a : Word) (d : List Byte) (s : State) : Result :=
  serialize s (elementBytes ty a d)

/-! ## The text forms -/

/-- The D operand of a text form as bytes: transcoded for a String, raw otherwise (43_serializer.md
R163); none where the engine answers BADTEXT. -/
def textData (y : EntryType) (d : List Byte) : Option (List Byte) :=
  if y = .string then (textOf d).map utf8 else some d

/-- The bytes of ESCALART after its operand checks (43_serializer.md R163). -/
def scalarTextBytes (ty : Byte) (t : List Byte) (a : Word) (d : List Byte) :
    Except Reason (List Byte) :=
  match typeOfCode ty.toNat with
  | none => .error .badType
  | some y =>
    if t.length < 2 then .error .emptyTag
    else
      match textOf t, textData y d with
      | some tu, some db => .ok (hdr false y (utf8 tu) ++ elemBytes y a db)
      | _, _ => .error .badText

/-- The bytes of EARRAYT after its operand checks (43_serializer.md R164). -/
def arrayTextBytes (ty : Byte) (t : List Byte) (a : Word) : Except Reason (List Byte) :=
  match typeOfCode ty.toNat with
  | none => .error .badType
  | some y =>
    if t.length < 2 then .error .emptyTag
    else
      match textOf t with
      | some tu => .ok (hdr true y (utf8 tu) ++ uleb (zext a))
      | none => .error .badText

/-- The bytes of EELEMT after its operand checks (43_serializer.md R165). -/
def elementTextBytes (ty : Byte) (d : List Byte) : Except Reason (List Byte) :=
  if ty.toNat ≠ 1 then .error .badType
  else
    match textOf d with
    | some du => .ok (counted (utf8 du))
    | none => .error .badText

/-- ESCALART (43_serializer.md R163). -/
def execEscalart (ty : Byte) (t : List Byte) (a : Word) (d : List Byte) (s : State) : Result :=
  serialize s (scalarTextBytes ty t a d)

/-- EARRAYT (43_serializer.md R164). -/
def execEarrayt (ty : Byte) (t : List Byte) (a : Word) (s : State) : Result :=
  serialize s (arrayTextBytes ty t a)

/-- EELEMT (43_serializer.md R165). -/
def execEelemt (ty : Byte) (d : List Byte) (s : State) : Result :=
  serialize s (elementTextBytes ty d)

end Sys2Proof.Machine
end

