-- ==== Sys2Proof/Machine/ViewAccess.lean ====
section
/-! DEFINITION. The accessors of a view (45_view.md). -/

namespace Sys2Proof.Machine

/-- Whether a typed accessor for type `ty` is used as 45_view.md R231 asks: the view is of that type
and the index is below the count. -/
def accessOk (v : View) (ty : EntryType) (idx : Nat) : Bool :=
  decide (v.type.toNat = typeCode ty) && decide (idx < v.count.toNat)

/-- An element of a fixed-width type delivered to x[0] (45_view.md R220, R232): read from MEM as it
now is. -/
def fetchElement (s : State) (v : View) (w idx : Nat) : Result :=
  finish s none
    (match memRead s (v.dataOff + idx * w) w with
     | .ok u => .ok (s.setX0 (signed w u))
     | .error e => .error e)

/-- A typed accessor of a fixed-width type. Used otherwise than R231 asks it completes and x[0] is
unspecified. -/
def fixedAccessor (ty : EntryType) (vs : Byte) (a : Word) (s : State) : Result :=
  viewCommand s vs fun v =>
    if accessOk v ty (zext a) then fetchElement s v (typeWidth ty) (zext a)
    else .next (State.complete .ok s.looseX0)

/-- The accessor of a String or Binary element: its offset and length (45_view.md R226, R227). -/
def spanAccessor (ty : EntryType) (vs : Byte) (a : Word) (s : State) : Result :=
  viewCommand s vs fun v =>
    match accessOk v ty (zext a), v.elems[zext a]? with
    | true, some (.span off len) => .next (State.complete .ok ((s.setX0 (deliver off)).setX1 (deliver len)))
    | _, _ => .next (State.complete .ok s.looseX)

/-- The recorded value of a Varint element delivered to x[0] (45_view.md R228); unspecified where the
table holds no such record. -/
def recordedValue (s : State) (v : View) (idx : Nat) : Result :=
  match v.elems[idx]? with
  | some (.val x) => .next (State.complete .ok (s.setX0 x))
  | _ => .next (State.complete .ok s.looseX0)

/-- VI8 (45_view.md R221). -/
def execVi8 (vs : Byte) (a : Word) (s : State) : Result := fixedAccessor .int8 vs a s
/-- VI16 (45_view.md R222). -/
def execVi16 (vs : Byte) (a : Word) (s : State) : Result := fixedAccessor .int16 vs a s
/-- VI32 (45_view.md R223). -/
def execVi32 (vs : Byte) (a : Word) (s : State) : Result := fixedAccessor .int32 vs a s
/-- VI64 (45_view.md R224). -/
def execVi64 (vs : Byte) (a : Word) (s : State) : Result := fixedAccessor .int64 vs a s
/-- VDT (45_view.md R225). -/
def execVdt (vs : Byte) (a : Word) (s : State) : Result := fixedAccessor .datetime vs a s
/-- VDBL (45_view.md R229). -/
def execVdbl (vs : Byte) (a : Word) (s : State) : Result := fixedAccessor .double vs a s
/-- VSTR (45_view.md R226). -/
def execVstr (vs : Byte) (a : Word) (s : State) : Result := spanAccessor .string vs a s
/-- VBIN (45_view.md R227). -/
def execVbin (vs : Byte) (a : Word) (s : State) : Result := spanAccessor .binary vs a s

/-- VVAR (45_view.md R228). -/
def execVvar (vs : Byte) (a : Word) (s : State) : Result :=
  viewCommand s vs fun v =>
    if accessOk v .varint (zext a) then recordedValue s v (zext a)
    else .next (State.complete .ok s.looseX0)

/-- VLONG (45_view.md R230): the type is tested first; an index at or beyond the count is the unchecked
case of R231. A type code above 9 stands in no valid view and has no row in R230 (log 15). -/
def execVlong (vs : Byte) (a : Word) (s : State) : Result :=
  viewCommand s vs fun v =>
    match typeOfCode v.type.toNat with
    | some .null => finish s none (.error (.raised .conversionNull))
    | some .string | some .binary | some .double => finish s none (.error (.raised .conversionType))
    | none => .next (State.complete .ok s.looseX0)
    | some .varint =>
      if zext a < v.count.toNat then recordedValue s v (zext a)
      else .next (State.complete .ok s.looseX0)
    | some ty =>
      if zext a < v.count.toNat then fetchElement s v (typeWidth ty) (zext a)
      else .next (State.complete .ok s.looseX0)

end Sys2Proof.Machine
end

