-- ==== Sys2Proof/Machine/Dispatch.lean ====
section
/-! DEFINITION. The meaning of every instruction, one arm each. -/

namespace Sys2Proof.Machine

/-- What an instruction does. -/
def exec (i : Instr) (s : State) : Host.Outcome State Fault Refusal :=
  match i with
  | .winit a b => Sys2Proof.Machine.execWinit a b s
  | .wrewind => Sys2Proof.Machine.execWrewind s
  | .wrem => Sys2Proof.Machine.execWrem s
  | .parse a b => Sys2Proof.Machine.execParse a b s
  | .rrewind => Sys2Proof.Machine.execRrewind s
  | .rrem => Sys2Proof.Machine.execRrem s
  | .vputu a => Sys2Proof.Machine.execVputu a s
  | .vputs a => Sys2Proof.Machine.execVputs a s
  | .vgetu => Sys2Proof.Machine.execVgetu s
  | .vgets => Sys2Proof.Machine.execVgets s
  | .put8 a => Sys2Proof.Machine.execPut8 a s
  | .put16 a => Sys2Proof.Machine.execPut16 a s
  | .put32 a => Sys2Proof.Machine.execPut32 a s
  | .put64 a => Sys2Proof.Machine.execPut64 a s
  | .putd a => Sys2Proof.Machine.execPutd a s
  | .get8 => Sys2Proof.Machine.execGet8 s
  | .get16 => Sys2Proof.Machine.execGet16 s
  | .get32 => Sys2Proof.Machine.execGet32 s
  | .get64 => Sys2Proof.Machine.execGet64 s
  | .getd => Sys2Proof.Machine.execGetd s
  | .escalar ty t a d => Sys2Proof.Machine.execEscalar ty t a d s
  | .earray ty t a => Sys2Proof.Machine.execEarray ty t a s
  | .eelem ty a d => Sys2Proof.Machine.execEelem ty a d s
  | .escalart ty t a d => Sys2Proof.Machine.execEscalart ty t a d s
  | .earrayt ty t a => Sys2Proof.Machine.execEarrayt ty t a s
  | .eelemt ty d => Sys2Proof.Machine.execEelemt ty d s
  | .next => Sys2Proof.Machine.execNext s
  | .mark vs => Sys2Proof.Machine.execMark vs s
  | .vinfo vs => Sys2Proof.Machine.execVinfo vs s
  | .vtag vs => Sys2Proof.Machine.execVtag vs s
  | .vi8 vs a => Sys2Proof.Machine.execVi8 vs a s
  | .vi16 vs a => Sys2Proof.Machine.execVi16 vs a s
  | .vi32 vs a => Sys2Proof.Machine.execVi32 vs a s
  | .vi64 vs a => Sys2Proof.Machine.execVi64 vs a s
  | .vdt vs a => Sys2Proof.Machine.execVdt vs a s
  | .vdbl vs a => Sys2Proof.Machine.execVdbl vs a s
  | .vstr vs a => Sys2Proof.Machine.execVstr vs a s
  | .vbin vs a => Sys2Proof.Machine.execVbin vs a s
  | .vvar vs a => Sys2Proof.Machine.execVvar vs a s
  | .vlong vs a => Sys2Proof.Machine.execVlong vs a s
  | .entryNull il => Sys2Proof.Machine.execEntryNull il s
  | .entryString il => Sys2Proof.Machine.execEntryString il s
  | .entryBinary il => Sys2Proof.Machine.execEntryBinary il s
  | .entryInt8 il => Sys2Proof.Machine.execEntryInt8 il s
  | .entryInt16 il => Sys2Proof.Machine.execEntryInt16 il s
  | .entryInt32 il => Sys2Proof.Machine.execEntryInt32 il s
  | .entryInt64 il => Sys2Proof.Machine.execEntryInt64 il s
  | .entryDouble il => Sys2Proof.Machine.execEntryDouble il s
  | .entryDatetime il => Sys2Proof.Machine.execEntryDatetime il s
  | .entryVarint il => Sys2Proof.Machine.execEntryVarint il s
  | .entryNullArr il => Sys2Proof.Machine.execEntryNullArr il s
  | .entryStringArr il => Sys2Proof.Machine.execEntryStringArr il s
  | .entryBinaryArr il => Sys2Proof.Machine.execEntryBinaryArr il s
  | .entryInt8Arr il => Sys2Proof.Machine.execEntryInt8Arr il s
  | .entryInt16Arr il => Sys2Proof.Machine.execEntryInt16Arr il s
  | .entryInt32Arr il => Sys2Proof.Machine.execEntryInt32Arr il s
  | .entryInt64Arr il => Sys2Proof.Machine.execEntryInt64Arr il s
  | .entryDoubleArr il => Sys2Proof.Machine.execEntryDoubleArr il s
  | .entryDatetimeArr il => Sys2Proof.Machine.execEntryDatetimeArr il s
  | .entryVarintArr il => Sys2Proof.Machine.execEntryVarintArr il s

end Sys2Proof.Machine
end

