-- ==== Sys2Proof/Machine/HostPort.lean ====
section
/-! DEFINITION. What the host does between commands: the register map (10_state.md R33), access to
MEM (20_memory.md R62) and reset (70_reset_and_hazards.md R270, R271). -/

namespace Sys2Proof.Machine

/-- An unspecified register of AW bits, drawn afresh at each read (10_state.md R33; log 11). -/
def freeAW (s : State) (which : Nat) : Nat := Config.freeNat s.draws which % 2 ^ s.cfg.aw

/-- A bit as a number. -/
def bit (b : Bool) : Nat := if b then 1 else 0

/-- A cursor's POS as the host reads it: unspecified before initialisation, unspecified within its
bounds while a fault is pending (10_state.md R36, 60_exceptions.md R247). -/
def posRegister (s : State) (c : Cursor) : Nat :=
  if !c.init then freeAW s 1
  else if c.pending then freeBetween s.draws 1 c.low c.limit
  else c.pos

/-- The six registers of a cursor, `k` counting from START (10_state.md R33); none for a number not
listed. -/
def cursorRegister (s : State) (c : Cursor) (k : Nat) : Option Nat :=
  match k with
  | 0 => some (if c.init then c.start else freeAW s 0)
  | 1 => some (posRegister s c)
  | 2 => some (if c.init then c.limit else freeAW s 2)
  | 3 => some (bit c.init)
  | 4 => some (c.errKind.toNat + 16 * c.errCause.toNat)
  | 5 => some (if c.errKind = kindFormat then c.errPos else freeAW s 5)
  | _ => none

/-- The five registers of a slot (10_state.md R33). Every field but VALID and REUSE of a slot with
VALID = 0 is unspecified (R30). -/
def viewRegister (s : State) (v : View) (k : Nat) : Option Nat :=
  let u := if v.valid then v else { ruinedView s.cfg.aw s.draws with reuse := v.reuse }
  match k with
  | 0 => some (bit u.valid + 2 * bit u.reuse + 4 * bit u.array + 16 * u.type.toNat)
  | 1 => some u.count.toNat
  | 2 => some u.tagOff
  | 3 => some u.tagLen
  | 4 => some u.dataOff
  | _ => none

/-- CV: SLOT in bits 7 to 0, VALID in bit 8 (10_state.md R33); SLOT is unspecified while VALID = 0. -/
def cvRegister (s : State) : Nat :=
  if s.cvValid then s.cvSlot.toNat + 256 else Config.freeNat s.draws 4 % 256

/-- The register of a number (10_state.md R33); none for a number that is not listed. Bits not listed
read as 0. -/
def listedRegister (s : State) (num : Nat) : Option Nat :=
  if num = 0x000 then some s.status.toNat
  else if num = 0x001 then some s.reason.toNat
  else if num = 0x002 then some (if s.x0Known then s.x0.toNat else (Config.freeWord s.draws 2).toNat)
  else if num = 0x003 then some (if s.x1Known then s.x1.toNat else (Config.freeWord s.draws 3).toNat)
  else if num = 0x004 then some (cvRegister s)
  else if 0x010 ≤ num ∧ num < 0x020 then cursorRegister s s.w (num - 0x010)
  else if 0x020 ≤ num ∧ num < 0x030 then cursorRegister s s.r (num - 0x020)
  else if 0x100 ≤ num ∧ (num - 0x100) / 16 < s.cfg.nview then
    viewRegister s (s.viewAt ((num - 0x100) / 16)) ((num - 0x100) % 16)
  else none

/-- What a read of a register number returns; an unlisted number gives an unspecified value (log 21). -/
def readRegister (s : State) (num : Nat) : Nat :=
  match listedRegister s num with
  | some v => v
  | none => Config.freeNat s.draws num

/-- Reset (70_reset_and_hazards.md R270): the reset state of the same engine, with new unspecified
contents of MEM: the epoch is one no earlier contents had (R273; log 5). What the host still has to do
and what it has read are the host's. -/
def hostReset (s : State) : State :=
  { State.resetOf s.cfg with memEpoch := s.memEpoch + 1, draws := s.draws,
                             inbox := s.inbox, hostData := s.hostData }

/-- A host move other than a command. A host access outside MEM is to a position that does not exist
(log 12). -/
def hostAccess (a : HostAccess) (s : State) : Result :=
  match a with
  | .writeMem addr bytes =>
    if addr + bytes.length ≤ s.cfg.memSize then .next { s with mem := s.mem.writeBytes addr bytes }
    else .fault (.outsideMem (addr + bytes.length - 1))
  | .readMem addr =>
    if addr < s.cfg.memSize then .next { s with hostData := (s.byteAt addr).toNat }
    else .fault (.outsideMem addr)
  | .readReg num => .next { s with hostData := readRegister s num, draws := s.draws + 1 }
  | .reset => .next (hostReset s)

end Sys2Proof.Machine
end

