-- ==== Sys2Proof/Machine/Fetch.lean ====
section
/-! DEFINITION. How instructions reach the engine: a command is the next move of the host
(00_scope.md R3, 30_encoding.md R81); an entry form is fetched at R.POS by NEXT (10_state.md R23). -/

namespace Sys2Proof.Machine

/-- The state with the host's next move taken. -/
def State.withInbox (rest : List HostMove) (s : State) : State := { s with inbox := rest }

/-- What the engine does with presented bytes that are no instruction: an unassigned opcode is
rejected with BADOP (30_encoding.md R84); bytes that are no descriptor are refused (log 7). -/
def noInstruction (e : DecodeError) (s : State) : Result :=
  match e with
  | .badOpcode _ => .next (s.reject .badOp)
  | _ => .refused (.badDescriptor e)

/-- The state with a command presented before all other moves. -/
def presentCommand (bs : List Byte) (s : State) : State :=
  { s with inbox := .command bs :: s.inbox }

/-- How many bytes of MEM an entry placed for the reader is given: more than any entry takes whose
bytes after byte0 are zeros. -/
def entryRoom (s : State) : Nat := min 32 s.cfg.memSize

/-- The state with an entry's bytes placed from position 0 up, the reader set over them as PARSE sets
it, and a NEXT presented (log 10). -/
def presentEntry (w : Nat) (s : State) : State :=
  presentCommand (encode .next)
    { s with mem := s.mem.writeBytes 0 (leBytes (entryRoom s) w), r := openRegion 0 (entryRoom s) s.r }

/-- The state in which the next step runs the instruction of a table word. -/
def placeWord (nbits w : Nat) (s : State) : State :=
  match decode (wordBytes nbits w) with
  | .ok _ => presentCommand (wordBytes nbits w) s
  | .error _ =>
    match decodeEntry ((wordBytes nbits w).getD 0 0) with
    | some _ => presentEntry (w % 2 ^ nbits) s
    | none => presentCommand (wordBytes nbits w) s

end Sys2Proof.Machine
end

