-- ==== Sys2Proof/Machine/Step.lean ====
section
/-! DEFINITION. One step: the host's next move, taken to completion (00_scope.md R3, R4). -/

namespace Sys2Proof.Machine

/-- One step. With no move of the host the engine is idle and keeps all of its state (60_exceptions.md
R254); a presented command is decoded and executed; the host's other moves are between commands. -/
def step (s : State) : Host.Outcome State Fault Refusal :=
  match s.inbox with
  | [] => .next s
  | .access a :: rest => hostAccess a (s.withInbox rest)
  | .command bs :: rest =>
    match decode bs with
    | .ok i => exec i (s.withInbox rest)
    | .error e => noInstruction e (s.withInbox rest)

/-- The state with the instruction of a table word where the next step takes it (log 9, log 10). -/
def State.withFetchWord (s : State) (nbits w : Nat) : State := placeWord nbits w s

end Sys2Proof.Machine
end

