-- ==== Sys2Proof/Machine/Patch.lean ====
section
/-! DEFINITION. Reserve-then-patch: the procedure by which the document's Encoder arrives at the
bytes of the text forms (43_serializer.md R162, R173 to R175). The commands do not run it (R166 lets
a model define them by R163 to R165 alone; log 17); it stands here so that the two can be proved
equal. -/

namespace Sys2Proof.Machine

/-- The fast path of the transcoder: rows 1 to 3 of R160, none as soon as a surrogate is met
(43_serializer.md R162). -/
def fastTranscode : List CodeUnit → Option (List Byte)
  | [] => some []
  | u :: us =>
    if isHigh u || isLow u then none
    else
      match fastTranscode us with
      | some bs => some (utf8Unit u ++ bs)
      | none => none

/-- The transcoder: the fast path, or the conversion restarted from the start of the string
(43_serializer.md R162). -/
def transcode (us : List CodeUnit) : List Byte :=
  match fastTranscode us with
  | some bs => bs
  | none => utf8 us

/-- Whether a length prefix must move the text (43_serializer.md R175): a function of the estimated
and the actual length only. -/
def retranscode (estimate actual : Nat) : Bool :=
  decide ((uleb estimate).length ≠ (uleb actual).length)

/-- One step of a procedure that can end early. -/
def andThen {α β : Type} (m : Except Stop α) (k : α → Except Stop β) : Except Stop β :=
  match m with
  | .ok x => k x
  | .error e => .error e

/-- `MEM[a] <- b` in place, W left. -/
def poke (a : Nat) (b : Byte) (s : State) : State := { s with mem := s.mem.insert a b }

/-- W.POS set. -/
def moveW (p : Nat) (s : State) : State := { s with w := { s.w with pos := p } }

/-- The `m` bytes from `a` up moved one position up, the highest first (43_serializer.md R173). -/
def shiftUp (a : Nat) : (m : Nat) → State → State
  | 0, s => s
  | m + 1, s => shiftUp a m (poke (a + m + 1) (s.byteAt (a + m)) s)

/-- A short tag (43_serializer.md R173). The shift needs room for one more byte. -/
def patchShortTag (ty : EntryType) (us : List CodeUnit) (s : State) : Except Stop State :=
  let p0 := s.w.pos
  andThen (wr8 s (headerByte false ty 0)) fun s1 =>
  andThen (wrbytes s1 (transcode us)) fun s2 =>
    let m := (transcode us).length
    if m < 8 then .ok (poke p0 (headerByte false ty m) s2)
    else if s2.w.limit < p0 + 2 + m then .error (.raised .bufferTooSmall)
    else .ok (moveW (p0 + 2 + m)
      (poke p0 (headerByte false ty 0) (poke (p0 + 1) (BitVec.ofNat 8 m) (shiftUp (p0 + 1) m s2))))

/-- A counted text: provisional length, text, and the length patched (43_serializer.md R174, R175). -/
def patchCounted (us : List CodeUnit) (s : State) : Except Stop State :=
  let n := us.length
  let m := (transcode us).length
  let pv := s.w.pos
  andThen (wrbytes s (uleb n)) fun s1 =>
    let pt := s1.w.pos
    andThen (wrbytes s1 (transcode us)) fun s2 =>
      if m = n then .ok s2
      else
        andThen (wrbytes (moveW pv s2) (uleb m)) fun s3 =>
          if retranscode n m then wrbytes s3 (transcode us) else .ok (moveW (pt + m) s3)

/-- A long tag (43_serializer.md R174). -/
def patchLongTag (ty : EntryType) (us : List CodeUnit) (s : State) : Except Stop State :=
  andThen (wr8 s (headerByte false ty 0)) (patchCounted us)

/-- The tag of an entry, by character count (43_serializer.md R173, R174). -/
def patchTag (ty : EntryType) (us : List CodeUnit) (s : State) : Except Stop State :=
  if us.length < 8 then patchShortTag ty us s else patchLongTag ty us s

/-- A text-form scalar entry of type String by the procedure (43_serializer.md R173 to R175). -/
def patchStringScalar (tag value : List CodeUnit) (s : State) : Except Stop State :=
  andThen (patchTag .string tag s) (patchCounted value)

/-- A text-form array header by the procedure: the tag, then the first byte rewritten with the array
bit set, then the count (43_serializer.md R157, R174). -/
def patchArray (ty : EntryType) (tag : List CodeUnit) (count : Nat) (s : State) : Except Stop State :=
  let p0 := s.w.pos
  andThen (patchTag ty tag s) fun s1 =>
    wrbytes (poke p0 (s1.byteAt p0 ||| 0x80) s1) (uleb count)

end Sys2Proof.Machine
end

