-- ==== Sys2Proof/Safety.lean ====
section
/-! DEFINITION. What a sane state is (the invariant every step keeps), what a legal move of the host
is, and the words the statements use. -/

namespace Sys2Proof.Machine

/-! ## The invariant -/

/-- A cursor's registers (10_state.md R21, R22, R24; the bounds on an unspecified POS are those of
60_exceptions.md R247): AW bits each, in order once initialised, no fault before initialisation. -/
abbrev CursorSane (cfg : Config) (c : Cursor) : Prop :=
  (c.start < 2 ^ cfg.aw ∧ c.pos < 2 ^ cfg.aw ∧ c.limit < 2 ^ cfg.aw ∧ c.errPos < 2 ^ cfg.aw) ∧
  (c.init = true → c.start ≤ c.pos ∧ c.pos ≤ c.limit ∧ c.limit ≤ cfg.memSize) ∧
  (c.init = false → c.errKind = 0) ∧
  (c.errKind ≠ 0 → c.start ≤ c.low ∧ c.low ≤ c.pos)

/-- The writer's error record: no fault, or BufferTooSmall, which has no cause (10_state.md R24,
60_exceptions.md R242). -/
abbrev WriterRecord (c : Cursor) : Prop := (c.errKind = 0 ∨ c.errKind = 2) ∧ c.errCause = 0

/-- The reader's error record: no fault, or a FormatError with a cause of 60_exceptions.md R241 and a
position of the region. -/
abbrev ReaderRecord (c : Cursor) : Prop :=
  (c.errKind = 0 ∧ c.errCause = 0) ∨
  (c.errKind = 1 ∧ 1 ≤ c.errCause.toNat ∧ c.errCause.toNat ≤ 6 ∧ c.start ≤ c.errPos ∧ c.errPos ≤ c.limit)

/-- The element table fits the type and the count (10_state.md R31, 44_reader.md R202, R203). -/
def TableSane (cfg : Config) (v : View) : Prop :=
  match typeOfCode v.type.toNat with
  | some .string | some .binary =>
    v.elems.length = v.count.toNat ∧
      ∀ e ∈ v.elems, ∃ off len, e = .span off len ∧ v.dataOff ≤ off ∧ off + len ≤ cfg.memSize
  | some .varint => v.elems.length = v.count.toNat ∧ ∀ e ∈ v.elems, ∃ x, e = .val x
  | some ty => v.elems = [] ∧ v.dataOff + v.count.toNat * typeWidth ty ≤ cfg.memSize
  | none => False

/-- A slot (10_state.md R30, 44_reader.md R202). -/
def ViewSane (cfg : Config) (v : View) : Prop :=
  (v.tagOff < 2 ^ cfg.aw ∧ v.tagLen < 2 ^ cfg.aw ∧ v.dataOff < 2 ^ cfg.aw) ∧
  (v.valid = false → v.reuse = false) ∧
  (v.valid = true →
    (v.array = false → v.count = 1) ∧ 1 ≤ v.tagLen ∧ v.tagOff + v.tagLen ≤ v.dataOff ∧
    v.dataOff ≤ cfg.memSize ∧ TableSane cfg v)

/-- MEM is canonical and lists only positions that exist (10_state.md R20). -/
abbrev MemSane (cfg : Config) (m : Memory) : Prop := m.wf ∧ ∀ c ∈ m, c.1 < cfg.memSize

/-- The invariant: the ranges of the parameters, MEM, both cursors and their records, the codes of
STATUS and REASON (10_state.md R26, R27), the slots and CV. -/
structure Inv (s : State) : Prop where
  cfg    : s.cfg.Valid
  mem    : MemSane s.cfg s.mem
  w      : CursorSane s.cfg s.w
  wErr   : WriterRecord s.w
  r      : CursorSane s.cfg s.r
  rErr   : ReaderRecord s.r
  status : s.status.toNat ≤ 6
  reason : s.reason.toNat ≤ 9 ∧ (s.reason = 0 ↔ s.status ≠ 6)
  slots  : s.views.length = s.cfg.nview
  views  : ∀ v ∈ s.views, ViewSane s.cfg v
  cv     : s.cvValid = true → s.cvSlot.toNat < s.cfg.nview

/-! ## Legal moves of the host -/

/-- A move the spec gives the host: bytes of the length a descriptor states, or an access inside MEM
(30_encoding.md R81, 20_memory.md R62). -/
def LegalMove (cfg : Config) : HostMove → Prop
  | .command bs => 32 ≤ bs.length ∧ bs.length = 32 + leNat (slice bs 4 4) + leNat (slice bs 8 4)
  | .access (.writeMem addr bytes) => addr + bytes.length ≤ cfg.memSize
  | .access (.readMem addr) => addr < cfg.memSize
  | .access (.readReg _) => True
  | .access .reset => True

/-! ## Words of the statements -/

/-- W takes a data command: initialised, nothing pending (30_encoding.md R85). -/
abbrev WriterReady (s : State) : Prop := s.w.init = true ∧ s.w.errKind = 0

/-- R takes a data command: initialised, nothing pending (30_encoding.md R85). -/
abbrev ReaderReady (s : State) : Prop := s.r.init = true ∧ s.r.errKind = 0

/-- The writer's region lies in MEM and W.POS in it (10_state.md R22). -/
abbrev WriterPlaced (s : State) : Prop := s.w.pos ≤ s.w.limit ∧ s.w.limit ≤ s.cfg.memSize

/-- The reader's region lies in MEM and R.POS in it (10_state.md R22). -/
abbrev ReaderPlaced (s : State) : Prop :=
  s.r.start ≤ s.r.pos ∧ s.r.pos ≤ s.r.limit ∧ s.r.limit ≤ s.cfg.memSize

/-- A rejected command leaves everything but STATUS and REASON (30_encoding.md R85). -/
def rejected (s : State) (why : BitVec 8) : State := { s with status := 6, reason := why }

/-- `t` is `s` with the bytes `bs` appended at W.POS by a command that completed: nothing else has
changed, and no byte of MEM outside them. -/
def Appends (s t : State) (bs : List Byte) : Prop :=
  t = { s with mem := t.mem, w := { s.w with pos := s.w.pos + bs.length }, status := 0, reason := 0 } ∧
  t.bytesAt s.w.pos bs.length = bs ∧
  ∀ a, a < s.w.pos ∨ s.w.pos + bs.length ≤ a → t.byteAt a = s.byteAt a

/-- `t` is `s` after BufferTooSmall (60_exceptions.md R247): W.POS, x[0], x[1], W.ERR.POS and the bytes
from the old W.POS up to W.LIMIT are left open, within the bounds of the rule; nothing else has
changed but the record, STATUS and REASON. -/
def Overran (s t : State) : Prop :=
  t = { s with
    mem := t.mem
    w := { s.w with pos := t.w.pos, errKind := 2, errCause := 0, errPos := t.w.errPos, low := s.w.pos }
    status := 3, reason := 0, x0 := t.x0, x1 := t.x1, x0Known := false, x1Known := false
    draws := t.draws } ∧
  s.w.pos ≤ t.w.pos ∧ t.w.pos ≤ s.w.limit ∧
  ∀ a, a < s.w.pos ∨ s.w.limit ≤ a → t.byteAt a = s.byteAt a

/-- `t` is `s` after a FormatError of a given cause and position (60_exceptions.md R247): R.POS, x[0],
x[1] are left open, within the bounds of the rule; of the slots only the one NEXT was filling has
changed, and it is invalid; nothing else has changed but the record, STATUS and REASON. -/
def Malformed (s t : State) (cause : BitVec 3) (pos : Nat) (slot : Option Nat) : Prop :=
  t = { s with
    r := { s.r with pos := t.r.pos, errKind := 1, errCause := cause, errPos := pos, low := s.r.start }
    status := 2, reason := 0, x0 := t.x0, x1 := t.x1, x0Known := false, x1Known := false
    views := t.views, draws := t.draws } ∧
  s.r.start ≤ t.r.pos ∧ t.r.pos ≤ s.r.limit ∧
  t.views.length = s.views.length ∧
  (∀ j, slot ≠ some j → t.viewAt j = s.viewAt j) ∧
  ∀ k, slot = some k → (t.viewAt k).valid = false ∧ (t.viewAt k).reuse = false

/-- What a writing command answers that hands the bytes `bs` to `wrbytes`, in every case
(30_encoding.md R85, 20_memory.md R59, 60_exceptions.md R247). -/
def WritesOrFaults (s : State) (bs : List Byte) (r : Result) : Prop :=
  (s.w.init = false → r = .next (rejected s 2)) ∧
  (s.w.init = true → s.w.errKind ≠ 0 → r = .next (rejected s 3)) ∧
  (WriterReady s → s.w.limit < s.w.pos + bs.length → ∃ t, r = .next t ∧ Overran s t) ∧
  (WriterReady s → s.w.pos + bs.length ≤ s.w.limit → ∃ t, r = .next t ∧ Appends s t bs)

/-- The state after a reading command that delivers `v` to x[0] and consumes `n` bytes. -/
def delivered (s : State) (v : Word) (n : Nat) : State :=
  { s with r := { s.r with pos := s.r.pos + n }, x0 := v, x0Known := true, status := 0, reason := 0 }

/-- The state after a view command that delivers `v` to x[0]. -/
def answered (s : State) (v : Word) : State :=
  { s with x0 := v, x0Known := true, status := 0, reason := 0 }

/-- The state after a view command that delivers `v` to x[0] and `u` to x[1]. -/
def answered2 (s : State) (v u : Word) : State :=
  { s with x0 := v, x1 := u, x0Known := true, x1Known := true, status := 0, reason := 0 }

/-- The slot `vs` names exists and holds the valid view `v` (30_encoding.md R85). -/
abbrev Holds (s : State) (vs : Byte) (v : View) : Prop :=
  vs.toNat < s.cfg.nview ∧ s.viewAt vs.toNat = v ∧ v.valid = true

/-! ## Varints and entries as bytes, without a cursor -/

/-- The 7-bit groups of a byte sequence put together, the lowest group first. -/
def groups : List Byte → Nat
  | [] => 0
  | b :: bs => b.toNat % 128 + 128 * groups bs

/-- One to ten bytes of which all but the last have the continuation bit (41_varint.md R110). -/
abbrev VarintShape (bs : List Byte) : Prop :=
  bs ≠ [] ∧ bs.length ≤ 10 ∧ (∀ b ∈ bs.dropLast, 128 ≤ b.toNat) ∧ (bs.getLastD 0).toNat < 128

/-- `bs` is an unsigned varint the engine accepts, of value `v` (41_varint.md R112, R114, R121). -/
abbrev IsUnsigned (bs : List Byte) (v : Nat) : Prop :=
  VarintShape bs ∧ (bs.length = 10 → (bs.getLastD 0).toNat ≤ 1) ∧ v = groups bs

/-- `bs` is a signed varint the engine accepts, of value `v` (41_varint.md R113, R114, R121). -/
abbrev IsSigned (bs : List Byte) (v : Int) : Prop :=
  VarintShape bs ∧ (bs.length = 10 → bs.getLastD 0 = 0x00 ∨ bs.getLastD 0 = 0x7F) ∧
  v = (groups bs : Int) - (if 64 ≤ (bs.getLastD 0).toNat then 2 ^ (7 * bs.length) else 0)

/-- The bytes between byte0 and the payload (30_encoding.md R70, R73, R74): the tag length if it is
not inline, the tag, the count if the entry is an array. -/
abbrev HeadBytes (arr : Bool) (il : BitVec 3) (lenBytes tag cntBytes : List Byte) (cnt : Nat) : Prop :=
  1 ≤ tag.length ∧
  (if il = 0 then IsUnsigned lenBytes tag.length else lenBytes = [] ∧ tag.length = il.toNat) ∧
  (if arr then IsUnsigned cntBytes cnt else cntBytes = [] ∧ cnt = 1)

/-- The instruction of an entry form. -/
def entryInstr : Bool → EntryType → BitVec 3 → Instr
  | false, .null => .entryNull
  | false, .string => .entryString
  | false, .binary => .entryBinary
  | false, .int8 => .entryInt8
  | false, .int16 => .entryInt16
  | false, .int32 => .entryInt32
  | false, .int64 => .entryInt64
  | false, .double => .entryDouble
  | false, .datetime => .entryDatetime
  | false, .varint => .entryVarint
  | true, .null => .entryNullArr
  | true, .string => .entryStringArr
  | true, .binary => .entryBinaryArr
  | true, .int8 => .entryInt8Arr
  | true, .int16 => .entryInt16Arr
  | true, .int32 => .entryInt32Arr
  | true, .int64 => .entryInt64Arr
  | true, .double => .entryDoubleArr
  | true, .datetime => .entryDatetimeArr
  | true, .varint => .entryVarintArr

/-- The units a command belongs to (30_encoding.md R80, column "unit"). -/
inductive EngineUnit where
  | writer | reader | view
deriving DecidableEq, Repr

/-- The unit of an instruction (30_encoding.md R80); an entry form is the reader's, as NEXT is (log 8). -/
def unitOf : Instr → EngineUnit
  | .winit _ _ | .wrewind | .wrem | .vputu _ | .vputs _ | .put8 _ | .put16 _ | .put32 _ | .put64 _
  | .putd _ | .escalar _ _ _ _ | .earray _ _ _ | .eelem _ _ _ | .escalart _ _ _ _ | .earrayt _ _ _
  | .eelemt _ _ => .writer
  | .parse _ _ | .rrewind | .rrem | .vgetu | .vgets | .get8 | .get16 | .get32 | .get64 | .getd
  | .next => .reader
  | .mark _ | .vinfo _ | .vtag _ | .vi8 _ _ | .vi16 _ _ | .vi32 _ _ | .vi64 _ _ | .vdt _ _
  | .vdbl _ _ | .vstr _ _ | .vbin _ _ | .vvar _ _ | .vlong _ _ => .view
  | .entryNull _ | .entryString _ | .entryBinary _ | .entryInt8 _ | .entryInt16 _ | .entryInt32 _
  | .entryInt64 _ | .entryDouble _ | .entryDatetime _ | .entryVarint _ | .entryNullArr _
  | .entryStringArr _ | .entryBinaryArr _ | .entryInt8Arr _ | .entryInt16Arr _ | .entryInt32Arr _
  | .entryInt64Arr _ | .entryDoubleArr _ | .entryDatetimeArr _ | .entryVarintArr _ => .reader

/-- The instructions that read an entry: NEXT and the entry forms. -/
def ReadsEntry (i : Instr) : Prop := i = .next ∨ ∃ arr ty il, i = entryInstr arr ty il

/-- An instruction that takes the entry at R.POS as one of a given form: the entry form itself, or NEXT
where byte0 at R.POS is that form's (30_encoding.md R71, 44_reader.md R193). -/
def TakesForm (s : State) (arr : Bool) (ty : EntryType) (il : BitVec 3) (i : Instr) : Prop :=
  i = entryInstr arr ty il ∨ (i = .next ∧ s.byteAt s.r.pos = packByte0 arr (typeCode ty) il)

/-- The records of String or Binary elements given as (length varint, body) pairs, the first length
varint at position `off` (44_reader.md R199). -/
def spansFrom (off : Nat) : List (List Byte × List Byte) → List Elem
  | [] => []
  | (lb, body) :: rest =>
    .span (off + lb.length) body.length :: spansFrom (off + lb.length + body.length) rest

/-- The state after a NEXT that has decoded an entry (44_reader.md R202): view `v` in the chosen slot,
R.POS at `pos`. -/
def entryTaken (s : State) (v : View) (pos : Nat) : State :=
  let k := chooseSlot s
  { s with r := { s.r with pos := pos }, views := s.views.set k v, cvValid := true,
           cvSlot := BitVec.ofNat 8 k, x0 := BitVec.ofNat 64 k, x0Known := true,
           status := 0, reason := 0 }

/-- The view of an entry whose byte0 stands at `e0` (44_reader.md R190, R202). -/
def entryView (arr : Bool) (ty : EntryType) (lenBytes tag cntBytes : List Byte) (cnt e0 : Nat)
    (es : List Elem) : View :=
  { valid := true, reuse := false, type := BitVec.ofNat 4 (typeCode ty), array := arr,
    count := BitVec.ofNat 64 cnt, tagOff := e0 + 1 + lenBytes.length, tagLen := tag.length,
    dataOff := e0 + 1 + lenBytes.length + tag.length + cntBytes.length, elems := es }

/-! ## Outcomes, said once -/

/-- A reading command is refused where its cursor is not set up or has a fault pending
(30_encoding.md R85). -/
def ReaderRefuses (s : State) (r : Result) : Prop :=
  (s.r.init = false → r = .next (rejected s 2)) ∧
  (s.r.init = true → s.r.errKind ≠ 0 → r = .next (rejected s 3))

/-- A writing command whose operand check fails with REASON `why`: the tests of the cursor come first
(30_encoding.md R85). -/
def RejectsFor (s : State) (why : BitVec 8) (r : Result) : Prop :=
  (s.w.init = false → r = .next (rejected s 2)) ∧
  (s.w.init = true → s.w.errKind ≠ 0 → r = .next (rejected s 3)) ∧
  (WriterReady s → r = .next (rejected s why))

/-- A view command is refused where the slot does not exist or holds no valid view (30_encoding.md
R85). -/
def ViewRefuses (s : State) (vs : Byte) (r : Result) : Prop :=
  (s.cfg.nview ≤ vs.toNat → r = .next (rejected s 7)) ∧
  (vs.toNat < s.cfg.nview → (s.viewAt vs.toNat).valid = false → r = .next (rejected s 8))

/-- Two writing commands answer alike from `s`: the same next state, or BufferTooSmall in both, of which
what R247 leaves open need not be the same. -/
def WritesAlike (s : State) (r r' : Result) : Prop :=
  ∃ t t', r = .next t ∧ r' = .next t' ∧ (t.status ≠ 3 → t' = t) ∧
    (t.status = 3 → Overran s t ∧ Overran s t')

/-- A command ends in a FormatError of a given cause and position. -/
def RaisesFormat (s : State) (r : Result) (cause : BitVec 3) (pos : Nat) (slot : Option Nat) : Prop :=
  ∃ t, r = .next t ∧ Malformed s t cause pos slot

/-- `t` is `s` after a completed command that leaves x[0] unspecified (45_view.md R231). -/
def looseAnswer (s : State) (v : Word) : State :=
  { s with x0 := v, x0Known := false, status := 0, reason := 0, draws := s.draws + 1 }

/-- `s` after a command that leaves x[0] and x[1] unspecified and ends with STATUS `st` (45_view.md
R231, 60_exceptions.md R248). -/
def looseAnswer2 (s : State) (st : BitVec 8) (v u : Word) : State :=
  { s with x0 := v, x1 := u, x0Known := false, x1Known := false, status := st, reason := 0,
           draws := s.draws + 1 }

/-- A cursor after its set-up command (40_cursor.md R101, R104). -/
def setUp (c : Cursor) (off len : Nat) : Cursor :=
  { c with start := off, pos := off, limit := off + len, init := true, errKind := 0, errCause := 0 }

/-- A cursor after its rewind command (40_cursor.md R102, R105). -/
def backAtStart (c : Cursor) : Cursor := { c with pos := c.start, errKind := 0, errCause := 0 }

/-- The signed reading of an `n`-byte pattern, `sext_8n` (00_scope.md R8). -/
def signedReading (n u : Nat) : Int := if 2 ^ (8 * n - 1) ≤ u then (u : Int) - 2 ^ (8 * n) else u

/-- The low `n` bytes of an operand, low byte first (42_fixed.md R130). -/
def operandBytes (n : Nat) (a : Word) : List Byte := (List.range n).map fun i => a.extractLsb' (8 * i) 8

/-- The opcodes 30_encoding.md R84 lists as unassigned. -/
abbrev Unassigned (op : Nat) : Prop :=
  op ≤ 0x0F ∨ (0x13 ≤ op ∧ op ≤ 0x17) ∨ (0x1B ≤ op ∧ op ≤ 0x1F) ∨ (0x22 ≤ op ∧ op ≤ 0x27) ∨
  (0x2A ≤ op ∧ op ≤ 0x2F) ∨ (0x35 ≤ op ∧ op ≤ 0x37) ∨ (0x3D ≤ op ∧ op ≤ 0x3F) ∨ op = 0x43 ∨
  (0x47 ≤ op ∧ op ≤ 0x4F) ∨ (0x54 ≤ op ∧ op ≤ 0x57) ∨ 0x62 ≤ op

/-- Two commands of one opcode agree in the descriptor fields the opcode uses (column "uses" of
30_encoding.md R80). -/
abbrev SameUsedFields (c c' : Command) : Prop :=
  c.op = c'.op ∧
  (c.op.toNat ∈ [0x40, 0x41, 0x42, 0x44, 0x45, 0x46] → c.ty = c'.ty) ∧
  (0x51 ≤ c.op.toNat → c.vs = c'.vs) ∧
  (c.op.toNat ∈ [0x10, 0x18, 0x20, 0x21, 0x30, 0x31, 0x32, 0x33, 0x34, 0x40, 0x41, 0x42, 0x44, 0x45] ∨
    0x58 ≤ c.op.toNat → c.a = c'.a) ∧
  (c.op.toNat ∈ [0x10, 0x18] → c.b = c'.b) ∧
  (c.op.toNat ∈ [0x40, 0x41, 0x44, 0x45] → c.t = c'.t) ∧
  (c.op.toNat ∈ [0x40, 0x42, 0x44, 0x46] → c.d = c'.d)

/-- The command of opcode `op` is the instruction `f` makes of its descriptor fields: the line
"Encoding" of a command's rule. -/
abbrev Encodes (op : Byte) (f : Command → Instr) : Prop :=
  ∀ c : Command, c.op = op → decodeCommand c = .ok (f c)

/-! ## The bytes of the reader's region -/

/-- The reader's region has the bytes `bs` from position `p` on. -/
abbrev ReadsAt (s : State) (p : Nat) (bs : List Byte) : Prop :=
  p + bs.length ≤ s.r.limit ∧ s.bytesAt p bs.length = bs

/-- The region ends inside the varint that starts at `p` (41_varint.md R112). -/
abbrev VarintCut (s : State) (p : Nat) : Prop :=
  p ≤ s.r.limit ∧ s.r.limit < p + 10 ∧ ∀ x, x < s.r.limit → p ≤ x → 128 ≤ (s.byteAt x).toNat

/-- The varint that starts at `p` has nine bytes with the continuation bit and a tenth in the region. -/
abbrev NineGroups (s : State) (p : Nat) : Prop :=
  p + 10 ≤ s.r.limit ∧ ∀ x, x < p + 9 → p ≤ x → 128 ≤ (s.byteAt x).toNat

/-- An unsigned varint at `p` whose tenth byte R114 turns away (41_varint.md R114). -/
abbrev UnsignedTooWide (s : State) (p : Nat) : Prop := NineGroups s p ∧ 2 ≤ (s.byteAt (p + 9)).toNat

/-- A signed varint at `p` whose tenth byte R114 turns away (41_varint.md R114). -/
abbrev SignedTooWide (s : State) (p : Nat) : Prop :=
  NineGroups s p ∧ s.byteAt (p + 9) ≠ 0x00 ∧ s.byteAt (p + 9) ≠ 0x7F

/-- An unsigned varint read at `p` raises (41_varint.md R112, R114). -/
def UnsignedRaises (s : State) (p : Nat) (r : Result) (slot : Option Nat) : Prop :=
  (VarintCut s p → RaisesFormat s r 1 s.r.limit slot) ∧
  (UnsignedTooWide s p → RaisesFormat s r 6 (p + 9) slot)

/-- A signed varint read at `p` raises (41_varint.md R113, R114). -/
def SignedRaises (s : State) (p : Nat) (r : Result) (slot : Option Nat) : Prop :=
  (VarintCut s p → RaisesFormat s r 1 s.r.limit slot) ∧
  (SignedTooWide s p → RaisesFormat s r 6 (p + 9) slot)

/-! ## Texts -/

/-- The bytes of code units, low byte first (43_serializer.md R159). -/
def unitBytes : List CodeUnit → List Byte
  | [] => []
  | u :: us => u.extractLsb' 0 8 :: u.extractLsb' 8 8 :: unitBytes us

/-- Surrogates are paired (43_serializer.md R159): every high one is followed at once by a low one,
and every low one follows a high one. -/
def Paired (us : List CodeUnit) : Prop :=
  ∀ k u, us[k]? = some u →
    (0xD800 ≤ u.toNat ∧ u.toNat ≤ 0xDBFF →
      ∃ v, us[k + 1]? = some v ∧ 0xDC00 ≤ v.toNat ∧ v.toNat ≤ 0xDFFF) ∧
    (0xDC00 ≤ u.toNat ∧ u.toNat ≤ 0xDFFF →
      ∃ j v, k = j + 1 ∧ us[j]? = some v ∧ 0xD800 ≤ v.toNat ∧ v.toNat ≤ 0xDBFF)

/-! ## Documents -/

/-- Commands executed one after another, each answering a next state; none if one does not. -/
def execAll : List Instr → State → Option State
  | [], s => some s
  | i :: is, s =>
    match exec i s with
    | .next t => execAll is t
    | _ => none

/-- An entry of a document as the host has it (43_serializer.md R150): a scalar with its value in A or
D, or an array with the values of its elements. -/
inductive DocEntry where
  | scalar (ty : EntryType) (tag : List Byte) (a : Word) (d : List Byte)
  | array (ty : EntryType) (tag : List Byte) (els : List (Word × List Byte))
deriving DecidableEq, Repr

/-- The TY operand of a type. -/
def tyOperand (ty : EntryType) : Byte := BitVec.ofNat 8 (typeCode ty)

/-- The byte-form commands that write an entry (43_serializer.md R153 to R155, R158). -/
def DocEntry.commands : DocEntry → List Instr
  | .scalar ty tag a d => [.escalar (tyOperand ty) tag a d]
  | .array ty tag els =>
    .earray (tyOperand ty) tag (BitVec.ofNat 64 els.length) ::
      els.map fun e => .eelem (tyOperand ty) e.1 e.2

/-- The entry can be written: its tag is not empty, its operands fit a descriptor and its element count
an operand register. -/
def DocEntry.writable : DocEntry → Prop
  | .scalar _ tag _ d => tag ≠ [] ∧ tag.length < 2 ^ 32 ∧ d.length < 2 ^ 32
  | .array _ tag els =>
    tag ≠ [] ∧ tag.length < 2 ^ 32 ∧ els.length < 2 ^ 64 ∧ ∀ e ∈ els, e.2.length < 2 ^ 32

/-- The accessor of a type for element `i` of slot `vs`; Null has none. -/
def accessorOf (vs : Byte) (i : Nat) : EntryType → Option Instr
  | .null => none
  | .string => some (.vstr vs (BitVec.ofNat 64 i))
  | .binary => some (.vbin vs (BitVec.ofNat 64 i))
  | .int8 => some (.vi8 vs (BitVec.ofNat 64 i))
  | .int16 => some (.vi16 vs (BitVec.ofNat 64 i))
  | .int32 => some (.vi32 vs (BitVec.ofNat 64 i))
  | .int64 => some (.vi64 vs (BitVec.ofNat 64 i))
  | .double => some (.vdbl vs (BitVec.ofNat 64 i))
  | .datetime => some (.vdt vs (BitVec.ofNat 64 i))
  | .varint => some (.vvar vs (BitVec.ofNat 64 i))

/-- The accessor of element `i` gives the value back (43_serializer.md R177): the bytes D for a String
or Binary, `sext_N(A[N-1:0])` for a narrow integer, A itself otherwise. -/
def GivesBack (t : State) (vs : Byte) (ty : EntryType) (i : Nat) (a : Word) (d : List Byte) : Prop :=
  ∀ instr, accessorOf vs i ty = some instr →
    match ty with
    | .string | .binary =>
      ∃ off len, exec instr t = .next (answered2 t off len) ∧ t.bytesAt off.toNat len.toNat = d
    | .int8 => exec instr t = .next (answered t ((a.setWidth 8).signExtend 64))
    | .int16 => exec instr t = .next (answered t ((a.setWidth 16).signExtend 64))
    | .int32 => exec instr t = .next (answered t ((a.setWidth 32).signExtend 64))
    | _ => exec instr t = .next (answered t a)

/-- What a NEXT that decoded the entry leaves for the host: slot `vs` holds a view of the same type,
array flag, count and tag bytes, and the accessors give back every value (43_serializer.md R177). -/
def DocEntry.shownIn (t : State) (vs : Byte) : DocEntry → Prop
  | .scalar ty tag a d =>
    ∃ v, Holds t vs v ∧ v.type.toNat = typeCode ty ∧ v.array = false ∧ v.count = 1 ∧
      t.bytesAt v.tagOff v.tagLen = tag ∧ GivesBack t vs ty 0 a d
  | .array ty tag els =>
    ∃ v, Holds t vs v ∧ v.type.toNat = typeCode ty ∧ v.array = true ∧ v.count.toNat = els.length ∧
      t.bytesAt v.tagOff v.tagLen = tag ∧
      ∀ i a d, els[i]? = some (a, d) → GivesBack t vs ty i a d

/-- Successive NEXT commands give one view per entry, in order, and then END (43_serializer.md
R177). -/
def ReadsBack : List DocEntry → State → Prop
  | [], s => exec .next s = .next { s with status := 1, reason := 0 }
  | e :: es, s => ∃ t vs, exec .next s = .next t ∧ t.status = 0 ∧ t.x0 = BitVec.setWidth 64 vs ∧
      e.shownIn t vs ∧ ReadsBack es t

end Sys2Proof.Machine
end

