-- ==== Sys2Proof/Certificates/Slice0/Obligations.lean ====
section
/-! DEFINITION. The statements for the provers. A docstring names the rule of spec/ a statement
formalises, or says that it is the model's own and names the log entry. -/

open Sys2Proof Sys2Proof.Machine

/-! ## Reset, the invariant, steps -/

/-- 10_state.md R36: what reset leaves, for an engine of any parameters, at power-on and where the host
asks for reset. -/
def Obligations.ResetLeavesListedValues : Prop :=
  ∀ t : State,
    ((∃ c, t = State.resetOf c) ∨
      (∃ s rest, s.inbox = .access .reset :: rest ∧ step s = .next t)) →
    t.w.init = false ∧ t.r.init = false ∧ t.w.errKind = 0 ∧ t.r.errKind = 0 ∧
    t.w.errCause = 0 ∧ t.r.errCause = 0 ∧ t.status = 0 ∧ t.reason = 0 ∧ t.cvValid = false ∧
    ∀ k, (t.viewAt k).valid = false ∧ (t.viewAt k).reuse = false

/-- The model's invariant holds at reset, for an engine of any parameters in the ranges of 00_scope.md
R6; that the registers R36 leaves unspecified are zero there is the model's choice (log 4). -/
def Obligations.InvAtReset : Prop :=
  (∀ c : Config, c.Valid → Inv (State.resetOf c)) ∧ Inv State.reset

/-- Every step from a state of the invariant keeps it (10_state.md R22, R24, R26, R27, R30, R32;
44_reader.md R202, R203). -/
def Obligations.StepKeepsInv : Prop := ∀ s t : State, Inv s → step s = .next t → Inv t

/-- From a state of the invariant no instruction stops, and no step on a legal move of the host does
(00_scope.md R10: a command completes, faults or is rejected, and all three are next states). -/
def Obligations.EveryCommandAnswersNext : Prop :=
  ∀ s : State, Inv s →
    (∀ i, ∃ t, exec i s = .next t) ∧
    ((∀ m, s.inbox.head? = some m → LegalMove s.cfg m) → ∃ t, step s = .next t)

/-- A step runs the presented command: the instruction its descriptor decodes to, with the host's move
taken; with no move the engine is idle (60_exceptions.md R254). -/
def Obligations.StepRunsPresentedCommand : Prop :=
  (∀ (s : State) bs rest i, s.inbox = .command bs :: rest → decode bs = .ok i →
    step s = exec i { s with inbox := rest }) ∧
  (∀ s : State, s.inbox = [] → step s = .next s)

/-- The host's own moves on MEM (20_memory.md R62, R65; moves of the host: log 6): bytes it writes are the
bytes it and the engine read afterwards, every other byte of MEM stays, and nothing else of the engine
changes. A reset leaves no written byte and starts an epoch of MEM that no earlier state of the run had
(70_reset_and_hazards.md section 1; log 5). -/
def Obligations.HostAccessesAreStorage : Prop :=
  (∀ (s : State) addr bytes rest, s.inbox = .access (.writeMem addr bytes) :: rest →
    addr + bytes.length ≤ s.cfg.memSize →
    ∃ t, step s = .next t ∧ t = { s with mem := t.mem, inbox := rest } ∧
      t.bytesAt addr bytes.length = bytes ∧
      ∀ a, a < addr ∨ addr + bytes.length ≤ a → t.byteAt a = s.byteAt a) ∧
  (∀ (s : State) addr rest, s.inbox = .access (.readMem addr) :: rest → addr < s.cfg.memSize →
    step s = .next { s with inbox := rest, hostData := (s.byteAt addr).toNat }) ∧
  (∀ (s : State) rest, s.inbox = .access .reset :: rest →
    ∃ t, step s = .next t ∧ t.cfg = s.cfg ∧ t.inbox = rest ∧ t.hostData = s.hostData ∧
      s.memEpoch < t.memEpoch ∧ ∀ a, t.byteAt a = Config.powerOnByte t.memEpoch a)

/-- 10_state.md section 5: what the host's read of a listed register returns, for the registers whose
value a rule fixes; the read changes no register. That the value stands in `hostData` and the read draws a
free value is the model's (log 6, log 11). -/
def Obligations.RegisterMap : Prop :=
  ∀ (s : State) num rest, s.inbox = .access (.readReg num) :: rest →
    ∃ t, step s = .next t ∧ t = { s with inbox := rest, hostData := t.hostData, draws := s.draws + 1 } ∧
      (num = 0x000 → t.hostData = s.status.toNat) ∧
      (num = 0x001 → t.hostData = s.reason.toNat) ∧
      (num = 0x002 → s.x0Known = true → t.hostData = s.x0.toNat) ∧
      (num = 0x003 → s.x1Known = true → t.hostData = s.x1.toNat) ∧
      (num = 0x004 → s.cvValid = true → t.hostData = s.cvSlot.toNat + 256) ∧
      (num = 0x004 → s.cvValid = false → t.hostData < 256) ∧
      (∀ base c, (base, c) ∈ [(0x010, s.w), (0x020, s.r)] →
        (c.init = true →
          (num = base → t.hostData = c.start) ∧
          (num = base + 1 → c.errKind = 0 → t.hostData = c.pos) ∧
          (num = base + 2 → t.hostData = c.limit)) ∧
        (num = base + 3 → t.hostData = if c.init then 1 else 0) ∧
        (num = base + 4 → t.hostData = c.errKind.toNat + 16 * c.errCause.toNat) ∧
        (num = base + 5 → c.errKind = 1 → t.hostData = c.errPos)) ∧
      (∀ k, k < s.cfg.nview →
        (num = 0x100 + 16 * k → (s.viewAt k).valid = false → t.hostData % 2 = 0) ∧
        ((s.viewAt k).valid = true →
          (num = 0x100 + 16 * k → t.hostData = 1 + (if (s.viewAt k).reuse then 2 else 0) +
            (if (s.viewAt k).array then 4 else 0) + 16 * (s.viewAt k).type.toNat) ∧
          (num = 0x100 + 16 * k + 1 → t.hostData = (s.viewAt k).count.toNat) ∧
          (num = 0x100 + 16 * k + 2 → t.hostData = (s.viewAt k).tagOff) ∧
          (num = 0x100 + 16 * k + 3 → t.hostData = (s.viewAt k).tagLen) ∧
          (num = 0x100 + 16 * k + 4 → t.hostData = (s.viewAt k).dataOff)))

/-! ## Encodings -/

/-- 30_encoding.md R84: the listed opcodes are unassigned and rejected with BADOP, every other opcode is
a command. -/
def Obligations.UnassignedOpcodeIsRejected : Prop :=
  ∀ (s : State) bs rest, s.inbox = .command bs :: rest → LegalMove s.cfg (.command bs) →
    (Unassigned (bs.getD 0 0).toNat → step s = .next (rejected { s with inbox := rest } 1)) ∧
    (¬ Unassigned (bs.getD 0 0).toNat → ∃ i, decode bs = .ok i)

/-- 30_encoding.md section 'Part B': the fields a command does not use and the unused bytes 3 and 12 to 15
are ignored. -/
def Obligations.UnusedFieldsAreIgnored : Prop :=
  (∀ c c' : Command, SameUsedFields c c' → decodeCommand c = decodeCommand c') ∧
  (∀ (bs : List Byte) (b : Byte) (j : Nat), j ∈ [3, 12, 13, 14, 15] → decode (bs.set j b) = decode bs)

/-- The decoder reads back what the encoder writes, for every instruction a descriptor can carry and
every entry form (30_encoding.md R71, R80, R81). -/
def Obligations.DecodeOfEncode : Prop :=
  ∀ i : Instr, i.wellFormed = true →
    (i.toCommand.isSome = true → decode (encode i) = .ok i) ∧
    (i.toCommand = none → ∃ b0, encode i = [b0] ∧ decodeEntry b0 = some i)

/-- byte0 selects its entry form: no bit of it is dropped, and the type codes 10 to 15 are the only
unassigned ones (30_encoding.md R71, R77). -/
def Obligations.EntryByteSelectsItsForm : Prop :=
  ∀ b0 : Byte,
    (∀ i, decodeEntry b0 = some i → encode i = [b0]) ∧
    (decodeEntry b0 = none ↔ 0x50 ≤ (b0 &&& 0x78).toNat)

/-- Some words written out from 30_encoding.md R71, R80 and R81 decode to what they stand for. That 0x11
and 0x39, which are a byte0 as well, are read as WREWIND and GET16 is the model's choice: a word is tried
as a command first (log 9). -/
def Obligations.SampleWordsDecode : Prop :=
  decodeTableWord 8 0x11 = some .wrewind ∧
  decodeTableWord 256 (0x18 + 2 ^ 128 * 5 + 2 ^ 192 * 3) = some (.parse 5 3) ∧
  decodeTableWord 256 (0x20 + 2 ^ 128 * 300) = some (.vputu 300) ∧
  decodeTableWord 8 0x39 = some .get16 ∧
  decodeTableWord 272 (0x40 + 2 ^ 8 * 2 + 2 ^ 32 * 1 + 2 ^ 64 * 1 + 2 ^ 256 * 0xFF61) =
    some (.escalar 2 [0x61] 0 [0xFF]) ∧
  decodeTableWord 256 (0x5E + 2 ^ 16 * 1 + 2 ^ 128 * 7) = some (.vstr 1 7) ∧
  decodeTableWord 8 0x2B = some (.entryInt32 3) ∧
  decodeTableWord 8 0xCE = some (.entryVarintArr 6)

/-! ## The cursor commands -/

/-- 40_cursor.md R101: WINIT, in every state of W. -/
def Obligations.WinitSetsUpTheWriter : Prop :=
  Encodes 0x10 (fun c => .winit c.a c.b) ∧ ∀ (s : State) (a b : Word),
    (a.toNat + b.toNat ≤ s.cfg.memSize →
      exec (.winit a b) s = .next { s with w := setUp s.w a.toNat b.toNat, status := 0, reason := 0 }) ∧
    (s.cfg.memSize < a.toNat + b.toNat → exec (.winit a b) s = .next (rejected s 6))

/-- 40_cursor.md R104: PARSE, in every state of R. -/
def Obligations.ParseSetsUpTheReader : Prop :=
  Encodes 0x18 (fun c => .parse c.a c.b) ∧ ∀ (s : State) (a b : Word),
    (a.toNat + b.toNat ≤ s.cfg.memSize →
      exec (.parse a b) s = .next { s with r := setUp s.r a.toNat b.toNat, status := 0, reason := 0 }) ∧
    (s.cfg.memSize < a.toNat + b.toNat → exec (.parse a b) s = .next (rejected s 6))

/-- 40_cursor.md R102, R105: WREWIND and RREWIND, with or without a fault pending. -/
def Obligations.RewindReturnsToStart : Prop :=
  Encodes 0x11 (fun _ => .wrewind) ∧ Encodes 0x19 (fun _ => .rrewind) ∧ ∀ s : State,
    (s.w.init = true →
      exec .wrewind s = .next { s with w := backAtStart s.w, status := 0, reason := 0 }) ∧
    (s.w.init = false → exec .wrewind s = .next (rejected s 2)) ∧
    (s.r.init = true →
      exec .rrewind s = .next { s with r := backAtStart s.r, status := 0, reason := 0 }) ∧
    (s.r.init = false → exec .rrewind s = .next (rejected s 2))

/-- 40_cursor.md R103, R106: WREM and RREM, for every difference a result register can hold (a larger one
takes a region of 2^64 bytes; log 16); the result lies in MEM's size, and RREM's is 0 exactly when the
next NEXT gives END. -/
def Obligations.RemainingIsLimitMinusPosition : Prop :=
  Encodes 0x12 (fun _ => .wrem) ∧ Encodes 0x1A (fun _ => .rrem) ∧ ∀ s : State,
    (s.w.init = false → exec .wrem s = .next (rejected s 2)) ∧
    (s.w.init = true → s.w.errKind ≠ 0 → exec .wrem s = .next (rejected s 3)) ∧
    (WriterReady s → ∀ v : Word, s.w.pos + v.toNat = s.w.limit →
      exec .wrem s = .next (answered s v) ∧ (WriterPlaced s → v.toNat ≤ s.cfg.memSize)) ∧
    ReaderRefuses s (exec .rrem s) ∧
    (ReaderReady s → ∀ v : Word, s.r.pos + v.toNat = s.r.limit →
      exec .rrem s = .next (answered s v) ∧
      (ReaderPlaced s → (v = 0 ↔ ∃ t, exec .next (answered s v) = .next t ∧ t.status = 1)))

/-! ## The varint codec -/

/-- 41_varint.md R110, R111: the loops of the two encoders, one turn unrolled, for every value of the
operand, and that they write 1 to 10 bytes. -/
def Obligations.VarintEncodersFollowTheirLoops : Prop :=
  (∀ v : Nat, v < 2 ^ 64 →
    (uleb v = if v / 128 = 0 then [BitVec.ofNat 8 (v % 128)]
      else BitVec.ofNat 8 (v % 128 + 128) :: uleb (v / 128)) ∧
    1 ≤ (uleb v).length ∧ (uleb v).length ≤ 10) ∧
  (∀ v : Int, -2 ^ 63 ≤ v → v < 2 ^ 63 →
    (sleb v = if (v / 128 = 0 ∧ v % 128 < 64) ∨ (v / 128 = -1 ∧ 64 ≤ v % 128)
      then [BitVec.ofInt 8 (v % 128)]
      else BitVec.ofInt 8 (v % 128 + 128) :: sleb (v / 128)) ∧
    1 ≤ (sleb v).length ∧ (sleb v).length ≤ 10)

/-- What the unsigned encoder writes is a varint of its value, of the length 41_varint.md R119 gives,
and no varint of that value is shorter (the spec derives R119 and R120). -/
def Obligations.UlebIsShortest : Prop :=
  ∀ v : Nat, v < 2 ^ 64 →
    IsUnsigned (uleb v) v ∧
    v < 2 ^ (7 * (uleb v).length) ∧ ((uleb v).length = 1 ∨ 2 ^ (7 * ((uleb v).length - 1)) ≤ v) ∧
    ∀ bs, IsUnsigned bs v → (uleb v).length ≤ bs.length

/-- What the signed encoder writes is a varint of its value, of the length 41_varint.md R119 gives, and
no varint of that value is shorter (the spec derives R119 and R120). -/
def Obligations.SlebIsShortest : Prop :=
  ∀ v : Int, -2 ^ 63 ≤ v → v < 2 ^ 63 →
    IsSigned (sleb v) v ∧
    (-2 ^ (7 * (sleb v).length - 1) ≤ v ∧ v < 2 ^ (7 * (sleb v).length - 1)) ∧
    ((sleb v).length = 1 ∨ v < -2 ^ (7 * ((sleb v).length - 1) - 1) ∨
      2 ^ (7 * ((sleb v).length - 1) - 1) ≤ v) ∧
    ∀ bs, IsSigned bs v → (sleb v).length ≤ bs.length

/-- 41_varint.md R115: VPUTU. -/
def Obligations.VputuAppendsUleb : Prop :=
  Encodes 0x20 (fun c => .vputu c.a) ∧
  ∀ (s : State) (a : Word), WriterPlaced s → WritesOrFaults s (uleb a.toNat) (exec (.vputu a) s)

/-- 41_varint.md R116: VPUTS. -/
def Obligations.VputsAppendsSleb : Prop :=
  Encodes 0x21 (fun c => .vputs c.a) ∧
  ∀ (s : State) (a : Word), WriterPlaced s → WritesOrFaults s (sleb a.toInt) (exec (.vputs a) s)

/-- 41_varint.md R117: VGETU, for every varint R112 and R114 accept, and the two faults. -/
def Obligations.VgetuReadsUnsigned : Prop :=
  Encodes 0x28 (fun _ => .vgetu) ∧ ∀ s : State, ReaderPlaced s →
    ReaderRefuses s (exec .vgetu s) ∧
    (ReaderReady s →
      (∀ bs v, IsUnsigned bs v → ReadsAt s s.r.pos bs →
        exec .vgetu s = .next (delivered s (BitVec.ofNat 64 v) bs.length)) ∧
      UnsignedRaises s s.r.pos (exec .vgetu s) none)

/-- 41_varint.md R118: VGETS, for every varint R113 and R114 accept, and the two faults. -/
def Obligations.VgetsReadsSigned : Prop :=
  Encodes 0x29 (fun _ => .vgets) ∧ ∀ s : State, ReaderPlaced s →
    ReaderRefuses s (exec .vgets s) ∧
    (ReaderReady s →
      (∀ bs v, IsSigned bs v → ReadsAt s s.r.pos bs →
        exec .vgets s = .next (delivered s (BitVec.ofInt 64 v) bs.length)) ∧
      SignedRaises s s.r.pos (exec .vgets s) none)

/-- A varint written by VPUTU or VPUTS and read back by VGETU or VGETS is the operand, and the reader
consumes exactly its bytes (the spec derives 41_varint.md R120). -/
def Obligations.VarintRoundTrip : Prop :=
  ∀ (s : State) (off len a : Word), off.toNat + len.toNat ≤ s.cfg.memSize →
    ((uleb a.toNat).length ≤ len.toNat → ∃ t,
      execAll [.winit off len, .vputu a, .parse off len, .vgetu] s = some t ∧
      t.x0 = a ∧ t.status = 0 ∧ t.r.pos = t.w.pos) ∧
    ((sleb a.toInt).length ≤ len.toNat → ∃ t,
      execAll [.winit off len, .vputs a, .parse off len, .vgets] s = some t ∧
      t.x0 = a ∧ t.status = 0 ∧ t.r.pos = t.w.pos)

/-! ## The fixed-width codec -/

/-- 42_fixed.md R134 to R138: PUT8 to PUTD append the low bytes of A, lowest first. -/
def Obligations.PutAppendsLowBytes : Prop :=
  Encodes 0x30 (fun c => .put8 c.a) ∧ Encodes 0x31 (fun c => .put16 c.a) ∧
  Encodes 0x32 (fun c => .put32 c.a) ∧ Encodes 0x33 (fun c => .put64 c.a) ∧
  Encodes 0x34 (fun c => .putd c.a) ∧
  ∀ (s : State) (a : Word), WriterPlaced s →
    ∀ p ∈ [(Instr.put8 a, 1), (.put16 a, 2), (.put32 a, 4), (.put64 a, 8), (.putd a, 8)],
      WritesOrFaults s (operandBytes p.2 a) (exec p.1 s)

/-- 42_fixed.md R139 to R143: GET8 to GETD deliver the sign-extended little-endian pattern, or raise
TRUNC_FIXED at the first byte of the field. -/
def Obligations.GetDeliversSignExtended : Prop :=
  Encodes 0x38 (fun _ => .get8) ∧ Encodes 0x39 (fun _ => .get16) ∧ Encodes 0x3A (fun _ => .get32) ∧
  Encodes 0x3B (fun _ => .get64) ∧ Encodes 0x3C (fun _ => .getd) ∧
  ∀ s : State, ReaderPlaced s →
    ∀ p ∈ [(Instr.get8, 1), (.get16, 2), (.get32, 4), (.get64, 8), (.getd, 8)],
      ReaderRefuses s (exec p.1 s) ∧
      (ReaderReady s →
        (∀ bs, bs.length = p.2 → ReadsAt s s.r.pos bs →
          exec p.1 s = .next (delivered s (BitVec.ofInt 64 (signedReading p.2 (leNat bs))) p.2)) ∧
        (s.r.limit < s.r.pos + p.2 → RaisesFormat s (exec p.1 s) 2 s.r.pos none))

/-- A value written by PUT8 to PUTD and read back by GET8 to GETD is the sign extension of its low bits
(the spec derives 42_fixed.md R144). -/
def Obligations.FixedRoundTrip : Prop :=
  ∀ (s : State) (off len a : Word), off.toNat + len.toNat ≤ s.cfg.memSize →
    ∀ p ∈ [(Instr.put8 a, Instr.get8, 1, (a.setWidth 8).signExtend 64),
           (.put16 a, .get16, 2, (a.setWidth 16).signExtend 64),
           (.put32 a, .get32, 4, (a.setWidth 32).signExtend 64),
           (.put64 a, .get64, 8, a), (.putd a, .getd, 8, a)],
      p.2.2.1 ≤ len.toNat → ∃ t,
        execAll [.winit off len, p.1, .parse off len, p.2.1] s = some t ∧
        t.x0 = p.2.2.2 ∧ t.status = 0 ∧ t.r.pos = off.toNat + p.2.2.1

/-! ## The serializer -/

/-- 43_serializer.md R151, R152: the header bytes of an entry, and the bytes of one element type by
type. -/
def Obligations.HeaderAndElementBytes : Prop :=
  (∀ (arr : Bool) (ty : EntryType) (tag : List Byte),
    (tag.length ≤ 7 → ∃ b0 : Byte, hdr arr ty tag = b0 :: tag ∧
      b0.toNat = (if arr then 128 else 0) + typeCode ty * 8 + tag.length) ∧
    (8 ≤ tag.length → ∃ b0 : Byte, hdr arr ty tag = b0 :: (uleb tag.length ++ tag) ∧
      b0.toNat = (if arr then 128 else 0) + typeCode ty * 8)) ∧
  (∀ (a : Word) (d : List Byte),
    elemBytes .null a d = [] ∧
    elemBytes .string a d = uleb d.length ++ d ∧ elemBytes .binary a d = uleb d.length ++ d ∧
    elemBytes .int8 a d = operandBytes 1 a ∧ elemBytes .int16 a d = operandBytes 2 a ∧
    elemBytes .int32 a d = operandBytes 4 a ∧ elemBytes .int64 a d = operandBytes 8 a ∧
    elemBytes .double a d = operandBytes 8 a ∧ elemBytes .datetime a d = operandBytes 8 a ∧
    elemBytes .varint a d = sleb a.toInt)

/-- 43_serializer.md R153: ESCALAR. -/
def Obligations.EscalarWritesTheEntry : Prop :=
  Encodes 0x40 (fun c => .escalar c.ty c.t c.a c.d) ∧
  ∀ (s : State) (ty : Byte) (t : List Byte) (a : Word) (d : List Byte), WriterPlaced s →
    (9 < ty.toNat → RejectsFor s 4 (exec (.escalar ty t a d) s)) ∧
    (ty.toNat ≤ 9 → t = [] → RejectsFor s 5 (exec (.escalar ty t a d) s)) ∧
    (t ≠ [] → ∀ y, ty.toNat = typeCode y →
      WritesOrFaults s (hdr false y t ++ elemBytes y a d) (exec (.escalar ty t a d) s))

/-- 43_serializer.md R154: EARRAY. -/
def Obligations.EarrayWritesTheHeader : Prop :=
  Encodes 0x41 (fun c => .earray c.ty c.t c.a) ∧
  ∀ (s : State) (ty : Byte) (t : List Byte) (a : Word), WriterPlaced s →
    (9 < ty.toNat → RejectsFor s 4 (exec (.earray ty t a) s)) ∧
    (ty.toNat ≤ 9 → t = [] → RejectsFor s 5 (exec (.earray ty t a) s)) ∧
    (t ≠ [] → ∀ y, ty.toNat = typeCode y →
      WritesOrFaults s (hdr true y t ++ uleb a.toNat) (exec (.earray ty t a) s))

/-- 43_serializer.md R155: EELEM. -/
def Obligations.EelemWritesOneElement : Prop :=
  Encodes 0x42 (fun c => .eelem c.ty c.a c.d) ∧
  ∀ (s : State) (ty : Byte) (a : Word) (d : List Byte), WriterPlaced s →
    (9 < ty.toNat → RejectsFor s 4 (exec (.eelem ty a d) s)) ∧
    (∀ y, ty.toNat = typeCode y → WritesOrFaults s (elemBytes y a d) (exec (.eelem ty a d) s))

/-- An operand carries the text `us` exactly when it is the bytes of `us` and the surrogates of `us` are
paired; every other operand carries none (43_serializer.md section 3; the spec takes the surrogates from
general knowledge, log 18). -/
def Obligations.TextOperandsAreUtf16 : Prop :=
  ∀ (bs : List Byte) (us : List CodeUnit), textOf bs = some us ↔ bs = unitBytes us ∧ Paired us

/-- The four rows of the UTF-8 table of 43_serializer.md section 3, and that the code points follow one
another (the spec takes the bit layouts from general knowledge, log 18). -/
def Obligations.Utf8FollowsItsTable : Prop :=
  utf8 [] = [] ∧
  (∀ (u : CodeUnit) (us : List CodeUnit), isHigh u = false → isLow u = false →
    utf8 (u :: us) =
      (if u.toNat < 0x80 then [u.extractLsb' 0 8]
       else if u.toNat ≤ 0x7FF then
         [0xC0 + (u.extractLsb' 6 5).setWidth 8, 0x80 + (u.extractLsb' 0 6).setWidth 8]
       else [0xE0 + (u.extractLsb' 12 4).setWidth 8, 0x80 + (u.extractLsb' 6 6).setWidth 8,
             0x80 + (u.extractLsb' 0 6).setWidth 8]) ++ utf8 us) ∧
  (∀ (hi lo : CodeUnit) (us : List CodeUnit) (c : BitVec 21), isHigh hi = true → isLow lo = true →
    c.toNat = 0x10000 + (hi.toNat - 0xD800) * 0x400 + (lo.toNat - 0xDC00) →
    utf8 (hi :: lo :: us) =
      [0xF0 + (c.extractLsb' 18 3).setWidth 8, 0x80 + (c.extractLsb' 12 6).setWidth 8,
       0x80 + (c.extractLsb' 6 6).setWidth 8, 0x80 + (c.extractLsb' 0 6).setWidth 8] ++ utf8 us)

/-- The byte length of a text lies between its character count and three times it, and equals it only
for ASCII (the spec derives 43_serializer.md R161). -/
def Obligations.Utf8LengthBounds : Prop :=
  ∀ us : List CodeUnit, Paired us →
    us.length ≤ (utf8 us).length ∧ (utf8 us).length ≤ 3 * us.length ∧
    ((utf8 us).length = us.length ↔ ∀ u ∈ us, u.toNat < 0x80)

/-- ESCALART, with its checks in order (43_serializer.md section 3; what a text operand is, log 18). -/
def Obligations.EscalartWritesTheEntry : Prop :=
  Encodes 0x44 (fun c => .escalart c.ty c.t c.a c.d) ∧
  ∀ (s : State) (ty : Byte) (t : List Byte) (a : Word) (d : List Byte), WriterPlaced s →
    (9 < ty.toNat → RejectsFor s 4 (exec (.escalart ty t a d) s)) ∧
    (ty.toNat ≤ 9 → t.length < 2 → RejectsFor s 5 (exec (.escalart ty t a d) s)) ∧
    (ty.toNat ≤ 9 → 2 ≤ t.length → textOf t = none → RejectsFor s 9 (exec (.escalart ty t a d) s)) ∧
    (ty.toNat = 1 → 2 ≤ t.length → textOf d = none → RejectsFor s 9 (exec (.escalart ty t a d) s)) ∧
    (∀ tu, tu ≠ [] → textOf t = some tu →
      (∀ du, ty.toNat = 1 → textOf d = some du →
        WritesOrFaults s (hdr false .string (utf8 tu) ++ elemBytes .string a (utf8 du))
          (exec (.escalart ty t a d) s)) ∧
      (∀ y, y ≠ .string → ty.toNat = typeCode y →
        WritesOrFaults s (hdr false y (utf8 tu) ++ elemBytes y a d) (exec (.escalart ty t a d) s)))

/-- EARRAYT and EELEMT, with their checks in order (43_serializer.md section 3; what a text operand is,
log 18). -/
def Obligations.EarraytAndEelemtWrite : Prop :=
  Encodes 0x45 (fun c => .earrayt c.ty c.t c.a) ∧ Encodes 0x46 (fun c => .eelemt c.ty c.d) ∧
  ∀ (s : State) (ty : Byte) (t d : List Byte) (a : Word), WriterPlaced s →
    (9 < ty.toNat → RejectsFor s 4 (exec (.earrayt ty t a) s)) ∧
    (ty.toNat ≤ 9 → t.length < 2 → RejectsFor s 5 (exec (.earrayt ty t a) s)) ∧
    (ty.toNat ≤ 9 → 2 ≤ t.length → textOf t = none → RejectsFor s 9 (exec (.earrayt ty t a) s)) ∧
    (∀ tu y, tu ≠ [] → textOf t = some tu → ty.toNat = typeCode y →
      WritesOrFaults s (hdr true y (utf8 tu) ++ uleb a.toNat) (exec (.earrayt ty t a) s)) ∧
    (ty.toNat ≠ 1 → RejectsFor s 4 (exec (.eelemt ty d) s)) ∧
    (ty.toNat = 1 → textOf d = none → RejectsFor s 9 (exec (.eelemt ty d) s)) ∧
    (∀ du, ty.toNat = 1 → textOf d = some du →
      WritesOrFaults s (uleb (utf8 du).length ++ utf8 du) (exec (.eelemt ty d) s))

/-- A text-form command completes, is rejected or raises BufferTooSmall where the byte-form command does
on the transcoded operands, and where it does not raise, to the same next state (the spec derives
43_serializer.md R166). -/
def Obligations.TextFormsAreByteForms : Prop :=
  ∀ (s : State) (ty : Byte) (tu du : List CodeUnit) (a : Word) (d : List Byte),
    (WriterReady s → WriterPlaced s) → tu ≠ [] → Paired tu → Paired du →
    (ty.toNat ≠ 1 →
      WritesAlike s (exec (.escalart ty (unitBytes tu) a d) s) (exec (.escalar ty (utf8 tu) a d) s)) ∧
    WritesAlike s (exec (.escalart 1 (unitBytes tu) a (unitBytes du)) s)
      (exec (.escalar 1 (utf8 tu) a (utf8 du)) s) ∧
    WritesAlike s (exec (.earrayt ty (unitBytes tu) a) s) (exec (.earray ty (utf8 tu) a) s) ∧
    WritesAlike s (exec (.eelemt 1 (unitBytes du)) s) (exec (.eelem 1 a (utf8 du)) s)

/-- The reserve-then-patch procedure of 43_serializer.md R173 to R175 ends exactly as writing the final
bytes at once does: the same MEM, the same W.POS, and BufferTooSmall in the same cases (the spec derives
R166 and R176; log 17). -/
def Obligations.ReserveThenPatchWritesFinalBytes : Prop :=
  ∀ (s : State) (ty : EntryType) (tag value : List CodeUnit) (count : Nat),
    WriterPlaced s → s.mem.wf → tag ≠ [] → tag.length < 2 ^ 32 → value.length < 2 ^ 32 →
    count < 2 ^ 64 → Paired tag → Paired value →
    patchStringScalar tag value s = wrbytes s (hdr false .string (utf8 tag) ++ counted (utf8 value)) ∧
    patchTag ty tag s = wrbytes s (hdr false ty (utf8 tag)) ∧
    patchArray ty tag count s = wrbytes s (hdr true ty (utf8 tag) ++ uleb count)

/-! ## The reader -/

/-- NEXT and every entry form (an instruction of its own by log 8) are refused alike, and at the end of the
document they give END and change nothing else (44_reader.md section 1, 30_encoding.md Part B). -/
def Obligations.NextGivesEndAtTheEnd : Prop :=
  Encodes 0x50 (fun _ => .next) ∧
  ∀ (s : State) (i : Instr), ReadsEntry i →
    ReaderRefuses s (exec i s) ∧
    (ReaderReady s → s.r.limit ≤ s.r.pos → exec i s = .next { s with status := 1, reason := 0 })

/-- 44_reader.md R192: the slot NEXT writes; it is never the current one unless that is marked; it loses
what it held and no other slot does; its number is the identity in x[0]; the mark is not carried over. -/
def Obligations.NextChoosesTheSlot : Prop :=
  ∀ s : State, Inv s →
    (s.cvValid = true → (s.viewAt s.cvSlot.toNat).valid = true →
      (s.viewAt s.cvSlot.toNat).reuse = true → chooseSlot s = s.cvSlot.toNat) ∧
    (s.cvValid = true →
      ((s.viewAt s.cvSlot.toNat).valid = false ∨ (s.viewAt s.cvSlot.toNat).reuse = false) →
      chooseSlot s = (s.cvSlot.toNat + 1) % s.cfg.nview ∧ chooseSlot s ≠ s.cvSlot.toNat) ∧
    (s.cvValid = false → chooseSlot s = 0) ∧
    ∀ t, exec .next s = .next t → t.status = 0 →
      t.cvValid = true ∧ t.cvSlot.toNat = chooseSlot s ∧ t.x0.toNat = chooseSlot s ∧
      (t.viewAt (chooseSlot s)).valid = true ∧ (t.viewAt (chooseSlot s)).reuse = false ∧
      ∀ j, j ≠ chooseSlot s → t.viewAt j = s.viewAt j

/-- NEXT runs the entry form that byte0 at R.POS selects: the spec's own order of steps (44_reader.md
section 1) with the entry forms as instructions (log 8). The two are one run under two names, so a value
a fault leaves open is the same draw (log 3). -/
def Obligations.NextRunsTheFetchedEntry : Prop :=
  ∀ (s : State) (i : Instr), s.r.pos < s.r.limit → s.r.limit ≤ s.cfg.memSize →
    decodeEntry (s.byteAt s.r.pos) = some i → exec .next s = exec i s

/-- 44_reader.md section 1 (entry forms as instructions: log 8): an entry of type Null or of a fixed-width
type, scalar or array, is taken into the chosen slot and R.POS moves past it. -/
def Obligations.NextTakesNullAndFixedEntries : Prop :=
  ∀ (s : State) (i : Instr) (arr : Bool) (ty : EntryType) (il : BitVec 3) (lb tag cb : List Byte)
    (cnt : Nat), TakesForm s arr ty il i → ReaderReady s → ReaderPlaced s →
    ty ∈ [EntryType.null, .int8, .int16, .int32, .int64, .double, .datetime] →
    HeadBytes arr il lb tag cb cnt → ReadsAt s (s.r.pos + 1) (lb ++ tag ++ cb) →
    s.r.pos + 1 + lb.length + tag.length + cb.length + cnt * typeWidth ty ≤ s.r.limit →
    exec i s =
      .next (entryTaken s (entryView arr ty lb tag cb cnt s.r.pos [])
        (s.r.pos + 1 + lb.length + tag.length + cb.length + cnt * typeWidth ty))

/-- 44_reader.md section 1 (entry forms as instructions: log 8): an entry of type String or Binary, scalar
or array, with the place of every element recorded. -/
def Obligations.NextTakesStringAndBinaryEntries : Prop :=
  ∀ (s : State) (i : Instr) (arr : Bool) (ty : EntryType) (il : BitVec 3) (lb tag cb : List Byte)
    (els : List (List Byte × List Byte)), TakesForm s arr ty il i →
    ReaderReady s → ReaderPlaced s → ty ∈ [EntryType.string, .binary] →
    HeadBytes arr il lb tag cb els.length → (∀ e ∈ els, IsUnsigned e.1 e.2.length) →
    ReadsAt s (s.r.pos + 1) (lb ++ tag ++ cb ++ els.flatMap fun e => e.1 ++ e.2) →
    exec i s =
      .next (entryTaken s
        (entryView arr ty lb tag cb els.length s.r.pos
          (spansFrom (s.r.pos + 1 + lb.length + tag.length + cb.length) els))
        (s.r.pos + 1 + (lb ++ tag ++ cb ++ els.flatMap fun e => e.1 ++ e.2).length))

/-- 44_reader.md section 1 (entry forms as instructions: log 8): an entry of type Varint, scalar or array,
with every value recorded. -/
def Obligations.NextTakesVarintEntries : Prop :=
  ∀ (s : State) (i : Instr) (arr : Bool) (il : BitVec 3) (lb tag cb : List Byte)
    (els : List (List Byte × Int)), TakesForm s arr .varint il i →
    ReaderReady s → ReaderPlaced s →
    HeadBytes arr il lb tag cb els.length → (∀ e ∈ els, IsSigned e.1 e.2) →
    ReadsAt s (s.r.pos + 1) (lb ++ tag ++ cb ++ els.flatMap fun e => e.1) →
    exec i s =
      .next (entryTaken s
        (entryView arr .varint lb tag cb els.length s.r.pos
          (els.map fun e => .val (BitVec.ofInt 64 e.2)))
        (s.r.pos + 1 + (lb ++ tag ++ cb ++ els.flatMap fun e => e.1).length))

/-- 44_reader.md section 1 (`low` and `draws` are the model's: log 3, log 11): the faults of the tag
length and of the tag bytes, whatever the type code and the array flag. -/
def Obligations.NextFaultsInTheTag : Prop :=
  ∀ s : State, ReaderReady s → ReaderPlaced s → s.r.pos < s.r.limit →
    (entryInlineLength (s.byteAt s.r.pos) = 0 →
      UnsignedRaises s (s.r.pos + 1) (exec .next s) (some (chooseSlot s)) ∧
      (∀ lb, IsUnsigned lb 0 → ReadsAt s (s.r.pos + 1) lb →
        RaisesFormat s (exec .next s) 3 s.r.pos (some (chooseSlot s))) ∧
      (∀ lb n, 1 ≤ n → IsUnsigned lb n → ReadsAt s (s.r.pos + 1) lb →
        s.r.limit < s.r.pos + 1 + lb.length + n →
        RaisesFormat s (exec .next s) 5 (s.r.pos + 1 + lb.length) (some (chooseSlot s)))) ∧
    (∀ n, n = (entryInlineLength (s.byteAt s.r.pos)).toNat → n ≠ 0 → s.r.limit < s.r.pos + 1 + n →
      RaisesFormat s (exec .next s) 5 (s.r.pos + 1) (some (chooseSlot s)))

/-- 44_reader.md section 1 (`low` and `draws` are the model's: log 3, log 11): the faults of the count,
whatever the type code, and then of an unassigned type code. -/
def Obligations.NextFaultsInCountAndType : Prop :=
  ∀ (s : State) (lb tag : List Byte), ReaderReady s → ReaderPlaced s → s.r.pos < s.r.limit →
    (∀ il, il = entryInlineLength (s.byteAt s.r.pos) → HeadBytes false il lb tag [] 1 →
      ReadsAt s (s.r.pos + 1) (lb ++ tag) →
      (entryArray (s.byteAt s.r.pos) = true →
        UnsignedRaises s (s.r.pos + 1 + lb.length + tag.length) (exec .next s)
          (some (chooseSlot s))) ∧
      (∀ cb cnt, HeadBytes (entryArray (s.byteAt s.r.pos)) il lb tag cb cnt →
        ReadsAt s (s.r.pos + 1) (lb ++ tag ++ cb) →
        10 ≤ (entryTypeCode (s.byteAt s.r.pos)).toNat →
        RaisesFormat s (exec .next s) 4 s.r.pos (some (chooseSlot s))))

/-- 44_reader.md section 1 (entry forms as instructions: log 8): the faults of the payload, after any
number of good elements. -/
def Obligations.EntriesFaultInThePayload : Prop :=
  ∀ (s : State) (i : Instr) (arr : Bool) (ty : EntryType) (il : BitVec 3) (lb tag cb : List Byte)
    (cnt p : Nat), TakesForm s arr ty il i → ReaderReady s → ReaderPlaced s → HeadBytes arr il lb tag cb cnt →
    ReadsAt s (s.r.pos + 1) (lb ++ tag ++ cb) →
    p = s.r.pos + 1 + lb.length + tag.length + cb.length →
    (s.r.limit < p + cnt * typeWidth ty →
      RaisesFormat s (exec i s) 2 p (some (chooseSlot s))) ∧
    (∀ els : List (List Byte × List Byte), ty ∈ [EntryType.string, .binary] → els.length < cnt →
      (∀ e ∈ els, IsUnsigned e.1 e.2.length) → ReadsAt s p (els.flatMap fun e => e.1 ++ e.2) →
      ∀ q, q = p + (els.flatMap fun e => e.1 ++ e.2).length →
        UnsignedRaises s q (exec i s) (some (chooseSlot s)) ∧
        ∀ eb n, IsUnsigned eb n → ReadsAt s q eb → s.r.limit < q + eb.length + n →
          RaisesFormat s (exec i s) 5 (q + eb.length) (some (chooseSlot s))) ∧
    (∀ els : List (List Byte × Int), ty = .varint → els.length < cnt →
      (∀ e ∈ els, IsSigned e.1 e.2) → ReadsAt s p (els.flatMap fun e => e.1) →
      SignedRaises s (p + (els.flatMap fun e => e.1).length) (exec i s)
        (some (chooseSlot s)))

/-- View identity: an entry read after an unmarked view takes another slot, after a marked one the same
slot (44_reader.md R192, R205). -/
def Obligations.ViewIdentityFollowsTheMark : Prop :=
  ∀ s t : State, Inv s → exec .next s = .next t → t.status = 0 →
    (∀ u, exec .next t = .next u → u.status = 0 → u.cvSlot ≠ t.cvSlot ∧ u.x0 ≠ t.x0 ∧
      u.viewAt t.cvSlot.toNat = t.viewAt t.cvSlot.toNat) ∧
    ∃ m, exec (.mark t.cvSlot) t = .next m ∧
      ∀ u, exec .next m = .next u → u.status = 0 → u.cvSlot = t.cvSlot ∧ u.x0 = t.x0

/-- 44_reader.md R205: MARK. -/
def Obligations.MarkSetsReuse : Prop :=
  Encodes 0x51 (fun c => .mark c.vs) ∧
  ∀ (s : State) (vs : Byte),
    ViewRefuses s vs (exec (.mark vs) s) ∧
    ∀ v, Holds s vs v →
      exec (.mark vs) s =
        .next { s with views := s.views.set vs.toNat { v with reuse := true }, status := 0, reason := 0 }

/-- 44_reader.md R206, R207: VINFO and VTAG, for every position a result register can hold (log 16). -/
def Obligations.ViewHeadIsDelivered : Prop :=
  Encodes 0x52 (fun c => .vinfo c.vs) ∧ Encodes 0x53 (fun c => .vtag c.vs) ∧
  ∀ (s : State) (vs : Byte),
    ViewRefuses s vs (exec (.vinfo vs) s) ∧ ViewRefuses s vs (exec (.vtag vs) s) ∧
    ∀ v, Holds s vs v →
      (∀ h : Word, h.toNat = (if v.array then 16 else 0) + v.type.toNat →
        exec (.vinfo vs) s = .next (answered2 s h v.count) ∧
        (ViewSane s.cfg v → v.array = false → v.count = 1)) ∧
      (∀ p q : Word, p.toNat = v.tagOff → q.toNat = v.tagLen →
        exec (.vtag vs) s = .next (answered2 s p q) ∧ (ViewSane s.cfg v → 1 ≤ q.toNat))

/-! ## The view accessors -/

/-- 45_view.md R221 to R225, R229: the accessors of the fixed-width types, used as R231 asks; the element
of a sane view lies in MEM. -/
def Obligations.FixedAccessorsReadTheElement : Prop :=
  Encodes 0x58 (fun c => .vi8 c.vs c.a) ∧ Encodes 0x59 (fun c => .vi16 c.vs c.a) ∧
  Encodes 0x5A (fun c => .vi32 c.vs c.a) ∧ Encodes 0x5B (fun c => .vi64 c.vs c.a) ∧
  Encodes 0x5C (fun c => .vdt c.vs c.a) ∧ Encodes 0x5D (fun c => .vdbl c.vs c.a) ∧
  ∀ (s : State) (vs : Byte) (a : Word),
    ∀ p ∈ [(Instr.vi8 vs a, EntryType.int8), (.vi16 vs a, .int16), (.vi32 vs a, .int32),
           (.vi64 vs a, .int64), (.vdt vs a, .datetime), (.vdbl vs a, .double)],
      ViewRefuses s vs (exec p.1 s) ∧
      ∀ v, Holds s vs v → ViewSane s.cfg v → v.type.toNat = typeCode p.2 → a.toNat < v.count.toNat →
        exec p.1 s = .next (answered s (BitVec.ofInt 64
          (signedReading (typeWidth p.2)
            (leNat (s.bytesAt (v.dataOff + a.toNat * typeWidth p.2) (typeWidth p.2))))))

/-- 45_view.md R226, R227: VSTR and VBIN, for every position a result register can hold (log 16). -/
def Obligations.SpanAccessorsDeliverThePlace : Prop :=
  Encodes 0x5E (fun c => .vstr c.vs c.a) ∧ Encodes 0x5F (fun c => .vbin c.vs c.a) ∧
  ∀ (s : State) (vs : Byte) (a : Word),
    ∀ p ∈ [(Instr.vstr vs a, EntryType.string), (.vbin vs a, .binary)],
      ViewRefuses s vs (exec p.1 s) ∧
      ∀ v (off len : Word), Holds s vs v → v.type.toNat = typeCode p.2 → a.toNat < v.count.toNat →
        v.elems[a.toNat]? = some (.span off.toNat len.toNat) →
        exec p.1 s = .next (answered2 s off len)

/-- 45_view.md R228: VVAR delivers the recorded value, whatever MEM holds by now. -/
def Obligations.VvarDeliversTheRecordedValue : Prop :=
  Encodes 0x60 (fun c => .vvar c.vs c.a) ∧
  ∀ (s : State) (vs : Byte) (a : Word),
    ViewRefuses s vs (exec (.vvar vs a) s) ∧
    ∀ v x, Holds s vs v → v.type.toNat = 9 → a.toNat < v.count.toNat →
      v.elems[a.toNat]? = some (.val x) → exec (.vvar vs a) s = .next (answered s x)

/-- 45_view.md R230: VLONG, type by type. -/
def Obligations.VlongConvertsByType : Prop :=
  Encodes 0x61 (fun c => .vlong c.vs c.a) ∧
  ∀ (s : State) (vs : Byte) (a : Word),
    ViewRefuses s vs (exec (.vlong vs a) s) ∧
    ∀ v, Holds s vs v →
      (v.type.toNat = 0 → ∃ x y, exec (.vlong vs a) s = .next (looseAnswer2 s 4 x y)) ∧
      (v.type.toNat ∈ [1, 2, 7] → ∃ x y, exec (.vlong vs a) s = .next (looseAnswer2 s 5 x y)) ∧
      (∀ y ∈ [EntryType.int8, .int16, .int32, .int64, .datetime], v.type.toNat = typeCode y →
        ViewSane s.cfg v → a.toNat < v.count.toNat →
        exec (.vlong vs a) s = .next (answered s (BitVec.ofInt 64
          (signedReading (typeWidth y)
            (leNat (s.bytesAt (v.dataOff + a.toNat * typeWidth y) (typeWidth y))))))) ∧
      (∀ x, v.type.toNat = 9 → a.toNat < v.count.toNat → v.elems[a.toNat]? = some (.val x) →
        exec (.vlong vs a) s = .next (answered s x)) ∧
      (v.type.toNat ∈ [3, 4, 5, 6, 8, 9] → v.count.toNat ≤ a.toNat →
        ∃ x, exec (.vlong vs a) s = .next (looseAnswer s x))

/-- 45_view.md R231: a typed accessor used on a view of another type, or with an index at or beyond the
count, completes; its results are left open and nothing else changes. -/
def Obligations.UncheckedAccessorsComplete : Prop :=
  ∀ (s : State) (vs : Byte) (a : Word) (v : View), Holds s vs v →
    (∀ p ∈ [(Instr.vi8 vs a, 3), (.vi16 vs a, 4), (.vi32 vs a, 5), (.vi64 vs a, 6), (.vdt vs a, 8),
            (.vdbl vs a, 7), (.vvar vs a, 9)],
      v.type.toNat ≠ p.2 ∨ v.count.toNat ≤ a.toNat → ∃ x, exec p.1 s = .next (looseAnswer s x)) ∧
    (∀ p ∈ [(Instr.vstr vs a, 1), (.vbin vs a, 2)],
      v.type.toNat ≠ p.2 ∨ v.count.toNat ≤ a.toNat →
        ∃ x y, exec p.1 s = .next (looseAnswer2 s 0 x y))

/-! ## Rules of the whole machine -/

/-- Whatever instruction ends in a fault or a rejection, what it writes is what the entry rule says and no
more (60_exceptions.md sections 1 and 3, 44_reader.md section 1, 30_encoding.md Part B; that an entry form
is an instruction which fills a slot as NEXT does is log 8). -/
def Obligations.FaultsWriteOnlyTheirEntry : Prop :=
  ∀ (i : Instr) (s t : State), Inv s → exec i s = .next t →
    (t.status = 2 → ∃ cause pos slot, 1 ≤ cause.toNat ∧ cause.toNat ≤ 6 ∧ s.r.pos ≤ pos ∧
      pos ≤ s.r.limit ∧ (ReadsEntry i → slot = some (chooseSlot s)) ∧ (¬ ReadsEntry i → slot = none) ∧
      Malformed s t cause pos slot) ∧
    (t.status = 3 → Overran s t) ∧
    (t.status = 4 ∨ t.status = 5 →
      (∃ vs a, i = .vlong vs a) ∧ ∃ x y, t = looseAnswer2 s t.status x y) ∧
    (t.status = 6 → 1 ≤ t.reason.toNat ∧ t = rejected s t.reason)

/-- A command changes the state of its own unit (30_encoding.md R80) and no other's: a W command leaves R,
the slots and CV, an R command leaves W and MEM, a view command leaves W, R, MEM and CV; only NEXT, the entry
forms (log 8) and MARK write a slot or CV; and MEM is written between W.POS and W.LIMIT only (20_memory.md
R57 to R59, 10_state.md R28). -/
def Obligations.CommandsChangeTheirUnitOnly : Prop :=
  ∀ (i : Instr) (s t : State), Inv s → exec i s = .next t →
    (∀ a, a < s.w.pos ∨ s.w.limit ≤ a → t.byteAt a = s.byteAt a) ∧
    (unitOf i = .writer → t.r = s.r ∧ t.views = s.views ∧ t.cvValid = s.cvValid ∧ t.cvSlot = s.cvSlot) ∧
    (unitOf i = .reader → t.w = s.w ∧ t.mem = s.mem) ∧
    (unitOf i = .view →
      t.w = s.w ∧ t.r = s.r ∧ t.mem = s.mem ∧ t.cvValid = s.cvValid ∧ t.cvSlot = s.cvSlot) ∧
    (t.views ≠ s.views ∨ t.cvValid ≠ s.cvValid ∨ t.cvSlot ≠ s.cvSlot →
      ReadsEntry i ∨ ∃ vs, i = .mark vs) ∧
    t.cfg = s.cfg ∧ t.memEpoch = s.memEpoch ∧ t.inbox = s.inbox ∧ t.hostData = s.hostData

/-- INIT is set by WINIT and PARSE only and cleared by no command; a pending record is cleared by the
commands that set up or rewind its cursor only, and until then is kept as it is (10_state.md R28,
60_exceptions.md R249, R250). -/
def Obligations.OnlyRestartClearsAFault : Prop :=
  ∀ (i : Instr) (s t : State), Inv s → exec i s = .next t →
    (s.w.init ≠ t.w.init → t.w.init = true ∧ ∃ a b, i = .winit a b) ∧
    (s.r.init ≠ t.r.init → t.r.init = true ∧ ∃ a b, i = .parse a b) ∧
    (s.w.errKind ≠ 0 → t.w = s.w ∨ (t.w.errKind = 0 ∧ (i = .wrewind ∨ ∃ a b, i = .winit a b))) ∧
    (s.r.errKind ≠ 0 → t.r = s.r ∨ (t.r.errKind = 0 ∧ (i = .rrewind ∨ ∃ a b, i = .parse a b)))

/-- A reading command (NEXT and the entry forms, log 8, among them) reads no byte of MEM outside the
reader's region: two states that differ only there are taken to the same state but for MEM, or to the same
FormatError, of which what R247 leaves open need not be the same (20_memory.md R54 to R56, 40_cursor.md
R104). -/
def Obligations.ReadersSeeTheirRegionOnly : Prop :=
  ∀ (i : Instr) (s t : State) (m : Memory), ReaderPlaced s →
    (i ∈ [Instr.vgetu, .vgets, .get8, .get16, .get32, .get64, .getd, .rrem] ∨ ReadsEntry i) →
    (∀ a, s.r.pos ≤ a → a < s.r.limit → State.byteAt { s with mem := m } a = s.byteAt a) →
    exec i s = .next t →
    ∃ t', exec i { s with mem := m } = .next t' ∧
      (t.status ≠ 2 → t' = { t with mem := m }) ∧
      (t.status = 2 → ∃ cause pos slot, (ReadsEntry i → slot = some (chooseSlot s)) ∧
        (¬ ReadsEntry i → slot = none) ∧
        Malformed s t cause pos slot ∧ Malformed { s with mem := m } t' cause pos slot)

/-- Round trip of a whole document: what the byte-form commands wrote from W.START is read back entry by
entry, with every value, and then END (the spec derives 43_serializer.md R177). -/
def Obligations.DocumentRoundTrip : Prop :=
  ∀ (s w : State) (off len : Word) (doc : List DocEntry),
    Inv s → s.cfg.memSize ≤ 2 ^ 64 → off.toNat + len.toNat ≤ s.cfg.memSize →
    (∀ e ∈ doc, e.writable) →
    execAll (.winit off len :: doc.flatMap DocEntry.commands) s = some w → w.w.errKind = 0 →
    ∃ r, exec (.parse off (BitVec.ofNat 64 (w.w.pos - off.toNat))) w = .next r ∧ ReadsBack doc r
end

