-- ==== Sys2Proof/Laws/State.lean ====
section
/-! SUPPORT. One lemma for every field of State and every update of it, true by definition, so that no
proof unfolds a record update. -/

namespace Sys2Proof.Machine

section
variable (s : State) (st : Status)
@[simp] theorem State.complete_cfg : (s.complete st).cfg = s.cfg := rfl
@[simp] theorem State.complete_mem : (s.complete st).mem = s.mem := rfl
@[simp] theorem State.complete_memEpoch : (s.complete st).memEpoch = s.memEpoch := rfl
@[simp] theorem State.complete_w : (s.complete st).w = s.w := rfl
@[simp] theorem State.complete_r : (s.complete st).r = s.r := rfl
@[simp] theorem State.complete_status : (s.complete st).status = statusCode st := rfl
@[simp] theorem State.complete_reason : (s.complete st).reason = 0 := rfl
@[simp] theorem State.complete_x0 : (s.complete st).x0 = s.x0 := rfl
@[simp] theorem State.complete_x1 : (s.complete st).x1 = s.x1 := rfl
@[simp] theorem State.complete_x0Known : (s.complete st).x0Known = s.x0Known := rfl
@[simp] theorem State.complete_x1Known : (s.complete st).x1Known = s.x1Known := rfl
@[simp] theorem State.complete_cvValid : (s.complete st).cvValid = s.cvValid := rfl
@[simp] theorem State.complete_cvSlot : (s.complete st).cvSlot = s.cvSlot := rfl
@[simp] theorem State.complete_views : (s.complete st).views = s.views := rfl
@[simp] theorem State.complete_draws : (s.complete st).draws = s.draws := rfl
@[simp] theorem State.complete_inbox : (s.complete st).inbox = s.inbox := rfl
@[simp] theorem State.complete_hostData : (s.complete st).hostData = s.hostData := rfl
end

section
variable (s : State) (why : Reason)
@[simp] theorem State.reject_cfg : (s.reject why).cfg = s.cfg := rfl
@[simp] theorem State.reject_mem : (s.reject why).mem = s.mem := rfl
@[simp] theorem State.reject_memEpoch : (s.reject why).memEpoch = s.memEpoch := rfl
@[simp] theorem State.reject_w : (s.reject why).w = s.w := rfl
@[simp] theorem State.reject_r : (s.reject why).r = s.r := rfl
@[simp] theorem State.reject_status : (s.reject why).status = statusCode .rejected := rfl
@[simp] theorem State.reject_reason : (s.reject why).reason = reasonCode why := rfl
@[simp] theorem State.reject_x0 : (s.reject why).x0 = s.x0 := rfl
@[simp] theorem State.reject_x1 : (s.reject why).x1 = s.x1 := rfl
@[simp] theorem State.reject_x0Known : (s.reject why).x0Known = s.x0Known := rfl
@[simp] theorem State.reject_x1Known : (s.reject why).x1Known = s.x1Known := rfl
@[simp] theorem State.reject_cvValid : (s.reject why).cvValid = s.cvValid := rfl
@[simp] theorem State.reject_cvSlot : (s.reject why).cvSlot = s.cvSlot := rfl
@[simp] theorem State.reject_views : (s.reject why).views = s.views := rfl
@[simp] theorem State.reject_draws : (s.reject why).draws = s.draws := rfl
@[simp] theorem State.reject_inbox : (s.reject why).inbox = s.inbox := rfl
@[simp] theorem State.reject_hostData : (s.reject why).hostData = s.hostData := rfl
end

section
variable (s : State) (v : Word)
@[simp] theorem State.setX0_cfg : (s.setX0 v).cfg = s.cfg := rfl
@[simp] theorem State.setX0_mem : (s.setX0 v).mem = s.mem := rfl
@[simp] theorem State.setX0_memEpoch : (s.setX0 v).memEpoch = s.memEpoch := rfl
@[simp] theorem State.setX0_w : (s.setX0 v).w = s.w := rfl
@[simp] theorem State.setX0_r : (s.setX0 v).r = s.r := rfl
@[simp] theorem State.setX0_status : (s.setX0 v).status = s.status := rfl
@[simp] theorem State.setX0_reason : (s.setX0 v).reason = s.reason := rfl
@[simp] theorem State.setX0_x0 : (s.setX0 v).x0 = v := rfl
@[simp] theorem State.setX0_x1 : (s.setX0 v).x1 = s.x1 := rfl
@[simp] theorem State.setX0_x0Known : (s.setX0 v).x0Known = true := rfl
@[simp] theorem State.setX0_x1Known : (s.setX0 v).x1Known = s.x1Known := rfl
@[simp] theorem State.setX0_cvValid : (s.setX0 v).cvValid = s.cvValid := rfl
@[simp] theorem State.setX0_cvSlot : (s.setX0 v).cvSlot = s.cvSlot := rfl
@[simp] theorem State.setX0_views : (s.setX0 v).views = s.views := rfl
@[simp] theorem State.setX0_draws : (s.setX0 v).draws = s.draws := rfl
@[simp] theorem State.setX0_inbox : (s.setX0 v).inbox = s.inbox := rfl
@[simp] theorem State.setX0_hostData : (s.setX0 v).hostData = s.hostData := rfl
end

section
variable (s : State) (v : Word)
@[simp] theorem State.setX1_cfg : (s.setX1 v).cfg = s.cfg := rfl
@[simp] theorem State.setX1_mem : (s.setX1 v).mem = s.mem := rfl
@[simp] theorem State.setX1_memEpoch : (s.setX1 v).memEpoch = s.memEpoch := rfl
@[simp] theorem State.setX1_w : (s.setX1 v).w = s.w := rfl
@[simp] theorem State.setX1_r : (s.setX1 v).r = s.r := rfl
@[simp] theorem State.setX1_status : (s.setX1 v).status = s.status := rfl
@[simp] theorem State.setX1_reason : (s.setX1 v).reason = s.reason := rfl
@[simp] theorem State.setX1_x0 : (s.setX1 v).x0 = s.x0 := rfl
@[simp] theorem State.setX1_x1 : (s.setX1 v).x1 = v := rfl
@[simp] theorem State.setX1_x0Known : (s.setX1 v).x0Known = s.x0Known := rfl
@[simp] theorem State.setX1_x1Known : (s.setX1 v).x1Known = true := rfl
@[simp] theorem State.setX1_cvValid : (s.setX1 v).cvValid = s.cvValid := rfl
@[simp] theorem State.setX1_cvSlot : (s.setX1 v).cvSlot = s.cvSlot := rfl
@[simp] theorem State.setX1_views : (s.setX1 v).views = s.views := rfl
@[simp] theorem State.setX1_draws : (s.setX1 v).draws = s.draws := rfl
@[simp] theorem State.setX1_inbox : (s.setX1 v).inbox = s.inbox := rfl
@[simp] theorem State.setX1_hostData : (s.setX1 v).hostData = s.hostData := rfl
end

section
variable (s : State) 
@[simp] theorem State.looseX0_cfg : s.looseX0.cfg = s.cfg := rfl
@[simp] theorem State.looseX0_mem : s.looseX0.mem = s.mem := rfl
@[simp] theorem State.looseX0_memEpoch : s.looseX0.memEpoch = s.memEpoch := rfl
@[simp] theorem State.looseX0_w : s.looseX0.w = s.w := rfl
@[simp] theorem State.looseX0_r : s.looseX0.r = s.r := rfl
@[simp] theorem State.looseX0_status : s.looseX0.status = s.status := rfl
@[simp] theorem State.looseX0_reason : s.looseX0.reason = s.reason := rfl
@[simp] theorem State.looseX0_x0 : s.looseX0.x0 = Config.freeWord s.draws 0 := rfl
@[simp] theorem State.looseX0_x1 : s.looseX0.x1 = s.x1 := rfl
@[simp] theorem State.looseX0_x0Known : s.looseX0.x0Known = false := rfl
@[simp] theorem State.looseX0_x1Known : s.looseX0.x1Known = s.x1Known := rfl
@[simp] theorem State.looseX0_cvValid : s.looseX0.cvValid = s.cvValid := rfl
@[simp] theorem State.looseX0_cvSlot : s.looseX0.cvSlot = s.cvSlot := rfl
@[simp] theorem State.looseX0_views : s.looseX0.views = s.views := rfl
@[simp] theorem State.looseX0_draws : s.looseX0.draws = s.draws + 1 := rfl
@[simp] theorem State.looseX0_inbox : s.looseX0.inbox = s.inbox := rfl
@[simp] theorem State.looseX0_hostData : s.looseX0.hostData = s.hostData := rfl
end

section
variable (s : State) 
@[simp] theorem State.looseX_cfg : s.looseX.cfg = s.cfg := rfl
@[simp] theorem State.looseX_mem : s.looseX.mem = s.mem := rfl
@[simp] theorem State.looseX_memEpoch : s.looseX.memEpoch = s.memEpoch := rfl
@[simp] theorem State.looseX_w : s.looseX.w = s.w := rfl
@[simp] theorem State.looseX_r : s.looseX.r = s.r := rfl
@[simp] theorem State.looseX_status : s.looseX.status = s.status := rfl
@[simp] theorem State.looseX_reason : s.looseX.reason = s.reason := rfl
@[simp] theorem State.looseX_x0 : s.looseX.x0 = Config.freeWord s.draws 0 := rfl
@[simp] theorem State.looseX_x1 : s.looseX.x1 = Config.freeWord s.draws 1 := rfl
@[simp] theorem State.looseX_x0Known : s.looseX.x0Known = false := rfl
@[simp] theorem State.looseX_x1Known : s.looseX.x1Known = false := rfl
@[simp] theorem State.looseX_cvValid : s.looseX.cvValid = s.cvValid := rfl
@[simp] theorem State.looseX_cvSlot : s.looseX.cvSlot = s.cvSlot := rfl
@[simp] theorem State.looseX_views : s.looseX.views = s.views := rfl
@[simp] theorem State.looseX_draws : s.looseX.draws = s.draws + 1 := rfl
@[simp] theorem State.looseX_inbox : s.looseX.inbox = s.inbox := rfl
@[simp] theorem State.looseX_hostData : s.looseX.hostData = s.hostData := rfl
end

section
variable (s : State) (k : Nat) (v : View)
@[simp] theorem State.setView_cfg : (s.setView k v).cfg = s.cfg := rfl
@[simp] theorem State.setView_mem : (s.setView k v).mem = s.mem := rfl
@[simp] theorem State.setView_memEpoch : (s.setView k v).memEpoch = s.memEpoch := rfl
@[simp] theorem State.setView_w : (s.setView k v).w = s.w := rfl
@[simp] theorem State.setView_r : (s.setView k v).r = s.r := rfl
@[simp] theorem State.setView_status : (s.setView k v).status = s.status := rfl
@[simp] theorem State.setView_reason : (s.setView k v).reason = s.reason := rfl
@[simp] theorem State.setView_x0 : (s.setView k v).x0 = s.x0 := rfl
@[simp] theorem State.setView_x1 : (s.setView k v).x1 = s.x1 := rfl
@[simp] theorem State.setView_x0Known : (s.setView k v).x0Known = s.x0Known := rfl
@[simp] theorem State.setView_x1Known : (s.setView k v).x1Known = s.x1Known := rfl
@[simp] theorem State.setView_cvValid : (s.setView k v).cvValid = s.cvValid := rfl
@[simp] theorem State.setView_cvSlot : (s.setView k v).cvSlot = s.cvSlot := rfl
@[simp] theorem State.setView_views : (s.setView k v).views = s.views.set k v := rfl
@[simp] theorem State.setView_draws : (s.setView k v).draws = s.draws := rfl
@[simp] theorem State.setView_inbox : (s.setView k v).inbox = s.inbox := rfl
@[simp] theorem State.setView_hostData : (s.setView k v).hostData = s.hostData := rfl
end

section
variable (s : State) (rest : List HostMove)
@[simp] theorem State.withInbox_cfg : (s.withInbox rest).cfg = s.cfg := rfl
@[simp] theorem State.withInbox_mem : (s.withInbox rest).mem = s.mem := rfl
@[simp] theorem State.withInbox_memEpoch : (s.withInbox rest).memEpoch = s.memEpoch := rfl
@[simp] theorem State.withInbox_w : (s.withInbox rest).w = s.w := rfl
@[simp] theorem State.withInbox_r : (s.withInbox rest).r = s.r := rfl
@[simp] theorem State.withInbox_status : (s.withInbox rest).status = s.status := rfl
@[simp] theorem State.withInbox_reason : (s.withInbox rest).reason = s.reason := rfl
@[simp] theorem State.withInbox_x0 : (s.withInbox rest).x0 = s.x0 := rfl
@[simp] theorem State.withInbox_x1 : (s.withInbox rest).x1 = s.x1 := rfl
@[simp] theorem State.withInbox_x0Known : (s.withInbox rest).x0Known = s.x0Known := rfl
@[simp] theorem State.withInbox_x1Known : (s.withInbox rest).x1Known = s.x1Known := rfl
@[simp] theorem State.withInbox_cvValid : (s.withInbox rest).cvValid = s.cvValid := rfl
@[simp] theorem State.withInbox_cvSlot : (s.withInbox rest).cvSlot = s.cvSlot := rfl
@[simp] theorem State.withInbox_views : (s.withInbox rest).views = s.views := rfl
@[simp] theorem State.withInbox_draws : (s.withInbox rest).draws = s.draws := rfl
@[simp] theorem State.withInbox_inbox : (s.withInbox rest).inbox = rest := rfl
@[simp] theorem State.withInbox_hostData : (s.withInbox rest).hostData = s.hostData := rfl
end

section
variable (s : State) (cause : Cause) (pos : Nat) (slot : Option Nat)
@[simp] theorem takeFormat_cfg :
    (takeFormat cause pos slot s).cfg = s.cfg := rfl
@[simp] theorem takeFormat_mem :
    (takeFormat cause pos slot s).mem = s.mem := rfl
@[simp] theorem takeFormat_memEpoch :
    (takeFormat cause pos slot s).memEpoch = s.memEpoch := rfl
@[simp] theorem takeFormat_w :
    (takeFormat cause pos slot s).w = s.w := rfl
@[simp] theorem takeFormat_r :
    (takeFormat cause pos slot s).r = { s.r with errKind := kindFormat, errCause := causeCode cause, errPos := pos, pos := freeBetween s.draws 0 s.r.start s.r.limit, low := s.r.start } := rfl
@[simp] theorem takeFormat_status :
    (takeFormat cause pos slot s).status = statusCode .eFormat := rfl
@[simp] theorem takeFormat_reason :
    (takeFormat cause pos slot s).reason = 0 := rfl
@[simp] theorem takeFormat_x0 :
    (takeFormat cause pos slot s).x0 = Config.freeWord s.draws 0 := rfl
@[simp] theorem takeFormat_x1 :
    (takeFormat cause pos slot s).x1 = Config.freeWord s.draws 1 := rfl
@[simp] theorem takeFormat_x0Known :
    (takeFormat cause pos slot s).x0Known = false := rfl
@[simp] theorem takeFormat_x1Known :
    (takeFormat cause pos slot s).x1Known = false := rfl
@[simp] theorem takeFormat_cvValid :
    (takeFormat cause pos slot s).cvValid = s.cvValid := rfl
@[simp] theorem takeFormat_cvSlot :
    (takeFormat cause pos slot s).cvSlot = s.cvSlot := rfl
@[simp] theorem takeFormat_draws :
    (takeFormat cause pos slot s).draws = s.draws + 1 := rfl
@[simp] theorem takeFormat_inbox :
    (takeFormat cause pos slot s).inbox = s.inbox := rfl
@[simp] theorem takeFormat_hostData :
    (takeFormat cause pos slot s).hostData = s.hostData := rfl
@[simp] theorem takeFormat_views_none : (takeFormat cause pos none s).views = s.views := rfl
@[simp] theorem takeFormat_views_some (k : Nat) :
    (takeFormat cause pos (some k) s).views = s.views.set k (ruinedView s.cfg.aw s.draws) := rfl
end

section
variable (s : State)
@[simp] theorem takeBufferTooSmall_cfg :
    (takeBufferTooSmall s).cfg = s.cfg := rfl
@[simp] theorem takeBufferTooSmall_mem :
    (takeBufferTooSmall s).mem = s.mem.loosen s.draws s.w.pos (s.w.limit - s.w.pos) := rfl
@[simp] theorem takeBufferTooSmall_memEpoch :
    (takeBufferTooSmall s).memEpoch = s.memEpoch := rfl
@[simp] theorem takeBufferTooSmall_w :
    (takeBufferTooSmall s).w = { s.w with errKind := kindBuffer, errCause := 0, errPos := Config.freeNat s.draws 1 % 2 ^ s.cfg.aw, pos := freeBetween s.draws 0 s.w.pos s.w.limit, low := s.w.pos } := rfl
@[simp] theorem takeBufferTooSmall_r :
    (takeBufferTooSmall s).r = s.r := rfl
@[simp] theorem takeBufferTooSmall_status :
    (takeBufferTooSmall s).status = statusCode .eBufSmall := rfl
@[simp] theorem takeBufferTooSmall_reason :
    (takeBufferTooSmall s).reason = 0 := rfl
@[simp] theorem takeBufferTooSmall_x0 :
    (takeBufferTooSmall s).x0 = Config.freeWord s.draws 0 := rfl
@[simp] theorem takeBufferTooSmall_x1 :
    (takeBufferTooSmall s).x1 = Config.freeWord s.draws 1 := rfl
@[simp] theorem takeBufferTooSmall_x0Known :
    (takeBufferTooSmall s).x0Known = false := rfl
@[simp] theorem takeBufferTooSmall_x1Known :
    (takeBufferTooSmall s).x1Known = false := rfl
@[simp] theorem takeBufferTooSmall_cvValid :
    (takeBufferTooSmall s).cvValid = s.cvValid := rfl
@[simp] theorem takeBufferTooSmall_cvSlot :
    (takeBufferTooSmall s).cvSlot = s.cvSlot := rfl
@[simp] theorem takeBufferTooSmall_views :
    (takeBufferTooSmall s).views = s.views := rfl
@[simp] theorem takeBufferTooSmall_draws :
    (takeBufferTooSmall s).draws = s.draws + 1 := rfl
@[simp] theorem takeBufferTooSmall_inbox :
    (takeBufferTooSmall s).inbox = s.inbox := rfl
@[simp] theorem takeBufferTooSmall_hostData :
    (takeBufferTooSmall s).hostData = s.hostData := rfl
end

section
variable (c : Cursor) 
@[simp] theorem Cursor.clearErr_start : c.clearErr.start = c.start := rfl
@[simp] theorem Cursor.clearErr_pos : c.clearErr.pos = c.pos := rfl
@[simp] theorem Cursor.clearErr_limit : c.clearErr.limit = c.limit := rfl
@[simp] theorem Cursor.clearErr_init : c.clearErr.init = c.init := rfl
@[simp] theorem Cursor.clearErr_errKind : c.clearErr.errKind = 0 := rfl
@[simp] theorem Cursor.clearErr_errCause : c.clearErr.errCause = 0 := rfl
@[simp] theorem Cursor.clearErr_errPos : c.clearErr.errPos = c.errPos := rfl
@[simp] theorem Cursor.clearErr_low : c.clearErr.low = c.low := rfl
end

section
variable (c : Cursor) (off len : Nat)
@[simp] theorem openRegion_start : (openRegion off len c).start = off := rfl
@[simp] theorem openRegion_pos : (openRegion off len c).pos = off := rfl
@[simp] theorem openRegion_limit : (openRegion off len c).limit = off + len := rfl
@[simp] theorem openRegion_init : (openRegion off len c).init = true := rfl
@[simp] theorem openRegion_errKind : (openRegion off len c).errKind = 0 := rfl
@[simp] theorem openRegion_errCause : (openRegion off len c).errCause = 0 := rfl
@[simp] theorem openRegion_errPos : (openRegion off len c).errPos = c.errPos := rfl
@[simp] theorem openRegion_low : (openRegion off len c).low = c.low := rfl
end

section
variable (c : Cursor) 
@[simp] theorem rewound_start : (rewound c).start = c.start := rfl
@[simp] theorem rewound_pos : (rewound c).pos = c.start := rfl
@[simp] theorem rewound_limit : (rewound c).limit = c.limit := rfl
@[simp] theorem rewound_init : (rewound c).init = c.init := rfl
@[simp] theorem rewound_errKind : (rewound c).errKind = 0 := rfl
@[simp] theorem rewound_errCause : (rewound c).errCause = 0 := rfl
@[simp] theorem rewound_errPos : (rewound c).errPos = c.errPos := rfl
@[simp] theorem rewound_low : (rewound c).low = c.low := rfl
end

end Sys2Proof.Machine
end

