-- ==== Sys2Proof/Laws/Memory.lean ====
section
/-! SUPPORT. The laws of MEM: a read after a write gives the byte written, a write leaves every other
position alone, and every operation keeps the canonical form. -/

namespace Sys2Proof.Machine

/-! ## Reading and writing -/

theorem Memory.lookup_insert_self (m : Memory) (a : Nat) (b : Byte) :
    (m.insert a b).lookup a = some b := by
  induction m with
  | nil => simp [Memory.insert, Memory.lookup]
  | cons x m ih =>
    obtain ⟨k, c⟩ := x
    simp only [Memory.insert]
    split
    · simp [Memory.lookup]
    · split
      · simp [Memory.lookup]
      · rename_i h1 h2
        simp [Memory.lookup, ih, Ne.symm h2]

theorem Memory.lookup_insert_of_ne (m : Memory) (a : Nat) (b : Byte) (x : Nat) (h : x ≠ a) :
    (m.insert a b).lookup x = m.lookup x := by
  induction m with
  | nil => simp [Memory.insert, Memory.lookup, Ne.symm h]
  | cons y m ih =>
    obtain ⟨k, c⟩ := y
    simp only [Memory.insert]
    split
    · simp [Memory.lookup, Ne.symm h]
    · split
      · rename_i h1 h2
        subst h2
        simp [Memory.lookup, Ne.symm h]
      · simp [Memory.lookup, ih]

theorem Memory.lookup_insert (m : Memory) (a : Nat) (b : Byte) (x : Nat) :
    (m.insert a b).lookup x = if x = a then some b else m.lookup x := by
  split
  · rename_i h; subst h; exact m.lookup_insert_self x b
  · exact m.lookup_insert_of_ne a b x ‹_›

/-- What a written byte sequence leaves at every position. -/
theorem Memory.lookup_writeBytes (bs : List Byte) (m : Memory) (a x : Nat) :
    (m.writeBytes a bs).lookup x =
      if a ≤ x ∧ x < a + bs.length then some (bs.getD (x - a) 0) else m.lookup x := by
  induction bs generalizing m a with
  | nil => simp only [Memory.writeBytes, List.length_nil]; rw [if_neg (by omega)]
  | cons b bs ih =>
    rw [Memory.writeBytes, ih, Memory.lookup_insert]
    rcases Nat.lt_trichotomy x a with h | h | h
    · have h1 : ¬(a + 1 ≤ x ∧ x < a + 1 + bs.length) := by omega
      have h2 : ¬(a ≤ x ∧ x < a + (b :: bs).length) := by omega
      rw [if_neg h1, if_neg h2, if_neg (Nat.ne_of_lt h)]
    · subst h
      simp
    · by_cases h3 : x < a + 1 + bs.length
      · have h1 : a + 1 ≤ x ∧ x < a + 1 + bs.length := ⟨h, h3⟩
        have h2 : a ≤ x ∧ x < a + (b :: bs).length := by simp; omega
        have h4 : x - a = (x - (a + 1)) + 1 := by omega
        rw [if_pos h1, if_pos h2, h4, List.getD_cons_succ]
      · have h1 : ¬(a + 1 ≤ x ∧ x < a + 1 + bs.length) := by omega
        have h2 : ¬(a ≤ x ∧ x < a + (b :: bs).length) := by simp; omega
        rw [if_neg h1, if_neg h2, if_neg (by omega)]

/-- What an unspecified range leaves at every position outside it. -/
theorem Memory.lookup_loosen (d n : Nat) (m : Memory) (a x : Nat) (h : x < a ∨ a + n ≤ x) :
    (m.loosen d a n).lookup x = m.lookup x := by
  induction n generalizing m a with
  | zero => rfl
  | succ n ih => rw [Memory.loosen, ih _ _ (by omega), Memory.lookup_insert_of_ne _ _ _ _ (by omega)]

theorem State.byteAt_congr {s t : State} (hm : t.mem = s.mem) (he : t.memEpoch = s.memEpoch) (a : Nat) :
    t.byteAt a = s.byteAt a := by simp [State.byteAt, hm, he]

@[simp] theorem State.length_bytesAt (s : State) (a n : Nat) : (s.bytesAt a n).length = n := by
  induction n generalizing a with
  | zero => rfl
  | succ n ih => simp [State.bytesAt, ih]

theorem State.getElem_bytesAt (s : State) (a n k : Nat) (h : k < n) :
    (s.bytesAt a n)[k]? = some (s.byteAt (a + k)) := by
  induction n generalizing a k with
  | zero => omega
  | succ n ih =>
    cases k with
    | zero => simp [State.bytesAt]
    | succ k => simp [State.bytesAt, ih (a + 1) k (by omega), Nat.add_assoc, Nat.add_comm 1]

theorem State.bytesAt_add (s : State) (a n k : Nat) :
    s.bytesAt a (n + k) = s.bytesAt a n ++ s.bytesAt (a + n) k := by
  induction n generalizing a with
  | zero => simp [State.bytesAt]
  | succ n ih => rw [Nat.succ_add]; simp [State.bytesAt, ih, Nat.add_assoc, Nat.add_comm 1]

/-- Two states that read alike on a range have the same bytes there. -/
theorem State.bytesAt_congr {s t : State} {a n : Nat}
    (h : ∀ x, a ≤ x → x < a + n → t.byteAt x = s.byteAt x) : t.bytesAt a n = s.bytesAt a n := by
  induction n generalizing a with
  | zero => rfl
  | succ n ih =>
    rw [State.bytesAt, State.bytesAt, h a (by omega) (by omega), ih fun x h1 h2 => h x (by omega) (by omega)]

/-! ## The canonical form -/

/-- Every listed position of an updated memory is the written one or was listed. -/
theorem Memory.mem_insert {m : Memory} {a : Nat} {b : Byte} {x : Host.Cell} (h : x ∈ m.insert a b) :
    x.1 = a ∨ x ∈ m := by
  induction m with
  | nil => simp [Memory.insert] at h; simp [h]
  | cons y m ih =>
    obtain ⟨k, c⟩ := y
    simp only [Memory.insert] at h
    split at h
    · rcases List.mem_cons.1 h with h | h
      · simp [h]
      · exact .inr h
    · split at h
      · rcases List.mem_cons.1 h with h | h
        · simp [h]
        · exact .inr (List.mem_cons_of_mem _ h)
      · rcases List.mem_cons.1 h with h | h
        · simp [h]
        · rcases ih h with h | h
          · exact .inl h
          · exact .inr (List.mem_cons_of_mem _ h)

theorem Memory.wf_insert {m : Memory} (h : m.wf) (a : Nat) (b : Byte) : (m.insert a b).wf := by
  induction m with
  | nil => simp [Memory.insert, Memory.wf]
  | cons y m ih =>
    obtain ⟨k, c⟩ := y
    have ⟨h1, h2⟩ := List.pairwise_cons.1 h
    simp only [Memory.insert]
    split
    · rename_i hk
      refine List.pairwise_cons.2 ⟨fun x hx => ?_, h⟩
      rcases List.mem_cons.1 hx with hx | hx
      · simp [hx, hk]
      · have := h1 x hx; simp at this ⊢; omega
    · split
      · rename_i h3 h4; subst h4
        exact List.pairwise_cons.2 ⟨h1, h2⟩
      · rename_i h3 h4
        refine List.pairwise_cons.2 ⟨fun x hx => ?_, ih h2⟩
        rcases Memory.mem_insert hx with hx | hx
        · simp [hx]; omega
        · exact h1 x hx

theorem Memory.wf_writeBytes {m : Memory} (h : m.wf) (a : Nat) (bs : List Byte) :
    (m.writeBytes a bs).wf := by
  induction bs generalizing m a with
  | nil => exact h
  | cons b bs ih => exact ih (m.wf_insert h a b) (a + 1)

theorem Memory.wf_loosen {m : Memory} (h : m.wf) (d a n : Nat) : (m.loosen d a n).wf := by
  induction n generalizing m a with
  | zero => exact h
  | succ n ih => exact ih (m.wf_insert h a _) (a + 1)

theorem Memory.mem_writeBytes {m : Memory} {a : Nat} {bs : List Byte} {x : Host.Cell}
    (h : x ∈ m.writeBytes a bs) : (a ≤ x.1 ∧ x.1 < a + bs.length) ∨ x ∈ m := by
  induction bs generalizing m a with
  | nil => exact .inr h
  | cons b bs ih =>
    rcases ih h with h | h
    · left; simp; omega
    · rcases Memory.mem_insert h with h | h
      · left; simp; omega
      · exact .inr h

theorem Memory.mem_loosen {m : Memory} {d a n : Nat} {x : Host.Cell}
    (h : x ∈ m.loosen d a n) : (a ≤ x.1 ∧ x.1 < a + n) ∨ x ∈ m := by
  induction n generalizing m a with
  | zero => exact .inr h
  | succ n ih =>
    rcases ih h with h | h
    · left; omega
    · rcases Memory.mem_insert h with h | h
      · left; omega
      · exact .inr h

/-- Two canonical memories that list the same bytes are the same data. -/
theorem Memory.ext_of_wf {m n : Memory} (hm : m.wf) (hn : n.wf)
    (h : ∀ a, m.lookup a = n.lookup a) : m = n := by
  have lookup_lt : ∀ (m : Memory) (a : Nat), (∀ x ∈ m, a < x.1) → m.lookup a = none := by
    intro m a
    induction m with
    | nil => intro _; rfl
    | cons y m ih =>
      intro hy
      have h1 := hy y (by simp)
      obtain ⟨k, c⟩ := y
      simp only [Memory.lookup]
      rw [if_neg (by simp at h1; omega)]
      exact ih fun x hx => hy x (List.mem_cons_of_mem _ hx)
  induction m generalizing n with
  | nil =>
    cases n with
    | nil => rfl
    | cons y n => obtain ⟨k, c⟩ := y; have := h k; simp [Memory.lookup] at this
  | cons x m ih =>
    obtain ⟨j, b⟩ := x
    cases n with
    | nil => have := h j; simp [Memory.lookup] at this
    | cons y n =>
      obtain ⟨k, c⟩ := y
      have ⟨m1, m2⟩ := List.pairwise_cons.1 hm
      have ⟨n1, n2⟩ := List.pairwise_cons.1 hn
      simp only at m1 n1
      rcases Nat.lt_trichotomy j k with hlt | rfl | hlt
      · have := h j
        rw [lookup_lt ((k, c) :: n) j (by
          intro x hx; rcases List.mem_cons.1 hx with rfl | hx
          · exact hlt
          · exact Nat.lt_trans hlt (n1 x hx))] at this
        simp [Memory.lookup] at this
      · have hb := h j
        simp [Memory.lookup] at hb
        subst hb
        rw [ih m2 n2]
        intro a
        by_cases ha : j = a
        · subst ha; rw [lookup_lt m j m1, lookup_lt n j n1]
        · have := h a; simpa [Memory.lookup, ha] using this
      · have := h k
        rw [lookup_lt ((j, b) :: m) k (by
          intro x hx; rcases List.mem_cons.1 hx with rfl | hx
          · exact hlt
          · exact Nat.lt_trans hlt (m1 x hx))] at this
        simp [Memory.lookup] at this

end Sys2Proof.Machine
end

