-- ==== Sys2Proof/Laws/Access.lean ====
section
/-! SUPPORT. What the cursor accesses and the fault entries can do, said once: each lemma lists every
answer an operation can give, so that no proof unfolds it again. -/

namespace Sys2Proof.Machine

/-! ## Byte order -/

@[simp] theorem length_leBytes (n v : Nat) : (leBytes n v).length = n := by
  induction n generalizing v with
  | zero => rfl
  | succ n ih => simp [leBytes, ih]

theorem leNat_lt (bs : List Byte) : leNat bs < 256 ^ bs.length := by
  induction bs with
  | nil => simp [leNat]
  | cons b bs ih =>
    have := b.isLt
    simp only [leNat, List.length_cons, Nat.pow_succ]
    omega

theorem leNat_leBytes (n v : Nat) : leNat (leBytes n v) = v % 256 ^ n := by
  induction n generalizing v with
  | zero => simp [leBytes, leNat, Nat.mod_one]
  | succ n ih =>
    simp only [leBytes, leNat, ih, BitVec.toNat_ofNat, Nat.mod_mod, Nat.pow_succ,
      Nat.mul_comm (256 ^ n) 256]
    rw [Nat.mod_mul]

/-! ## Free positions -/

theorem freeBetween_bounds {lo hi : Nat} (h : lo ≤ hi) (d i : Nat) :
    lo ≤ freeBetween d i lo hi ∧ freeBetween d i lo hi ≤ hi := by
  have := Nat.mod_lt (Config.freeNat d i) (show 0 < hi - lo + 1 by omega)
  unfold freeBetween
  omega

/-! ## Reading -/

/-- The cursor `c'` is `c` moved forward within its region. -/
def Moved (c c' : Cursor) : Prop := c' = { c with pos := c'.pos } ∧ c.pos ≤ c'.pos ∧ c'.pos ≤ c.limit

/-- The only way a reading access of a placed cursor can stop: a FormatError at a position between
`lo` and `hi`. -/
def FormatStop (lo hi : Nat) (e : Stop) : Prop :=
  ∃ cause p, e = .raised (.format cause p) ∧ lo ≤ p ∧ p ≤ hi

theorem Moved.limit_eq {c c' : Cursor} (h : Moved c c') : c'.limit = c.limit := by rw [h.1]

theorem Moved.placed {c c' : Cursor} (h : Moved c c') : c'.pos ≤ c'.limit := by
  rw [h.limit_eq]; exact h.2.2

theorem Moved.refl {c : Cursor} (h : c.pos ≤ c.limit) : Moved c c := ⟨rfl, Nat.le_refl _, h⟩

theorem Moved.trans {a b c : Cursor} (h : Moved a b) (k : Moved b c) : Moved a c := by
  obtain ⟨h1, h2, h3⟩ := h
  obtain ⟨k1, k2, k3⟩ := k
  refine ⟨?_, by omega, by rw [h1] at k3; exact k3⟩
  rw [k1, h1]

theorem FormatStop.mono {lo lo' hi : Nat} {e : Stop} (h : FormatStop lo' hi e) (hl : lo ≤ lo') :
    FormatStop lo hi e := by
  obtain ⟨c, p, rfl, h1, h2⟩ := h
  exact ⟨c, p, rfl, by omega, h2⟩

theorem rd8_of_lt {s : State} {c : Cursor} (cause : Cause) (h : c.pos < c.limit)
    (hm : c.pos < s.cfg.memSize) :
    rd8 s c cause = .ok (s.byteAt c.pos, { c with pos := c.pos + 1 }) := by
  unfold rd8
  rw [if_neg (by omega), if_pos hm]

theorem rd8_of_end {s : State} {c : Cursor} (cause : Cause) (h : c.limit ≤ c.pos) :
    rd8 s c cause = .error (.raised (.format cause c.pos)) := by
  unfold rd8
  rw [if_pos h]

/-- What `rd8` can answer on a placed cursor (20_memory.md R54). -/
theorem rd8_cases {s : State} {c : Cursor} (cause : Cause) (hm : c.limit ≤ s.cfg.memSize) :
    (c.pos < c.limit ∧ rd8 s c cause = .ok (s.byteAt c.pos, { c with pos := c.pos + 1 })) ∨
    (c.limit ≤ c.pos ∧ rd8 s c cause = .error (.raised (.format cause c.pos))) := by
  rcases Nat.lt_or_ge c.pos c.limit with h | h
  · exact .inl ⟨h, rd8_of_lt cause h (by omega)⟩
  · exact .inr ⟨h, rd8_of_end cause h⟩

/-- What `rdN` can answer on a placed cursor (20_memory.md R55). -/
theorem rdN_cases {s : State} {c : Cursor} (n : Nat) (hm : c.limit ≤ s.cfg.memSize) :
    (c.pos + n ≤ c.limit ∧
      rdN s c n = .ok (leNat (s.bytesAt c.pos n), { c with pos := c.pos + n })) ∨
    (c.limit < c.pos + n ∧ rdN s c n = .error (.raised (.format .truncFixed c.pos))) := by
  rcases Nat.lt_or_ge c.limit (c.pos + n) with h | h
  · exact .inr ⟨h, by unfold rdN; rw [if_pos h]⟩
  · refine .inl ⟨h, ?_⟩
    unfold rdN memRead
    rw [if_neg (by omega), if_pos (by omega)]

/-- What `skip` can answer (20_memory.md R56). -/
theorem skip_cases (c : Cursor) (n : Nat) (cause : Cause) :
    (c.pos + n ≤ c.limit ∧ skip c n cause = .ok { c with pos := c.pos + n }) ∨
    (c.limit < c.pos + n ∧ skip c n cause = .error (.raised (.format cause c.pos))) := by
  rcases Nat.lt_or_ge c.limit (c.pos + n) with h | h
  · exact .inr ⟨h, by unfold skip; rw [if_pos h]⟩
  · exact .inl ⟨h, by unfold skip; rw [if_neg (by omega)]⟩

/-! ## Writing -/

/-- The state after a store at W.POS. -/
def stored (s : State) (bs : List Byte) : State :=
  { s with mem := s.mem.writeBytes s.w.pos bs, w := { s.w with pos := s.w.pos + bs.length } }

theorem storeAtW_ok {s : State} {bs : List Byte} (h : s.w.pos + bs.length ≤ s.cfg.memSize) :
    storeAtW s bs = .ok (stored s bs) := by
  unfold storeAtW stored
  rw [if_pos (.inr h)]

/-- What `wrbytes` can answer when the writer's region lies in MEM (20_memory.md R59). -/
theorem wrbytes_cases {s : State} (bs : List Byte) (hm : s.w.limit ≤ s.cfg.memSize) :
    (s.w.pos + bs.length ≤ s.w.limit ∧ wrbytes s bs = .ok (stored s bs)) ∨
    (s.w.limit < s.w.pos + bs.length ∧ wrbytes s bs = .error (.raised .bufferTooSmall)) := by
  rcases Nat.lt_or_ge s.w.limit (s.w.pos + bs.length) with h | h
  · exact .inr ⟨h, by unfold wrbytes; rw [if_pos h]⟩
  · refine .inl ⟨h, ?_⟩
    unfold wrbytes
    rw [if_neg (by omega), storeAtW_ok (by omega)]

/-- A fixed-width field is written as its bytes (20_memory.md R58, R59). -/
theorem wrN_eq_wrbytes (s : State) (n v : Nat) : wrN s n v = wrbytes s (leBytes n v) := by
  unfold wrN wrbytes
  rw [length_leBytes]

theorem stored_byteAt (s : State) (bs : List Byte) (a : Nat) :
    (stored s bs).byteAt a =
      if s.w.pos ≤ a ∧ a < s.w.pos + bs.length then bs.getD (a - s.w.pos) 0 else s.byteAt a := by
  unfold State.byteAt stored
  simp only
  rw [Memory.lookup_writeBytes]
  split <;> rename_i h <;> split at h <;> simp_all

theorem stored_bytesAt (s : State) (bs : List Byte) :
    (stored s bs).bytesAt s.w.pos bs.length = bs := by
  apply List.ext_getElem?
  intro k
  rcases Nat.lt_or_ge k bs.length with h | h
  · rw [State.getElem_bytesAt _ _ _ _ h, stored_byteAt, if_pos (by omega)]
    simp [List.getElem?_eq_getElem h]
  · rw [List.getElem?_eq_none (by simpa using h), List.getElem?_eq_none h]

theorem stored_appends (s : State) (bs : List Byte) :
    Appends s ((stored s bs).complete .ok) bs :=
  ⟨rfl, (State.bytesAt_congr (s := stored s bs) (t := (stored s bs).complete .ok)
    fun _ _ _ => rfl).trans (stored_bytesAt s bs), fun a h => by
    show (stored s bs).byteAt a = s.byteAt a
    rw [stored_byteAt, if_neg (by omega)]⟩

/-! ## The canonical form is kept -/

/-- Reset lists nothing. -/
theorem wf_resetOf (c : Config) : (State.resetOf c).mem.wf := List.Pairwise.nil

theorem wf_reset : State.reset.mem.wf := wf_resetOf _

/-- The three writing accesses keep the form (20_memory.md R57 to R59). -/
theorem wf_wrbytes {s t : State} {bs : List Byte} (h : s.mem.wf) (e : wrbytes s bs = .ok t) : t.mem.wf := by
  unfold wrbytes storeAtW at e
  split at e
  · cases e
  · split at e
    · cases e; exact Memory.wf_writeBytes h _ _
    · cases e

theorem wf_wrN {s t : State} {n v : Nat} (h : s.mem.wf) (e : wrN s n v = .ok t) : t.mem.wf :=
  wf_wrbytes h (wrN_eq_wrbytes s n v ▸ e)

theorem wf_wr8 {s t : State} {b : Byte} (h : s.mem.wf) (e : wr8 s b = .ok t) : t.mem.wf := by
  unfold wr8 storeAtW at e
  split at e
  · cases e
  · split at e
    · cases e; exact Memory.wf_writeBytes h _ _
    · cases e

theorem wf_takeBufferTooSmall {s : State} (h : s.mem.wf) : (takeBufferTooSmall s).mem.wf :=
  Memory.wf_loosen h _ _ _

/-- A host access keeps the form, reset included. -/
theorem wf_hostAccess {s t : State} {a : HostAccess} (h : s.mem.wf) (e : hostAccess a s = .next t) : t.mem.wf := by
  cases a with
  | writeMem addr bytes =>
    simp only [hostAccess] at e
    split at e
    · cases e; exact Memory.wf_writeBytes h _ _
    · cases e
  | readMem addr =>
    simp only [hostAccess] at e
    split at e
    · cases e; exact h
    · cases e
  | readReg num => cases e; exact h
  | reset => cases e; exact wf_resetOf s.cfg

theorem wf_presentEntry {s : State} (h : s.mem.wf) (w : Nat) : (presentEntry w s).mem.wf :=
  Memory.wf_writeBytes h _ _

/-- The in-place writes of the reserve-then-patch procedure keep the form. -/
theorem wf_poke {s : State} (h : s.mem.wf) (a : Nat) (b : Byte) : (poke a b s).mem.wf :=
  Memory.wf_insert h a b

theorem wf_shiftUp (a m : Nat) {s : State} (h : s.mem.wf) : (shiftUp a m s).mem.wf := by
  induction m generalizing s with
  | zero => exact h
  | succ m ih => exact ih (wf_poke h _ _)

/-! ## Fault entries -/

theorem takeBufferTooSmall_overran {s : State} (h : s.w.pos ≤ s.w.limit) :
    Overran s (takeBufferTooSmall s) := by
  have hb := freeBetween_bounds h s.draws 0
  refine ⟨rfl, hb.1, hb.2, fun a ha => ?_⟩
  unfold State.byteAt
  simp only [takeBufferTooSmall_mem, takeBufferTooSmall_memEpoch]
  rw [Memory.lookup_loosen _ _ _ _ _ (by omega)]

theorem State.viewAt_set (s : State) (k j : Nat) (v : View) :
    (s.views.set k v).getD j View.empty =
      if j = k ∧ k < s.views.length then v else s.viewAt j := by
  unfold State.viewAt
  simp only [List.getD_eq_getElem?_getD, List.getElem?_set]
  by_cases h : k = j
  · subst h
    by_cases h2 : k < s.views.length <;> simp [h2]
  · simp [h, Ne.symm h]

theorem takeFormat_malformed {s : State} (cause : Cause) (pos : Nat) (slot : Option Nat)
    (h : s.r.start ≤ s.r.limit) :
    Malformed s (takeFormat cause pos slot s) (causeCode cause) pos slot := by
  have hb := freeBetween_bounds h s.draws 0
  refine ⟨rfl, hb.1, hb.2, ?_, ?_, ?_⟩
  · cases slot <;> simp
  · intro j hj
    cases slot with
    | none => rfl
    | some k =>
      show ((takeFormat cause pos (some k) s).views).getD j View.empty = _
      rw [takeFormat_views_some, State.viewAt_set, if_neg]
      rintro ⟨rfl, -⟩
      exact hj rfl
  · rintro k rfl
    by_cases hk : k < s.views.length
    · have : ((takeFormat cause pos (some k) s).viewAt k) = ruinedView s.cfg.aw s.draws := by
        show ((takeFormat cause pos (some k) s).views).getD k View.empty = _
        rw [takeFormat_views_some, State.viewAt_set, if_pos ⟨rfl, hk⟩]
      rw [this]
      exact ⟨rfl, rfl⟩
    · have : ((takeFormat cause pos (some k) s).viewAt k) = View.empty := by
        show ((takeFormat cause pos (some k) s).views).getD k View.empty = _
        rw [takeFormat_views_some, List.getD_eq_getElem?_getD, List.getElem?_eq_none (by simpa using hk)]
        rfl
      rw [this]
      exact ⟨rfl, rfl⟩

/-! ## The envelope -/

theorem writerData_notInit {s : State} {body} (h : s.w.init = false) :
    writerData s body = .next (rejected s 2) := by
  simp [writerData, h, rejected, State.reject, statusCode, reasonCode]

theorem writerData_pending {s : State} {body} (h : s.w.init = true) (h' : s.w.errKind ≠ 0) :
    writerData s body = .next (rejected s 3) := by
  have hp : s.w.pending = true := decide_eq_true h'
  simp [writerData, h, hp, rejected, State.reject, statusCode, reasonCode]

theorem writerData_ready {s : State} {body} (h : WriterReady s) :
    writerData s body =
      match body with
      | .error why => .next (s.reject why)
      | .ok m => finish s none m := by
  have hp : s.w.pending = false := decide_eq_false (not_not_intro h.2)
  simp only [writerData, h.1, hp]
  rfl

theorem readerReady_notInit {s : State} {k : Result} (h : s.r.init = false) :
    readerReady s k = .next (rejected s 2) := by
  simp [readerReady, h, rejected, State.reject, statusCode, reasonCode]

theorem readerReady_pending {s : State} {k : Result} (h : s.r.init = true) (h' : s.r.errKind ≠ 0) :
    readerReady s k = .next (rejected s 3) := by
  have hp : s.r.pending = true := decide_eq_true h'
  simp [readerReady, h, hp, rejected, State.reject, statusCode, reasonCode]

theorem readerReady_ready {s : State} {k : Result} (h : ReaderReady s) : readerReady s k = k := by
  have hp : s.r.pending = false := decide_eq_false (not_not_intro h.2)
  simp [readerReady, h.1, hp]

theorem viewCommand_holds {s : State} {vs : Byte} {v : View} {body : View → Result}
    (h : Holds s vs v) : viewCommand s vs body = body v := by
  obtain ⟨h1, rfl, h3⟩ := h
  unfold viewCommand
  rw [if_neg (by omega), if_neg (by simp [h3])]

end Sys2Proof.Machine
end

