-- ==== Sys2Proof/Laws/Varint.lean ====
section
/-! SUPPORT. What the two varint decoders can answer, said once. -/

namespace Sys2Proof.Machine


/-- Adding a group with OR is adding it as a digit, while the lower groups fit below it. -/
theorem lor_group_eq_add (res g k : Nat) (h : res < 2 ^ (7 * k)) : res ||| (g <<< (7 * k)) = res + 2 ^ (7 * k) * g := by
  rw [Nat.or_comm, ← Nat.shiftLeft_add_eq_or_of_lt h, Nat.shiftLeft_eq]; ring

/-- Bit 7 of a byte is set exactly from 128 up. -/
theorem continuation_bit (b : Byte) : b.getLsbD 7 = decide (128 ≤ b.toNat) := by
  revert b; decide

/-- The first of the bytes read, and the rest. -/
theorem bytesAt_cons {s : State} {a n : Nat} {b : Byte} {bs : List Byte} (h : s.bytesAt a n = b :: bs) :
    n = bs.length + 1 ∧ s.byteAt a = b ∧ s.bytesAt (a + 1) bs.length = bs := by
  cases n with
  | zero => simp [State.bytesAt] at h
  | succ n =>
    simp only [State.bytesAt, List.cons.injEq] at h
    have : bs.length = n := by rw [← h.2]; simp
    refine ⟨by omega, h.1, by rw [this]; exact h.2⟩

/-- What may follow when a varint can still have `fuel` bytes. -/
def VarintTail (fuel : Nat) (bs : List Byte) : Prop :=
  bs ≠ [] ∧ bs.length ≤ fuel ∧ (∀ b ∈ bs.dropLast, 128 ≤ b.toNat) ∧ (bs.getLastD 0).toNat < 128

/-- A varint of two bytes or more: its first byte continues, and the rest is a varint. -/
theorem VarintTail.cons {fuel : Nat} {b c : Byte} {bs : List Byte} (h : VarintTail (fuel+1) (b :: c :: bs)) :
    128 ≤ b.toNat ∧ VarintTail fuel (c :: bs) := by
  obtain ⟨_, h2, h3, h4⟩ := h
  refine ⟨h3 b (by simp), by simp, by simp at h2 ⊢; omega, fun x hx => h3 x ?_, by simpa using h4⟩
  simp only [List.dropLast_cons_cons, List.mem_cons]; exact .inr hx

/-- `udec` on the rest of an accepted varint. -/
theorem udecFrom_ok {s : State} :
    ∀ (fuel k res : Nat) (c : Cursor) (bs : List Byte), fuel + k = 10 → res < 2 ^ (7 * k) →
      VarintTail fuel bs → (bs.length = fuel → (bs.getLastD 0).toNat ≤ 1) → c.limit ≤ s.cfg.memSize →
      c.pos + bs.length ≤ c.limit → s.bytesAt c.pos bs.length = bs →
      udecFrom s fuel k res c = .ok (res + 2 ^ (7 * k) * groups bs, { c with pos := c.pos + bs.length }) := by
  intro fuel
  induction fuel with
  | zero => intro k res c bs _ _ h; have := h.2.1; have := h.1; cases bs <;> simp at *
  | succ fuel ih =>
    intro k res c bs hk hr h ht hm hl hb
    match bs, h with
    | [b], h =>
      have hb' := bytesAt_cons hb
      have hlast : b.toNat < 128 := by simpa using h.2.2.2
      simp only [udecFrom]
      rw [rd8_of_lt _ (by simp at hl; omega) (by simp at hl; omega)]
      simp only [hb'.2.1, continuation_bit]
      have : ¬ (128 ≤ b.toNat) := by omega
      rw [if_neg]
      · simp [this, lor_group_eq_add _ _ _ hr, groups]
      · rintro ⟨rfl, h1⟩
        have : fuel = 0 := by omega
        subst this
        have := ht (by simp)
        simp at this
        rcases h1 with h1 | h1
        · omega
        · simp at h1; omega
    | b :: d :: bs, h =>
      have hb' := bytesAt_cons hb
      obtain ⟨h1, h2⟩ := h.cons
      simp only [udecFrom]
      simp only [List.length_cons] at hl
      rw [rd8_of_lt _ (by omega) (by omega)]
      simp only [hb'.2.1, continuation_bit]
      have hf : 0 < fuel := by have := h2.2.1; simp at this; omega
      rw [if_neg (by omega)]
      have hg : b.toNat % 128 < 128 := Nat.mod_lt _ (by omega)
      simp only [h1, decide_true, if_true]
      rw [ih (k+1) _ { c with pos := c.pos + 1 } (d :: bs) (by omega) _ h2 _ hm _ hb'.2.2]
      · rw [lor_group_eq_add _ _ _ hr]
        congr 1
        have e : 2 ^ (7 * (k+1)) = 2 ^ (7*k) * 128 := by rw [Nat.mul_add, Nat.pow_add]
        rw [Prod.mk.injEq]; constructor
        · rw [e, show groups (b :: d :: bs) = b.toNat % 128 + 128 * groups (d :: bs) from rfl]; ring
        · simp only [List.length_cons, Nat.add_assoc, Nat.add_comm 1]
      · rw [lor_group_eq_add _ _ _ hr, show 2 ^ (7 * (k+1)) = 2 ^ (7*k) * 128 by rw [Nat.mul_add, Nat.pow_add]]
        nlinarith [Nat.two_pow_pos (7*k)]
      · intro hh; simpa using ht (by simp at hh ⊢; omega)
      · simp; omega

/-- `udec` on an accepted varint gives its value and moves past it (41_varint.md R112). -/
theorem udec_ok {s : State} {c : Cursor} {bs : List Byte} {v : Nat} (h : IsUnsigned bs v) (hm : c.limit ≤ s.cfg.memSize)
    (hl : c.pos + bs.length ≤ c.limit) (hb : s.bytesAt c.pos bs.length = bs) :
    udec s c = .ok (v, { c with pos := c.pos + bs.length }) := by
  unfold udec
  rw [udecFrom_ok 10 0 0 c bs rfl (by simp) h.1 h.2.1 hm hl hb]
  simp [h.2.2]

/-- `udec` where the region ends inside the varint. -/
theorem udecFrom_cut {s : State} : ∀ (fuel k res : Nat) (c : Cursor), c.limit ≤ s.cfg.memSize → fuel + k = 10 →
    c.pos ≤ c.limit → c.limit < c.pos + fuel → (∀ x, c.pos ≤ x → x < c.limit → 128 ≤ (s.byteAt x).toNat) →
    udecFrom s fuel k res c = .error (.raised (.format .truncVarint c.limit)) := by
  intro fuel
  induction fuel with
  | zero => intros; omega
  | succ fuel ih =>
    intro k res c hm hk h1 h2 h3
    simp only [udecFrom]
    rcases rd8_cases (s := s) (c := c) .truncVarint hm with ⟨h, e⟩ | ⟨h, e⟩
    · rw [e]
      have hb := h3 c.pos (by omega) h
      simp only [continuation_bit, hb, decide_true, if_true]
      rw [if_neg (by omega)]
      exact ih _ _ _ hm (by omega) (by simp; omega) (by simp; omega) (fun x hx hx' => h3 x (by simp at hx; omega) hx')
    · rw [e]; simp; omega

/-- `udec` where the last byte a varint may have is turned away (41_varint.md R114). -/
theorem udecFrom_wide {s : State} : ∀ (fuel k res : Nat) (c : Cursor), c.limit ≤ s.cfg.memSize → fuel + 1 + k = 10 →
    c.pos + fuel + 1 ≤ c.limit → (∀ x, c.pos ≤ x → x < c.pos + fuel → 128 ≤ (s.byteAt x).toNat) →
    2 ≤ (s.byteAt (c.pos + fuel)).toNat →
    udecFrom s (fuel+1) k res c = .error (.raised (.format .varintRange (c.pos + fuel))) := by
  intro fuel
  induction fuel with
  | zero =>
    intro k res c hm hk h2 h3 h4
    simp only [udecFrom]
    rw [rd8_of_lt _ (by omega) (by omega)]
    simp only [continuation_bit]
    rw [if_pos]; rfl
    refine ⟨by omega, ?_⟩
    have := (s.byteAt c.pos).isLt
    simp at h4 ⊢
    omega
  | succ fuel ih =>
    intro k res c hm hk h2 h3 h4
    rw [udecFrom]
    rw [rd8_of_lt _ (by omega) (by omega)]
    have hb := h3 c.pos (by omega) (by omega)
    simp only [continuation_bit, hb, decide_true, if_true]
    rw [if_neg (by omega)]
    refine (ih (k+1) _ { c with pos := c.pos + 1 } hm (by omega) (by simp; omega)
      (fun x hx hx' => h3 x (by simp at hx; omega) (by simp at hx'; omega))
      (by simpa [Nat.add_assoc, Nat.add_comm 1] using h4)).trans ?_
    simp; omega

/-- The three ways a varint can stand at a position. -/
theorem varint_cases (s : State) (limit : Nat) : ∀ (fuel p : Nat), p ≤ limit → 0 < fuel →
    (∃ bs, VarintTail fuel bs ∧ p + bs.length ≤ limit ∧ s.bytesAt p bs.length = bs) ∨
    (limit < p + fuel ∧ ∀ x, p ≤ x → x < limit → 128 ≤ (s.byteAt x).toNat) ∨
    (p + fuel ≤ limit ∧ ∀ x, p ≤ x → x < p + fuel → 128 ≤ (s.byteAt x).toNat) := by
  intro fuel
  induction fuel with
  | zero => intros; omega
  | succ fuel ih =>
    intro p hp _
    rcases Nat.lt_or_ge p limit with h | h
    · rcases Nat.lt_or_ge (s.byteAt p).toNat 128 with hb | hb
      · exact .inl ⟨[s.byteAt p], ⟨by simp, by simp, by simp, by simpa using hb⟩, by simpa using h, by simp [State.bytesAt]⟩
      · rcases Nat.eq_zero_or_pos fuel with hf | hf
        · subst hf
          exact .inr (.inr ⟨h, fun x h1 h2 => by rwa [show x = p by omega]⟩)
        · rcases ih (p+1) h hf with ⟨bs, h1, h2, h3⟩ | ⟨h1, h2⟩ | ⟨h1, h2⟩
          · refine .inl ⟨s.byteAt p :: bs, ⟨by simp, by have := h1.2.1; simp; omega, ?_, ?_⟩, by simp; omega, ?_⟩
            · obtain ⟨b, bs, rfl⟩ := List.exists_cons_of_ne_nil h1.1
              intro x hx
              simp only [List.dropLast_cons_cons, List.mem_cons] at hx
              rcases hx with rfl | hx
              · exact hb
              · exact h1.2.2.1 x hx
            · obtain ⟨b, bs, rfl⟩ := List.exists_cons_of_ne_nil h1.1
              simpa using h1.2.2.2
            · simp [State.bytesAt, h3]
          · exact .inr (.inl ⟨by omega, fun x hx hx' => by
              rcases Nat.lt_or_eq_of_le hx with hx | rfl
              · exact h2 x hx hx'
              · exact hb⟩)
          · exact .inr (.inr ⟨by omega, fun x hx hx' => by
              rcases Nat.lt_or_eq_of_le hx with hx | rfl
              · exact h2 x hx (by omega)
              · exact hb⟩)
    · exact .inr (.inl ⟨by omega, fun x _ _ => by omega⟩)


/-- `sdec` on the rest of an accepted varint. -/
theorem sdecFrom_ok {s : State} :
    ∀ (fuel k res : Nat) (c : Cursor) (bs : List Byte), fuel + k = 10 → res < 2 ^ (7 * k) →
      VarintTail fuel bs → (bs.length = fuel → bs.getLastD 0 = 0x00 ∨ bs.getLastD 0 = 0x7F) → c.limit ≤ s.cfg.memSize →
      c.pos + bs.length ≤ c.limit → s.bytesAt c.pos bs.length = bs →
      sdecFrom s fuel k res c = .ok (((res + 2 ^ (7 * k) * groups bs : Nat) : Int) -
        (if 64 ≤ (bs.getLastD 0).toNat then 2 ^ (7 * (k + bs.length)) else 0), { c with pos := c.pos + bs.length }) := by
  intro fuel
  induction fuel with
  | zero => intro k res c bs _ _ h; have := h.2.1; have := h.1; cases bs <;> simp at *
  | succ fuel ih =>
    intro k res c bs hk hr h ht hm hl hb
    match bs, h with
    | [b], h =>
      have hb' := bytesAt_cons hb
      have hlast : b.toNat < 128 := by simpa using h.2.2.2
      simp only [sdecFrom]
      rw [rd8_of_lt _ (by simp at hl; omega) (by simp at hl; omega)]
      simp only [hb'.2.1, continuation_bit]
      have : ¬ (128 ≤ b.toNat) := by omega
      rw [if_neg]
      · have hb64 : b.toNat % 128 = b.toNat := Nat.mod_eq_of_lt hlast
        simp only [this, decide_false, hb64, lor_group_eq_add _ _ _ hr, groups, List.length_singleton]
        by_cases h64 : 64 ≤ b.toNat
        · simp [h64, Nat.mul_add]
        · simp [h64]
      · rintro ⟨rfl, h1⟩
        have : fuel = 0 := by omega
        subst this
        have := ht (by simp)
        simp at this
        rcases this with rfl | rfl <;> simp at h1
    | b :: d :: bs, h =>
      have hb' := bytesAt_cons hb
      obtain ⟨h1, h2⟩ := h.cons
      simp only [sdecFrom]
      simp only [List.length_cons] at hl
      rw [rd8_of_lt _ (by omega) (by omega)]
      simp only [hb'.2.1, continuation_bit]
      have hf : 0 < fuel := by have := h2.2.1; simp at this; omega
      rw [if_neg (by omega)]
      have hg : b.toNat % 128 < 128 := Nat.mod_lt _ (by omega)
      simp only [h1, decide_true, if_true]
      have e : 2 ^ (7 * (k+1)) = 2 ^ (7*k) * 128 := by rw [Nat.mul_add, Nat.pow_add]
      rw [ih (k+1) _ { c with pos := c.pos + 1 } (d :: bs) (by omega) _ h2 _ hm _ hb'.2.2]
      · rw [lor_group_eq_add _ _ _ hr]
        congr 1
        rw [Prod.mk.injEq]; constructor
        · rw [e, show groups (b :: d :: bs) = b.toNat % 128 + 128 * groups (d :: bs) from rfl]
          have : k + 1 + (d :: bs).length = k + (b :: d :: bs).length := by simp; omega
          rw [this]
          simp only [List.getLastD_cons]
          congr 1
          push_cast; ring
        · simp only [List.length_cons, Nat.add_assoc, Nat.add_comm 1]
      · rw [lor_group_eq_add _ _ _ hr, e]
        nlinarith [Nat.two_pow_pos (7*k)]
      · intro hh; simpa using ht (by simp at hh ⊢; omega)
      · simp; omega

/-- `sdec` on an accepted varint gives its value and moves past it (41_varint.md R113). -/
theorem sdec_ok {s : State} {c : Cursor} {bs : List Byte} {v : Int} (h : IsSigned bs v) (hm : c.limit ≤ s.cfg.memSize)
    (hl : c.pos + bs.length ≤ c.limit) (hb : s.bytesAt c.pos bs.length = bs) :
    sdec s c = .ok (v, { c with pos := c.pos + bs.length }) := by
  unfold sdec
  rw [sdecFrom_ok 10 0 0 c bs rfl (by simp) h.1 h.2.1 hm hl hb]
  simp [h.2.2]

/-- `sdec` where the region ends inside the varint. -/
theorem sdecFrom_cut {s : State} : ∀ (fuel k res : Nat) (c : Cursor), c.limit ≤ s.cfg.memSize → fuel + k = 10 →
    c.pos ≤ c.limit → c.limit < c.pos + fuel → (∀ x, c.pos ≤ x → x < c.limit → 128 ≤ (s.byteAt x).toNat) →
    sdecFrom s fuel k res c = .error (.raised (.format .truncVarint c.limit)) := by
  intro fuel
  induction fuel with
  | zero => intros; omega
  | succ fuel ih =>
    intro k res c hm hk h1 h2 h3
    simp only [sdecFrom]
    rcases rd8_cases (s := s) (c := c) .truncVarint hm with ⟨h, e⟩ | ⟨h, e⟩
    · rw [e]
      have hb := h3 c.pos (by omega) h
      simp only [continuation_bit, hb, decide_true, if_true]
      rw [if_neg (by omega)]
      exact ih _ _ _ hm (by omega) (by simp; omega) (by simp; omega) (fun x hx hx' => h3 x (by simp at hx; omega) hx')
    · rw [e]; simp; omega

/-- `sdec` where the last byte a varint may have is turned away (41_varint.md R114). -/
theorem sdecFrom_wide {s : State} : ∀ (fuel k res : Nat) (c : Cursor), c.limit ≤ s.cfg.memSize → fuel + 1 + k = 10 →
    c.pos + fuel + 1 ≤ c.limit → (∀ x, c.pos ≤ x → x < c.pos + fuel → 128 ≤ (s.byteAt x).toNat) →
    s.byteAt (c.pos + fuel) ≠ 0x00 → s.byteAt (c.pos + fuel) ≠ 0x7F →
    sdecFrom s (fuel+1) k res c = .error (.raised (.format .varintRange (c.pos + fuel))) := by
  intro fuel
  induction fuel with
  | zero =>
    intro k res c hm hk h2 h3 h4 h5
    simp only [sdecFrom]
    rw [rd8_of_lt _ (by omega) (by omega)]
    simp only [continuation_bit]
    rw [if_pos]; rfl
    refine ⟨by omega, ?_⟩
    have := (s.byteAt c.pos).isLt
    have n1 : (s.byteAt c.pos).toNat ≠ 0 := fun e => h4 (BitVec.eq_of_toNat_eq (by simpa using e))
    have n2 : (s.byteAt c.pos).toNat ≠ 127 := fun e => h5 (BitVec.eq_of_toNat_eq (by simpa using e))
    simp
    omega
  | succ fuel ih =>
    intro k res c hm hk h2 h3 h4 h5
    rw [sdecFrom]
    rw [rd8_of_lt _ (by omega) (by omega)]
    have hb := h3 c.pos (by omega) (by omega)
    simp only [continuation_bit, hb, decide_true, if_true]
    rw [if_neg (by omega)]
    refine (ih (k+1) _ { c with pos := c.pos + 1 } hm (by omega) (by simp; omega)
      (fun x hx hx' => h3 x (by simp at hx; omega) (by simp at hx'; omega))
      (by simpa [Nat.add_assoc, Nat.add_comm 1] using h4) (by simpa [Nat.add_assoc, Nat.add_comm 1] using h5)).trans ?_
    simp; omega

/-- Everything `udec` can answer in a region of MEM (41_varint.md R112, R114). -/
theorem udec_cases (s : State) (c : Cursor) (hm : c.limit ≤ s.cfg.memSize) (hp : c.pos ≤ c.limit) :
    (∃ bs v, IsUnsigned bs v ∧ c.pos + bs.length ≤ c.limit ∧ s.bytesAt c.pos bs.length = bs ∧
      udec s c = .ok (v, { c with pos := c.pos + bs.length })) ∨
    (c.limit < c.pos + 10 ∧ (∀ x, c.pos ≤ x → x < c.limit → 128 ≤ (s.byteAt x).toNat) ∧
      udec s c = .error (.raised (.format .truncVarint c.limit))) ∨
    (c.pos + 10 ≤ c.limit ∧ (∀ x, c.pos ≤ x → x < c.pos + 9 → 128 ≤ (s.byteAt x).toNat) ∧
      2 ≤ (s.byteAt (c.pos + 9)).toNat ∧
      udec s c = .error (.raised (.format .varintRange (c.pos + 9)))) := by
  have wide : c.pos + 10 ≤ c.limit → (∀ x, c.pos ≤ x → x < c.pos + 9 → 128 ≤ (s.byteAt x).toNat) →
      2 ≤ (s.byteAt (c.pos + 9)).toNat → udec s c = .error (.raised (.format .varintRange (c.pos + 9))) :=
    fun h1 h2 h3 => udecFrom_wide 9 0 0 c hm rfl (by omega) h2 h3
  rcases varint_cases s c.limit 10 c.pos hp (by omega) with ⟨bs, h1, h2, h3⟩ | ⟨h1, h2⟩ | ⟨h1, h2⟩
  · by_cases h4 : bs.length = 10 → (bs.getLastD 0).toNat ≤ 1
    · exact .inl ⟨bs, _, ⟨h1, h4, rfl⟩, h2, h3, udec_ok ⟨h1, h4, rfl⟩ hm h2 h3⟩
    · push Not at h4
      obtain ⟨h4, h5⟩ := h4
      refine .inr (.inr ?_)
      have key : ∀ j (hj : j < bs.length), s.byteAt (c.pos + j) = bs[j] := by
        intro j hj
        have := State.getElem_bytesAt s c.pos bs.length j hj
        rw [h3, List.getElem?_eq_getElem hj] at this
        exact (Option.some.inj this).symm
      have e1 : ∀ x, c.pos ≤ x → x < c.pos + 9 → 128 ≤ (s.byteAt x).toNat := by
        intro x hx hx'
        obtain ⟨j, rfl⟩ := Nat.exists_eq_add_of_le hx
        rw [key j (by omega)]
        apply h1.2.2.1
        rw [List.mem_iff_getElem]
        exact ⟨j, by simp; omega, by simp⟩
      have e2 : 2 ≤ (s.byteAt (c.pos + 9)).toNat := by
        rw [key 9 (by omega)]
        rw [List.getLastD_eq_getLast?, List.getLast?_eq_getElem?, h4, List.getElem?_eq_getElem (by omega)] at h5
        exact h5
      exact ⟨by omega, e1, e2, wide (by omega) e1 e2⟩
  · exact .inr (.inl ⟨h1, h2, udecFrom_cut 10 0 0 c hm rfl hp h1 h2⟩)
  · have e1 : ∀ x, c.pos ≤ x → x < c.pos + 9 → 128 ≤ (s.byteAt x).toNat := fun x hx hx' => h2 x hx (by omega)
    have e2 : 2 ≤ (s.byteAt (c.pos + 9)).toNat := by have := h2 (c.pos + 9) (by omega) (by omega); omega
    exact .inr (.inr ⟨h1, e1, e2, wide h1 e1 e2⟩)

/-- Everything `sdec` can answer in a region of MEM (41_varint.md R113, R114). -/
theorem sdec_cases (s : State) (c : Cursor) (hm : c.limit ≤ s.cfg.memSize) (hp : c.pos ≤ c.limit) :
    (∃ bs v, IsSigned bs v ∧ c.pos + bs.length ≤ c.limit ∧ s.bytesAt c.pos bs.length = bs ∧
      sdec s c = .ok (v, { c with pos := c.pos + bs.length })) ∨
    (c.limit < c.pos + 10 ∧ (∀ x, c.pos ≤ x → x < c.limit → 128 ≤ (s.byteAt x).toNat) ∧
      sdec s c = .error (.raised (.format .truncVarint c.limit))) ∨
    (c.pos + 10 ≤ c.limit ∧ (∀ x, c.pos ≤ x → x < c.pos + 9 → 128 ≤ (s.byteAt x).toNat) ∧
      s.byteAt (c.pos + 9) ≠ 0x00 ∧ s.byteAt (c.pos + 9) ≠ 0x7F ∧
      sdec s c = .error (.raised (.format .varintRange (c.pos + 9)))) := by
  have wide : c.pos + 10 ≤ c.limit → (∀ x, c.pos ≤ x → x < c.pos + 9 → 128 ≤ (s.byteAt x).toNat) →
      s.byteAt (c.pos + 9) ≠ 0x00 → s.byteAt (c.pos + 9) ≠ 0x7F →
      sdec s c = .error (.raised (.format .varintRange (c.pos + 9))) :=
    fun h1 h2 h3 h4 => sdecFrom_wide 9 0 0 c hm rfl (by omega) h2 h3 h4
  rcases varint_cases s c.limit 10 c.pos hp (by omega) with ⟨bs, h1, h2, h3⟩ | ⟨h1, h2⟩ | ⟨h1, h2⟩
  · by_cases h4 : bs.length = 10 → bs.getLastD 0 = 0x00 ∨ bs.getLastD 0 = 0x7F
    · exact .inl ⟨bs, _, ⟨h1, h4, rfl⟩, h2, h3, sdec_ok ⟨h1, h4, rfl⟩ hm h2 h3⟩
    · push Not at h4
      obtain ⟨h4, h5, h6⟩ := h4
      refine .inr (.inr ?_)
      have key : ∀ j (hj : j < bs.length), s.byteAt (c.pos + j) = bs[j] := by
        intro j hj
        have := State.getElem_bytesAt s c.pos bs.length j hj
        rw [h3, List.getElem?_eq_getElem hj] at this
        exact (Option.some.inj this).symm
      have e1 : ∀ x, c.pos ≤ x → x < c.pos + 9 → 128 ≤ (s.byteAt x).toNat := by
        intro x hx hx'
        obtain ⟨j, rfl⟩ := Nat.exists_eq_add_of_le hx
        rw [key j (by omega)]
        apply h1.2.2.1
        rw [List.mem_iff_getElem]
        exact ⟨j, by simp; omega, by simp⟩
      have e : bs.getLastD 0 = s.byteAt (c.pos + 9) := by
        have := key 9 (by omega)
        rw [List.getLastD_eq_getLast?, List.getLast?_eq_getElem?, this]
        simp [h4]
      rw [e] at h5 h6
      exact ⟨by omega, e1, h5, h6, wide (by omega) e1 h5 h6⟩
  · exact .inr (.inl ⟨h1, h2, sdecFrom_cut 10 0 0 c hm rfl hp h1 h2⟩)
  · have e1 : ∀ x, c.pos ≤ x → x < c.pos + 9 → 128 ≤ (s.byteAt x).toNat := fun x hx hx' => h2 x hx (by omega)
    have e2 := h2 (c.pos + 9) (by omega) (by omega)
    have e3 : s.byteAt (c.pos + 9) ≠ 0x00 := by intro e; rw [e] at e2; simp at e2
    have e4 : s.byteAt (c.pos + 9) ≠ 0x7F := by intro e; rw [e] at e2; simp at e2
    exact .inr (.inr ⟨h1, e1, e3, e4, wide h1 e1 e3 e4⟩)

/-- An accepted unsigned varint is a 64-bit value. -/
theorem IsUnsigned.lt {bs : List Byte} {v : Nat} (h : IsUnsigned bs v) : v < 2 ^ 64 := by
  have key : ∀ (fuel : Nat) (bs : List Byte), VarintTail fuel bs → groups bs < 2 ^ (7 * bs.length) ∧
      (bs.length = fuel → (bs.getLastD 0).toNat ≤ 1 → groups bs < 2 ^ (7 * (fuel - 1) + 1)) := by
    intro fuel
    induction fuel with
    | zero => intro bs h; have := h.2.1; have := h.1; cases bs <;> simp at *
    | succ fuel ih =>
      intro bs h
      match bs, h with
      | [b], h =>
        have hb : b.toNat < 128 := by simpa using h.2.2.2
        simp [groups]
        constructor
        · omega
        · intro hf hb; subst hf; simp; omega
      | b :: d :: bs, h =>
        obtain ⟨h1, h2⟩ := h.cons
        obtain ⟨i1, i2⟩ := ih _ h2
        have hg : groups (b :: d :: bs) = b.toNat % 128 + 128 * groups (d :: bs) := rfl
        have hm := Nat.mod_lt b.toNat (show 0 < 128 by omega)
        constructor
        · rw [hg, show 2 ^ (7 * (b :: d :: bs).length) = 2 ^ (7 * (d :: bs).length) * 128 by
            rw [List.length_cons, Nat.mul_add, Nat.pow_add]]
          omega
        · intro hl ht
          have hf : 0 < fuel := by have := h2.2.1; simp at this; omega
          have := i2 (by simp at hl ⊢; omega) (by simpa using ht)
          obtain ⟨f, rfl⟩ : ∃ f, fuel = f + 1 := ⟨fuel - 1, by omega⟩
          rw [hg]
          have e : 2 ^ (7 * (f + 1 + 1 - 1) + 1) = 2 ^ (7 * (f + 1 - 1) + 1) * 128 := by
            rw [show 7 * (f + 1 + 1 - 1) + 1 = (7 * (f + 1 - 1) + 1) + 7 by omega, Nat.pow_add]
          omega
  obtain ⟨k1, k2⟩ := key 10 bs h.1
  rw [h.2.2]
  rcases Nat.lt_or_ge bs.length 10 with hl | hl
  · exact Nat.lt_of_lt_of_le k1 (Nat.pow_le_pow_right (by omega) (by omega))
  · have : bs.length = 10 := by have := h.1.2.1; omega
    exact k2 this (h.2.1 this)

/-- A varint has a byte. -/
theorem IsUnsigned.pos {bs : List Byte} {v : Nat} (h : IsUnsigned bs v) : 1 ≤ bs.length := by
  have := h.1.1; cases bs <;> simp at *

/-- A signed varint has a byte. -/
theorem IsSigned.pos {bs : List Byte} {v : Int} (h : IsSigned bs v) : 1 ≤ bs.length := by
  have := h.1.1; cases bs <;> simp at *

/-- Bytes read in one are the bytes of their parts. -/
theorem bytesAt_append {s : State} {p : Nat} {xs ys : List Byte}
    (h : s.bytesAt p (xs ++ ys).length = xs ++ ys) :
    s.bytesAt p xs.length = xs ∧ s.bytesAt (p + xs.length) ys.length = ys := by
  rw [List.length_append, State.bytesAt_add] at h
  exact List.append_inj h (by simp)

/-- `udec` moves forward in its region or raises at a position of it. -/
theorem udec_stop {s : State} {c : Cursor} (hm : c.limit ≤ s.cfg.memSize) (hp : c.pos ≤ c.limit) :
    (∃ v c', udec s c = .ok (v, c') ∧ Moved c c' ∧ c.pos < c'.pos ∧ v < 2 ^ 64) ∨
    (∃ e, udec s c = .error e ∧ FormatStop c.pos c.limit e) := by
  rcases udec_cases s c hm hp with ⟨bs, v, h1, h2, h3, h4⟩ | ⟨_, _, h4⟩ | ⟨h1, _, _, h4⟩
  · exact .inl ⟨v, _, h4, ⟨rfl, by simp, h2⟩, by have := h1.pos; simp; omega, h1.lt⟩
  · exact .inr ⟨_, h4, _, _, rfl, hp, Nat.le_refl _⟩
  · exact .inr ⟨_, h4, _, _, rfl, by omega, by omega⟩

/-- `sdec` moves forward in its region or raises at a position of it. -/
theorem sdec_stop {s : State} {c : Cursor} (hm : c.limit ≤ s.cfg.memSize) (hp : c.pos ≤ c.limit) :
    (∃ v c', sdec s c = .ok (v, c') ∧ Moved c c' ∧ c.pos < c'.pos) ∨
    (∃ e, sdec s c = .error e ∧ FormatStop c.pos c.limit e) := by
  rcases sdec_cases s c hm hp with ⟨bs, v, h1, h2, h3, h4⟩ | ⟨_, _, h4⟩ | ⟨h1, _, _, _, h4⟩
  · exact .inl ⟨v, _, h4, ⟨rfl, by simp, h2⟩, by have := h1.pos; simp; omega⟩
  · exact .inr ⟨_, h4, _, _, rfl, hp, Nat.le_refl _⟩
  · exact .inr ⟨_, h4, _, _, rfl, by omega, by omega⟩

end Sys2Proof.Machine
end

