-- ==== Sys2Proof/Laws/Reader.lean ====
section
/-! SUPPORT. What reading an entry can answer, said once: everything it can do on any bytes, and what it
does on a well-formed entry. -/

namespace Sys2Proof.Machine

/-- A type has its own code. -/
theorem typeOfCode_some {n : Nat} {y : EntryType} (h : typeOfCode n = some y) : n = typeCode y := by
  rcases Nat.lt_or_ge n 10 with hn | hn
  · interval_cases n <;> simp [typeOfCode] at h <;> subst h <;> rfl
  · have : typeOfCode n = none := by
      unfold typeOfCode
      split <;> first | omega | rfl
    rw [this] at h; cases h

/-- The code of a type is assigned to it. -/
theorem typeOfCode_typeCode (y : EntryType) : typeOfCode (typeCode y) = some y := by cases y <;> rfl

/-- The loop over String and Binary elements gives one span of the region for each, or raises
(44_reader.md R199, R203). -/
theorem readSpans_stop {s : State} : ∀ (fuel cnt : Nat) (c : Cursor), c.limit ≤ s.cfg.memSize → c.pos ≤ c.limit →
    c.limit - c.pos < fuel →
    (∃ es c', readSpans s fuel cnt c = .ok (es, c') ∧ Moved c c' ∧ es.length = cnt ∧ cnt ≤ c'.pos - c.pos ∧
      ∀ e ∈ es, ∃ off len, e = .span off len ∧ c.pos ≤ off ∧ off + len ≤ c.limit) ∨
    (∃ e, readSpans s fuel cnt c = .error e ∧ FormatStop c.pos c.limit e) := by
  intro fuel
  induction fuel with
  | zero => intros; omega
  | succ fuel ih =>
    intro cnt c hm hp hf
    rw [readSpans]
    by_cases h0 : cnt = 0
    · rw [if_pos h0]
      exact .inl ⟨[], c, rfl, Moved.refl hp, by simp [h0], by omega, by simp⟩
    · rw [if_neg h0]
      rcases udec_stop hm hp with ⟨len, c1, e1, m1, l1, _⟩ | ⟨e, e1, f1⟩
      · rw [e1]; simp only
        rcases skip_cases c1 len .truncBytes with ⟨k1, k2⟩ | ⟨k1, k2⟩
        · rw [k2]; simp only
          have m2 : Moved c1 { c1 with pos := c1.pos + len } := ⟨rfl, by simp, k1⟩
          have hl := m1.limit_eq
          rcases ih (cnt - 1) { c1 with pos := c1.pos + len } (by simp; omega) (by simpa using k1) (by simp; omega) with
            ⟨es, c', e3, m3, h3, h5, h4⟩ | ⟨e, e3, f3⟩
          · rw [e3]
            refine .inl ⟨_, _, rfl, (m1.trans m2).trans m3, by simp; omega, ?_, ?_⟩
            · have := m3.2.1; simp at h5 this; omega
            · intro e he
              rcases List.mem_cons.1 he with rfl | he
              · exact ⟨_, _, rfl, by omega, by omega⟩
              · obtain ⟨o, l, rfl, h6, h7⟩ := h4 e he
                exact ⟨o, l, rfl, by simp at h6; omega, by simp at h7; omega⟩
          · rw [e3]; refine .inr ⟨_, rfl, ?_⟩
            have := f3.mono (lo := c.pos) (by simp; omega)
            simpa [hl] using this
        · rw [k2]
          have := m1.limit_eq
          have := m1.2.2
          exact .inr ⟨_, rfl, _, _, rfl, by omega, by omega⟩
      · rw [e1]; exact .inr ⟨_, rfl, f1⟩

/-- The loop over Varint elements gives one value for each, or raises (44_reader.md R200, R203). -/
theorem readVals_stop {s : State} : ∀ (fuel cnt : Nat) (c : Cursor), c.limit ≤ s.cfg.memSize → c.pos ≤ c.limit →
    c.limit - c.pos < fuel →
    (∃ es c', readVals s fuel cnt c = .ok (es, c') ∧ Moved c c' ∧ es.length = cnt ∧ cnt ≤ c'.pos - c.pos ∧
      ∀ e ∈ es, ∃ x, e = .val x) ∨
    (∃ e, readVals s fuel cnt c = .error e ∧ FormatStop c.pos c.limit e) := by
  intro fuel
  induction fuel with
  | zero => intros; omega
  | succ fuel ih =>
    intro cnt c hm hp hf
    rw [readVals]
    by_cases h0 : cnt = 0
    · rw [if_pos h0]
      exact .inl ⟨[], c, rfl, Moved.refl hp, by simp [h0], by omega, by simp⟩
    · rw [if_neg h0]
      unfold sdecWord
      rcases sdec_stop hm hp with ⟨v, c1, e1, m1, l1⟩ | ⟨e, e1, f1⟩
      · rw [e1]; simp only
        have hl := m1.limit_eq
        rcases ih (cnt - 1) c1 (by omega) m1.placed (by have := m1.2.2; omega) with
            ⟨es, c', e3, m3, h3, h5, h4⟩ | ⟨e, e3, f3⟩
        · rw [e3]
          refine .inl ⟨_, _, rfl, m1.trans m3, by simp; omega, by have := m3.2.1; omega, ?_⟩
          intro e he
          rcases List.mem_cons.1 he with rfl | he
          · exact ⟨_, rfl⟩
          · exact h4 e he
        · rw [e3]; refine .inr ⟨_, rfl, ?_⟩
          have := f3.mono (lo := c.pos) (by omega)
          simpa [hl] using this
      · rw [e1]; exact .inr ⟨_, rfl, f1⟩

/-- The tag and the count are read in the region, or raise (44_reader.md R194 to R196). -/
theorem readHead_stop {s : State} {arr : Bool} {il : BitVec 3} {e0 : Nat} {c : Cursor} (hm : c.limit ≤ s.cfg.memSize)
    (hp : c.pos ≤ c.limit) (he : e0 ≤ c.pos) :
    (∃ toff tlen cnt c', readHead s arr il e0 c = .ok ((toff, tlen), cnt, c') ∧ Moved c c' ∧ 1 ≤ tlen ∧
      c.pos ≤ toff ∧ toff + tlen ≤ c'.pos ∧ cnt < 2 ^ 64 ∧ (arr = false → cnt = 1)) ∨
    (∃ e, readHead s arr il e0 c = .error e ∧ FormatStop e0 c.limit e) := by
  have tl : (∃ n c1, readTagLen s il e0 c = .ok (n, c1) ∧ Moved c c1 ∧ 1 ≤ n) ∨
      (∃ e, readTagLen s il e0 c = .error e ∧ FormatStop e0 c.limit e) := by
    unfold readTagLen
    by_cases hi : il.toNat ≠ 0
    · rw [if_pos hi]; exact .inl ⟨_, _, rfl, Moved.refl hp, by omega⟩
    · rw [if_neg hi]
      rcases udec_stop hm hp with ⟨n, c1, e1, m1, _⟩ | ⟨e, e1, f1⟩
      · rw [e1]; simp only
        by_cases hn : n = 0
        · rw [if_pos hn]; exact .inr ⟨_, rfl, _, _, rfl, Nat.le_refl _, by omega⟩
        · rw [if_neg hn]; exact .inl ⟨_, _, rfl, m1, by omega⟩
      · rw [e1]; exact .inr ⟨_, rfl, f1.mono he⟩
  unfold readHead
  rcases tl with ⟨n, c1, e1, m1, hn⟩ | ⟨e, e1, f1⟩
  · rw [e1]; simp only
    have hl := m1.limit_eq
    rcases skip_cases c1 n .truncBytes with ⟨k1, k2⟩ | ⟨k1, k2⟩
    · rw [k2]; simp only
      have m2 : Moved c1 { c1 with pos := c1.pos + n } := ⟨rfl, by simp, k1⟩
      unfold readCount
      cases arr
      · exact .inl ⟨_, _, _, _, rfl, m1.trans m2, hn, m1.2.1, by simp, by simp, by simp⟩
      · simp only [if_true]
        rcases udec_stop (s := s) (c := { c1 with pos := c1.pos + n }) (by simp; omega) (by simpa using k1) with
          ⟨v, c3, e3, m3, h3, h4⟩ | ⟨e, e3, f3⟩
        · rw [e3]
          refine .inl ⟨_, _, _, _, rfl, (m1.trans m2).trans m3, hn, m1.2.1, m3.2.1, h4, by simp⟩
        · rw [e3]; refine .inr ⟨_, rfl, ?_⟩
          have := f3.mono (lo := e0) (by have := m1.2.1; simp; omega)
          simpa [hl] using this
    · rw [k2]
      exact .inr ⟨_, rfl, _, _, rfl, by have := m1.2.1; omega, by have := m1.2.2; omega⟩
  · rw [e1]; exact .inr ⟨_, rfl, f1⟩

/-- Everything reading an entry can answer (44_reader.md R190, R194 to R202): a view that is sane and
lies in the region, or a FormatError at a position between byte0 and the end of the region. -/
theorem readEntry_stop {s : State} {arr : Bool} {ty : Option EntryType} {il : BitVec 3} {e0 : Nat} {c : Cursor}
    (hm : c.limit ≤ s.cfg.memSize) (hp : c.pos ≤ c.limit) (he : e0 ≤ c.pos) :
    (∃ v c' y, readEntry s arr ty il e0 c = .ok (v, c') ∧ ty = some y ∧ Moved c c' ∧ v.valid = true ∧ v.reuse = false ∧
      v.array = arr ∧ v.type.toNat = typeCode y ∧ (arr = false → v.count = 1) ∧ 1 ≤ v.tagLen ∧ c.pos ≤ v.tagOff ∧
      v.tagOff + v.tagLen ≤ v.dataOff ∧ v.dataOff ≤ c.limit ∧ TableSane s.cfg v) ∨
    (∃ e, readEntry s arr ty il e0 c = .error e ∧ FormatStop e0 c.limit e) := by
  unfold readEntry
  rcases readHead_stop (arr := arr) (il := il) hm hp he with ⟨toff, tlen, cnt, c3, e3, m3, h1, h2, h3, h4, h5⟩ | ⟨e, e3, f3⟩
  · rw [e3]; simp only
    have hl := m3.limit_eq
    cases ty with
    | none => exact .inr ⟨_, rfl, _, _, rfl, Nat.le_refl _, by omega⟩
    | some y =>
      simp only
      have hcnt : (BitVec.ofNat 64 cnt).toNat = cnt := by simp; omega
      have hty : ∀ y : EntryType, (BitVec.ofNat 4 (typeCode y)).toNat = typeCode y := by intro y; cases y <;> rfl
      have hof : ∀ y : EntryType, typeOfCode (typeCode y) = some y := by intro y; cases y <;> rfl
      have pay : (∃ es c4, readPayload s y cnt c3 = .ok (es, c4) ∧ Moved c3 c4 ∧
          ∀ v : View, v.type = BitVec.ofNat 4 (typeCode y) → v.count = BitVec.ofNat 64 cnt → v.dataOff = c3.pos → v.elems = es →
            TableSane s.cfg v) ∨
          (∃ e, readPayload s y cnt c3 = .error e ∧ FormatStop c3.pos c3.limit e) := by
        cases y with
        | null =>
          refine .inl ⟨_, _, rfl, Moved.refl m3.placed, fun v hv hc hd he => ?_⟩
          unfold TableSane
          rw [hv, hty, hof, hc, hd, he]
          exact ⟨rfl, by have := m3.placed; simp [typeWidth]; omega⟩
        | string | binary =>
          simp only [readPayload]
          rcases readSpans_stop (s := s) (loopBound c3) cnt c3 (by omega) m3.placed (by unfold loopBound; omega) with
            ⟨es, c4, e4, m4, k1, k2, k3⟩ | ⟨e, e4, f4⟩
          · refine .inl ⟨_, _, e4, m4, fun v hv hc hd he => ?_⟩
            unfold TableSane
            rw [hv, hty, hof, hc, hd, he, hcnt]
            refine ⟨k1, fun e he => ?_⟩
            obtain ⟨o, l, rfl, q1, q2⟩ := k3 e he
            exact ⟨o, l, rfl, q1, by omega⟩
          · exact .inr ⟨_, e4, f4⟩
        | varint =>
          simp only [readPayload]
          rcases readVals_stop (s := s) (loopBound c3) cnt c3 (by omega) m3.placed (by unfold loopBound; omega) with
            ⟨es, c4, e4, m4, k1, k2, k3⟩ | ⟨e, e4, f4⟩
          · refine .inl ⟨_, _, e4, m4, fun v hv hc hd he => ?_⟩
            unfold TableSane
            rw [hv, hty, hof, hc, he, hcnt]
            exact ⟨k1, k3⟩
          · exact .inr ⟨_, e4, f4⟩
        | int8 | int16 | int32 | int64 | double | datetime =>
          simp only [readPayload]
          rcases skip_cases c3 (cnt * typeWidth _) .truncFixed with ⟨k1, k2⟩ | ⟨k1, k2⟩
          · rw [k2]
            refine .inl ⟨_, _, rfl, ⟨rfl, by simp, k1⟩, fun v hv hc hd he => ?_⟩
            unfold TableSane
            rw [hv, hty, hof, hc, hd, he, hcnt]
            exact ⟨rfl, by omega⟩
          · rw [k2]; exact .inr ⟨_, rfl, _, _, rfl, Nat.le_refl _, m3.placed⟩
      rcases pay with ⟨es, c4, e4, m4, k⟩ | ⟨e, e4, f4⟩
      · rw [e4]
        refine .inl ⟨_, _, y, rfl, rfl, m3.trans m4, rfl, rfl, rfl, hty y, ?_, h1, h2, h3, by have := m3.placed; simp; omega, k _ rfl rfl rfl rfl⟩
        intro ha; simp [h5 ha]
      · rw [e4]; refine .inr ⟨_, rfl, ?_⟩
        have := f4.mono (lo := e0) (by have := m3.2.1; omega)
        rwa [hl] at this
  · rw [e3]; exact .inr ⟨_, rfl, f3⟩

/-! ## Well-formed entries -/


/-- The meaning of an entry form, for all twenty at once. -/
theorem exec_entryInstr (s : State) (arr : Bool) (ty : EntryType) (il : BitVec 3) :
    exec (entryInstr arr ty il) s = entryAtR s arr ty il := by
  cases arr <;> cases ty <;> rfl

/-- The fields of a packed byte0 (30_encoding.md R71). -/
theorem byte0_fields (arr : Bool) (ty : EntryType) (il : BitVec 3) :
    entryArray (packByte0 arr (typeCode ty) il) = arr ∧
    (entryTypeCode (packByte0 arr (typeCode ty) il)).toNat = typeCode ty ∧
    entryInlineLength (packByte0 arr (typeCode ty) il) = il := by
  revert il; cases arr <;> cases ty <;> decide

/-- An instruction that takes an entry form, in a document that goes on. -/
theorem takesForm_exec {s : State} {arr : Bool} {ty : EntryType} {il : BitVec 3} {i : Instr} (h : TakesForm s arr ty il i)
    (hr : ReaderReady s) (hp : s.r.pos < s.r.limit) (hm : s.r.limit ≤ s.cfg.memSize) :
    exec i s = takeEntry s arr (some ty) il := by
  have key : ∀ k : Byte → Result, readerStep s k = k (s.byteAt s.r.pos) := by
    intro k
    unfold readerStep
    rw [readerReady_ready hr, if_neg (by omega), if_pos (by omega)]
  rcases h with rfl | ⟨rfl, hb⟩
  · rw [exec_entryInstr]; unfold entryAtR; rw [key]
  · show execNext s = _
    unfold execNext; rw [key, hb]
    obtain ⟨h1, h2, h3⟩ := byte0_fields arr ty il
    rw [h1, h2, h3, typeOfCode_typeCode]

/-- The tag length of a well-formed head. -/
theorem readTagLen_ok {s : State} {arr : Bool} {il : BitVec 3} {lb tag cb : List Byte} {cnt e0 : Nat} {c : Cursor}
    (h : HeadBytes arr il lb tag cb cnt) (hm : c.limit ≤ s.cfg.memSize) (hl : c.pos + lb.length ≤ c.limit)
    (hb : s.bytesAt c.pos lb.length = lb) :
    readTagLen s il e0 c = .ok (tag.length, { c with pos := c.pos + lb.length }) := by
  obtain ⟨h1, h2, -⟩ := h
  unfold readTagLen
  by_cases hi : il = 0
  · subst hi
    simp only [if_true] at h2
    rw [if_neg (by simp), udec_ok h2 hm hl hb]
    simp only
    rw [if_neg (by omega)]
  · rw [if_neg hi] at h2
    have : il.toNat ≠ 0 := fun e => hi (BitVec.eq_of_toNat_eq (by simpa using e))
    rw [if_pos this, h2.1, ← h2.2]; rfl

/-- A well-formed head: where the tag lies, the count, and the cursor behind it. -/
theorem readHead_ok {s : State} {arr : Bool} {il : BitVec 3} {lb tag cb : List Byte} {cnt e0 : Nat} {c : Cursor}
    (h : HeadBytes arr il lb tag cb cnt) (hm : c.limit ≤ s.cfg.memSize) (hl : c.pos + (lb ++ tag ++ cb).length ≤ c.limit)
    (hb : s.bytesAt c.pos (lb ++ tag ++ cb).length = lb ++ tag ++ cb) :
    readHead s arr il e0 c = .ok ((c.pos + lb.length, tag.length), cnt, { c with pos := c.pos + lb.length + tag.length + cb.length }) := by
  have ⟨b1, b3⟩ := bytesAt_append hb
  have ⟨b2, _⟩ := bytesAt_append b1
  simp only [List.length_append] at hl
  unfold readHead
  rw [readTagLen_ok h hm (by omega) b2]
  simp only
  unfold skip
  simp only
  rw [if_neg (by omega)]
  simp only
  unfold readCount
  obtain ⟨-, -, h3⟩ := h
  cases arr
  · simp only [Bool.false_eq_true, if_false] at h3 ⊢
    rw [h3.1, h3.2]; rfl
  · simp only [if_true] at h3 ⊢
    rw [udec_ok h3 (c := { c with pos := c.pos + lb.length + tag.length }) hm (by simp; omega) (by simpa [Nat.add_assoc] using b3)]

/-- Well-formed String or Binary elements, with `rest` more behind them. -/
theorem readSpans_ok {s : State} : ∀ (els : List (List Byte × List Byte)) (fuel : Nat) (c : Cursor) (rest : Nat),
    c.limit ≤ s.cfg.memSize → (∀ e ∈ els, IsUnsigned e.1 e.2.length) →
    c.pos + (els.flatMap fun e => e.1 ++ e.2).length ≤ c.limit →
    s.bytesAt c.pos (els.flatMap fun e => e.1 ++ e.2).length = (els.flatMap fun e => e.1 ++ e.2) →
    c.limit - c.pos < fuel →
    readSpans s fuel (els.length + rest) c =
      match readSpans s (fuel - els.length) rest { c with pos := c.pos + (els.flatMap fun e => e.1 ++ e.2).length } with
      | .ok (es, c') => .ok (spansFrom c.pos els ++ es, c')
      | .error e => .error e := by
  intro els
  induction els with
  | nil =>
    intro fuel c rest hm he hl hb hf
    simp only [List.length_nil, Nat.zero_add, Nat.sub_zero, List.flatMap_nil, Nat.add_zero, spansFrom, List.nil_append]
    split <;> simp_all
  | cons x els ih =>
    intro fuel c rest hm he hl hb hf
    obtain ⟨lb, body⟩ := x
    simp only [List.flatMap_cons] at hb hl ⊢
    have ⟨b1, b2⟩ := bytesAt_append hb
    have ⟨b3, b4⟩ := bytesAt_append b1
    simp only [List.length_append] at hl b2 b4 ⊢
    have hu := he (lb, body) (by simp)
    have hpos := hu.pos
    obtain ⟨f, rfl⟩ : ∃ f, fuel = f + 1 := ⟨fuel - 1, by omega⟩
    rw [readSpans, if_neg (by simp), udec_ok hu hm (by simp at hpos ⊢; omega) b3]
    simp only
    unfold skip
    simp only
    rw [if_neg (by omega)]
    simp only
    have e1 : (List.length ((lb, body) :: els) + rest - 1) = els.length + rest := by rw [List.length_cons]; omega
    rw [e1, ih f { c with pos := c.pos + lb.length + body.length } rest hm (fun e h => he e (by simp [h])) (by dsimp only; omega)
      (by simpa [Nat.add_assoc] using b2) (by dsimp only at hpos ⊢; omega)]
    have e2 : f + 1 - ((lb, body) :: els).length = f - els.length := by simp
    rw [e2]
    simp only [Nat.add_assoc]
    generalize readSpans s (f - els.length) rest _ = X
    rcases X with e | ⟨es, c'⟩ <;> simp [spansFrom, Nat.add_assoc]

/-- Well-formed Varint elements, with `rest` more behind them. -/
theorem readVals_ok {s : State} : ∀ (els : List (List Byte × Int)) (fuel : Nat) (c : Cursor) (rest : Nat),
    c.limit ≤ s.cfg.memSize → (∀ e ∈ els, IsSigned e.1 e.2) →
    c.pos + (els.flatMap fun e => e.1).length ≤ c.limit →
    s.bytesAt c.pos (els.flatMap fun e => e.1).length = (els.flatMap fun e => e.1) →
    c.limit - c.pos < fuel →
    readVals s fuel (els.length + rest) c =
      match readVals s (fuel - els.length) rest { c with pos := c.pos + (els.flatMap fun e => e.1).length } with
      | .ok (es, c') => .ok (els.map (fun e => Elem.val (BitVec.ofInt 64 e.2)) ++ es, c')
      | .error e => .error e := by
  intro els
  induction els with
  | nil =>
    intro fuel c rest hm he hl hb hf
    simp only [List.length_nil, Nat.zero_add, Nat.sub_zero, List.flatMap_nil, Nat.add_zero, List.map_nil, List.nil_append]
    split <;> simp_all
  | cons x els ih =>
    intro fuel c rest hm he hl hb hf
    obtain ⟨lb, v⟩ := x
    simp only [List.flatMap_cons] at hb hl ⊢
    have ⟨b1, b2⟩ := bytesAt_append hb
    simp only [List.length_append] at hl b2 ⊢
    have hu := he (lb, v) (by simp)
    have hpos := hu.pos
    obtain ⟨f, rfl⟩ : ∃ f, fuel = f + 1 := ⟨fuel - 1, by omega⟩
    rw [readVals, if_neg (by simp)]
    unfold sdecWord
    rw [sdec_ok hu hm (by simp at hpos ⊢; omega) b1]
    simp only
    have e1 : (List.length ((lb, v) :: els) + rest - 1) = els.length + rest := by rw [List.length_cons]; omega
    rw [e1, ih f { c with pos := c.pos + lb.length } rest hm (fun e h => he e (by simp [h])) (by dsimp only; omega)
      (by simpa [Nat.add_assoc] using b2) (by dsimp only at hpos ⊢; omega)]
    have e2 : f + 1 - ((lb, v) :: els).length = f - els.length := by simp
    rw [e2]
    simp only [Nat.add_assoc]
    generalize readVals s (f - els.length) rest _ = X
    rcases X with e | ⟨es, c'⟩ <;> simp

/-- How a taken entry ends. -/
theorem finish_taken {s : State} {v : View} {p : Nat} :
    finish s (some (chooseSlot s)) (.ok (fillSlot (chooseSlot s) v { s.r with pos := p } s)) = .next (entryTaken s v p) := rfl

/-- An entry whose head is well formed and whose payload is read. -/
theorem take_ok {s : State} {i : Instr} {arr : Bool} {ty : EntryType} {il : BitVec 3} {lb tag cb : List Byte} {cnt : Nat}
    {es : List Elem} {q : Nat}
    (ht : TakesForm s arr ty il i) (hr : ReaderReady s) (hp : ReaderPlaced s) (hh : HeadBytes arr il lb tag cb cnt)
    (hb : ReadsAt s (s.r.pos + 1) (lb ++ tag ++ cb))
    (hpay : readPayload s ty cnt { s.r with pos := s.r.pos + 1 + lb.length + tag.length + cb.length } =
      .ok (es, { s.r with pos := q })) :
    exec i s = .next (entryTaken s (entryView arr ty lb tag cb cnt s.r.pos es) q) := by
  have h1 := hh.1
  have hl := hb.1
  simp only [List.length_append] at hl
  rw [takesForm_exec ht hr (by omega) hp.2.2]
  unfold takeEntry readEntry
  rw [readHead_ok hh (c := { s.r with pos := s.r.pos + 1 }) hp.2.2 hb.1 hb.2]
  simp only
  rw [hpay]
  rfl

/-- An entry whose head is well formed and whose payload raises. -/
theorem take_err {s : State} {i : Instr} {arr : Bool} {ty : EntryType} {il : BitVec 3} {lb tag cb : List Byte} {cnt : Nat}
    {cause : Cause} {q : Nat}
    (ht : TakesForm s arr ty il i) (hr : ReaderReady s) (hp : ReaderPlaced s) (hh : HeadBytes arr il lb tag cb cnt)
    (hb : ReadsAt s (s.r.pos + 1) (lb ++ tag ++ cb))
    (hpay : readPayload s ty cnt { s.r with pos := s.r.pos + 1 + lb.length + tag.length + cb.length } =
      .error (.raised (.format cause q))) :
    RaisesFormat s (exec i s) (causeCode cause) q (some (chooseSlot s)) := by
  have h1 := hh.1
  have hl := hb.1
  simp only [List.length_append] at hl
  rw [takesForm_exec ht hr (by omega) hp.2.2]
  unfold takeEntry readEntry
  rw [readHead_ok hh (c := { s.r with pos := s.r.pos + 1 }) hp.2.2 hb.1 hb.2]
  simp only
  rw [hpay]
  exact ⟨_, rfl, takeFormat_malformed cause q (some (chooseSlot s)) (by omega)⟩

end Sys2Proof.Machine
end

