-- ==== Sys2Proof/Laws/Exec.lean ====
section
/-! SUPPORT. Everything an instruction can do in a sane state, said once (`Effect`), so that a fact about
all instructions is a case analysis over seventeen effects and no meaning is unfolded again. -/

namespace Sys2Proof.Machine

/-- Everything an instruction can do in a sane state. -/
inductive Effect (s : State) : Instr → State → Prop
  | refused {i : Instr} (why : Reason) : Effect s i (s.reject why)
  | setW (a b : Word) (h : a.toNat + b.toNat ≤ s.cfg.memSize) :
      Effect s (.winit a b) (State.complete .ok { s with w := openRegion a.toNat b.toNat s.w })
  | rewindW (h : s.w.init = true) : Effect s .wrewind (State.complete .ok { s with w := rewound s.w })
  | setR (a b : Word) (h : a.toNat + b.toNat ≤ s.cfg.memSize) :
      Effect s (.parse a b) (State.complete .ok { s with r := openRegion a.toNat b.toNat s.r })
  | rewindR (h : s.r.init = true) : Effect s .rrewind (State.complete .ok { s with r := rewound s.r })
  | wrote {i : Instr} (bs : List Byte) (h : WriterReady s) (hl : s.w.pos + bs.length ≤ s.w.limit)
      (hi : ¬ ReadsEntry i) (hu : unitOf i = .writer) : Effect s i ((stored s bs).complete .ok)
  | overran {i : Instr} (h : WriterReady s) (hi : ¬ ReadsEntry i) (hu : unitOf i = .writer) : Effect s i (takeBufferTooSmall s)
  | readOn {i : Instr} (c : Cursor) (v : Word) (h : ReaderReady s) (hm : Moved s.r c) (hi : ¬ ReadsEntry i)
      (hu : unitOf i = .reader) : Effect s i (State.complete .ok (State.setX0 v { s with r := c }))
  | malformed {i : Instr} (cause : Cause) (pos : Nat) (slot : Option Nat) (h : ReaderReady s)
      (h1 : s.r.pos ≤ pos) (h2 : pos ≤ s.r.limit) (he : ReadsEntry i → slot = some (chooseSlot s))
      (hn : ¬ ReadsEntry i → slot = none) (hu : unitOf i = .reader) : Effect s i (takeFormat cause pos slot s)
  | atEnd {i : Instr} (h : ReaderReady s) (he : ReadsEntry i) : Effect s i (s.complete .endOfDoc)
  | took {i : Instr} (v : View) (c : Cursor) (y : EntryType) (h : ReaderReady s) (he : ReadsEntry i)
      (hm : Moved s.r c) (hp : s.r.pos < c.pos) (hv : v.valid = true) (hr : v.reuse = false) (hy : v.type.toNat = typeCode y)
      (hc : v.array = false → v.count = 1) (h1 : 1 ≤ v.tagLen) (h2 : s.r.pos < v.tagOff)
      (h3 : v.tagOff + v.tagLen ≤ v.dataOff) (h4 : v.dataOff ≤ s.r.limit) (h5 : TableSane s.cfg v) :
      Effect s i (State.complete .ok (fillSlot (chooseSlot s) v c s))
  | marked (vs : Byte) (v : View) (h : Holds s vs v) :
      Effect s (.mark vs) (State.complete .ok (s.setView vs.toNat { v with reuse := true }))
  | gave {i : Instr} (v : Word) (hi : ¬ ReadsEntry i) : Effect s i (State.complete .ok (s.setX0 v))
  | gave2 {i : Instr} (v u : Word) (hi : ¬ ReadsEntry i) : Effect s i (State.complete .ok ((s.setX0 v).setX1 u))
  | loose {i : Instr} (hi : ¬ ReadsEntry i) : Effect s i (State.complete .ok s.looseX0)
  | loose2 {i : Instr} (hi : ¬ ReadsEntry i) : Effect s i (State.complete .ok s.looseX)
  | conversion (vs : Byte) (a : Word) (st : Status) (h : st = .eConvNull ∨ st = .eConvType) :
      Effect s (.vlong vs a) (takeConversion st s)

/-- The answer is a next state, reached by one of the effects. -/
def Runs (s : State) (i : Instr) (r : Result) : Prop := ∃ t, r = .next t ∧ Effect s i t

/-- NEXT and the entry forms belong to the reader. -/
theorem unitOf_readsEntry {i : Instr} (h : ReadsEntry i) : unitOf i = .reader := by
  rcases h with rfl | ⟨arr, ty, il, rfl⟩
  · rfl
  · cases arr <;> cases ty <;> rfl

/-- A command other than NEXT reads no entry. -/
theorem not_readsEntry {i : Instr} (h1 : i ≠ .next) (h2 : i.toByte0 = none) : ¬ ReadsEntry i := by
  rintro (rfl | ⟨arr, ty, il, rfl⟩)
  · exact h1 rfl
  · cases arr <;> cases ty <;> simp [entryInstr, Instr.toByte0] at h2

/-- The serializer envelope. -/
theorem runs_writer {s : State} {i : Instr} {body : Except Reason (List Byte)} (hs : Inv s)
    (hi : ¬ ReadsEntry i) (hu : unitOf i = .writer) :
    Runs s i (writerData s (body.map (wrbytes s))) := by
  by_cases h1 : s.w.init = true
  · by_cases h2 : s.w.errKind = 0
    · rw [writerData_ready ⟨h1, h2⟩]
      cases body with
      | error why => exact ⟨_, rfl, .refused why⟩
      | ok bs =>
        have hp := hs.w.2.1 h1
        rcases wrbytes_cases bs hp.2.2 with ⟨k, e⟩ | ⟨k, e⟩
        · simp only [Except.map, e, finish]; exact ⟨_, rfl, .wrote bs ⟨h1, h2⟩ k hi hu⟩
        · simp only [Except.map, e, finish]; exact ⟨_, rfl, .overran ⟨h1, h2⟩ hi hu⟩
    · rw [writerData_pending h1 h2]; exact ⟨_, rfl, .refused .errPending⟩
  · rw [writerData_notInit (by simpa using h1)]; exact ⟨_, rfl, .refused .noInit⟩

/-- A writing command with no operand check. -/
theorem runs_wrbytes {s : State} {i : Instr} {bs : List Byte} (hs : Inv s) (hi : ¬ ReadsEntry i)
    (hu : unitOf i = .writer) : Runs s i (writerData s (.ok (wrbytes s bs))) :=
  runs_writer (body := .ok bs) hs hi hu

/-- The envelope of a reading command. -/
theorem runs_reader {s : State} {i : Instr} {m : Except Stop (Word × Cursor)} (hi : ¬ ReadsEntry i)
    (hu : unitOf i = .reader)
    (hm : ReaderReady s → (∃ v c, m = .ok (v, c) ∧ Moved s.r c) ∨ (∃ e, m = .error e ∧ FormatStop s.r.pos s.r.limit e)) :
    Runs s i (readerData s (deliverX0 s m)) := by
  unfold readerData
  by_cases h1 : s.r.init = true
  · by_cases h2 : s.r.errKind = 0
    · rw [readerReady_ready ⟨h1, h2⟩]
      rcases hm ⟨h1, h2⟩ with ⟨v, c, rfl, h3⟩ | ⟨e, rfl, cause, p, rfl, h3, h4⟩
      · exact ⟨_, rfl, .readOn c v ⟨h1, h2⟩ h3 hi hu⟩
      · exact ⟨_, rfl, .malformed cause p none ⟨h1, h2⟩ h3 h4 (fun h => absurd h hi) (fun _ => rfl) hu⟩
    · rw [readerReady_pending h1 h2]; exact ⟨_, rfl, .refused .errPending⟩
  · rw [readerReady_notInit (by simpa using h1)]; exact ⟨_, rfl, .refused .noInit⟩

/-- The step of the reader. -/
theorem runs_readerStep {s : State} {i : Instr} {k : Byte → Result} (hs : Inv s) (he : ReadsEntry i)
    (hk : ReaderReady s → s.r.pos < s.r.limit → ∃ arr ty il, k (s.byteAt s.r.pos) = takeEntry s arr ty il) :
    Runs s i (readerStep s k) := by
  unfold readerStep
  by_cases h1 : s.r.init = true
  · by_cases h2 : s.r.errKind = 0
    · rw [readerReady_ready ⟨h1, h2⟩]
      have hp := hs.r.2.1 h1
      by_cases h3 : s.r.limit ≤ s.r.pos
      · rw [if_pos h3]; exact ⟨_, rfl, .atEnd ⟨h1, h2⟩ he⟩
      · rw [if_neg h3, if_pos (by omega)]
        obtain ⟨arr, ty, il, e⟩ := hk ⟨h1, h2⟩ (by omega)
        rw [e]
        unfold takeEntry
        rcases readEntry_stop (s := s) (arr := arr) (ty := ty) (il := il) (e0 := s.r.pos) (c := { s.r with pos := s.r.pos + 1 })
          hp.2.2 (by simp; omega) (by simp) with ⟨v, c, y, e1, rfl, m, g1, g2, g3, g4, g5, g6, g7, g8, g9, g10⟩ | ⟨e, e1, cause, p, rfl, q1, q2⟩
        · rw [e1]
          have m0 : Moved s.r { s.r with pos := s.r.pos + 1 } := ⟨rfl, by simp, by simp; omega⟩
          exact ⟨_, rfl, .took v c y ⟨h1, h2⟩ he (m0.trans m) (by have := m.2.1; simp at this; omega) g1 g2 g4 (by rwa [g3]) g6 (by simpa using g7) g8 g9 g10⟩
        · rw [e1]
          exact ⟨_, rfl, .malformed cause p _ ⟨h1, h2⟩ q1 q2 (fun _ => rfl) (fun h => absurd he h) (unitOf_readsEntry he)⟩
    · rw [readerReady_pending h1 h2]; exact ⟨_, rfl, .refused .errPending⟩
  · rw [readerReady_notInit (by simpa using h1)]; exact ⟨_, rfl, .refused .noInit⟩

/-- The envelope of a view command. -/
theorem runs_view {s : State} {i : Instr} {vs : Byte} {body : View → Result}
    (hb : ∀ v, Holds s vs v → Runs s i (body v)) : Runs s i (viewCommand s vs body) := by
  unfold viewCommand
  by_cases h1 : s.cfg.nview ≤ vs.toNat
  · rw [if_pos h1]; exact ⟨_, rfl, .refused .badSlot⟩
  · rw [if_neg h1]
    by_cases h2 : (s.viewAt vs.toNat).valid = true
    · simp only [h2, Bool.not_true, Bool.false_eq_true, if_false]; exact hb _ ⟨by omega, rfl, h2⟩
    · simp only [h2]; exact ⟨_, rfl, .refused .noView⟩

/-- A slot of a sane state is sane. -/
theorem inv_viewSane {s : State} (hs : Inv s) {vs : Byte} {v : View} (h : Holds s vs v) : ViewSane s.cfg v := by
  obtain ⟨h1, rfl, h3⟩ := h
  apply hs.views
  unfold State.viewAt
  have := hs.slots
  rw [List.getD_eq_getElem?_getD, List.getElem?_eq_getElem (by omega)]
  simp



/-- The payload of a view of a fixed-width type lies in MEM. -/
theorem viewSane_fixed {cfg : Config} {v : View} {y : EntryType} (h : ViewSane cfg v) (hv : v.valid = true)
    (hy : v.type.toNat = typeCode y) (hf : y ≠ .string ∧ y ≠ .binary ∧ y ≠ .varint) :
    v.dataOff + v.count.toNat * typeWidth y ≤ cfg.memSize := by
  have := (h.2.2 hv).2.2.2.2
  unfold TableSane at this
  rw [hy, typeOfCode_typeCode] at this
  cases y <;> simp_all

/-- Fetching an element of a fixed-width type. -/
theorem runs_fetch {s : State} {i : Instr} {v : View} {y : EntryType} {a : Word} (hi : ¬ ReadsEntry i)
    (hm : v.dataOff + v.count.toNat * typeWidth y ≤ s.cfg.memSize) (ha : zext a < v.count.toNat) :
    Runs s i (fetchElement s v (typeWidth y) (zext a)) := by
  unfold fetchElement memRead
  have : zext a * typeWidth y + typeWidth y ≤ v.count.toNat * typeWidth y := by
    rw [← Nat.succ_mul]; exact Nat.mul_le_mul_right _ ha
  rw [if_pos (by omega)]
  exact ⟨_, rfl, .gave _ hi⟩

/-- An accessor of a fixed-width type. -/
theorem runs_fixed {s : State} {i : Instr} {vs : Byte} {a : Word} {y : EntryType} (hs : Inv s) (hi : ¬ ReadsEntry i)
    (hf : y ≠ .string ∧ y ≠ .binary ∧ y ≠ .varint) : Runs s i (fixedAccessor y vs a s) := by
  refine runs_view fun v hv => ?_
  by_cases ha : accessOk v y (zext a) = true
  · simp only [ha, if_true]
    simp only [accessOk, Bool.and_eq_true, decide_eq_true_eq] at ha
    exact runs_fetch hi (viewSane_fixed (inv_viewSane hs hv) hv.2.2 ha.1 hf) ha.2
  · simp only [ha]; exact ⟨_, rfl, .loose hi⟩

/-- An accessor of a String or Binary. -/
theorem runs_span {s : State} {i : Instr} {vs : Byte} {a : Word} {y : EntryType} (hi : ¬ ReadsEntry i) :
    Runs s i (spanAccessor y vs a s) := by
  refine runs_view fun v hv => ?_
  split
  · exact ⟨_, rfl, .gave2 _ _ hi⟩
  · exact ⟨_, rfl, .loose2 hi⟩

/-- A recorded value. -/
theorem runs_recorded {s : State} {i : Instr} {v : View} {k : Nat} (hi : ¬ ReadsEntry i) :
    Runs s i (recordedValue s v k) := by
  unfold recordedValue
  split
  · exact ⟨_, rfl, .gave _ hi⟩
  · exact ⟨_, rfl, .loose hi⟩

/-- GET8 to GETD. -/
theorem runs_unpack {s : State} {i : Instr} {n : Nat} (hs : Inv s) (hi : ¬ ReadsEntry i) (hu : unitOf i = .reader) :
    Runs s i (readerData s (deliverX0 s (unpackR s n))) := by
  refine runs_reader hi hu fun hr => ?_
  have hp := hs.r.2.1 hr.1
  unfold unpackR
  rcases rdN_cases (s := s) (c := s.r) n hp.2.2 with ⟨k, e⟩ | ⟨k, e⟩
  · rw [e]; exact .inl ⟨_, _, rfl, rfl, by simp, k⟩
  · rw [e]; exact .inr ⟨_, rfl, _, _, rfl, Nat.le_refl _, hp.2.1⟩

/-- PUT8 to PUTD. -/
theorem runs_pack {s : State} {i : Instr} {n : Nat} {a : Word} (hs : Inv s) (hi : ¬ ReadsEntry i)
    (hu : unitOf i = .writer) : Runs s i (writerData s (.ok (packW s n a))) := by
  unfold packW; rw [wrN_eq_wrbytes]; exact runs_wrbytes hs hi hu

/-- An entry form. -/
theorem runs_entry {s : State} {arr : Bool} {ty : EntryType} {il : BitVec 3} (hs : Inv s) :
    Runs s (entryInstr arr ty il) (entryAtR s arr ty il) :=
  runs_readerStep hs (.inr ⟨_, _, _, rfl⟩) fun _ _ => ⟨_, _, _, rfl⟩

/-- In a sane state every instruction answers a next state, by one of the listed effects. -/
theorem exec_runs (i : Instr) (s : State) (hs : Inv s) : Runs s i (exec i s) := by
  have hn : i ≠ .next → i.toByte0 = none → ¬ ReadsEntry i := not_readsEntry
  cases i with
  | winit a b =>
    simp only [exec, execWinit]; unfold zext
    split
    · exact ⟨_, rfl, .refused .badRange⟩
    · exact ⟨_, rfl, .setW a b (by omega)⟩
  | parse a b =>
    simp only [exec, execParse]; unfold zext
    split
    · exact ⟨_, rfl, .refused .badRange⟩
    · exact ⟨_, rfl, .setR a b (by omega)⟩
  | wrewind =>
    simp only [exec, execWrewind]
    by_cases h : s.w.init = true
    · simp only [h]; exact ⟨_, rfl, .rewindW h⟩
    · simp only [h]; exact ⟨_, rfl, .refused .noInit⟩
  | rrewind =>
    simp only [exec, execRrewind]
    by_cases h : s.r.init = true
    · simp only [h]; exact ⟨_, rfl, .rewindR h⟩
    · simp only [h]; exact ⟨_, rfl, .refused .noInit⟩
  | wrem =>
    simp only [exec, execWrem]
    by_cases h1 : s.w.init = true
    · by_cases h2 : s.w.errKind = 0
      · rw [writerData_ready ⟨h1, h2⟩]; exact ⟨_, rfl, .gave _ (hn (by simp) rfl)⟩
      · rw [writerData_pending h1 h2]; exact ⟨_, rfl, .refused .errPending⟩
    · rw [writerData_notInit (by simpa using h1)]; exact ⟨_, rfl, .refused .noInit⟩
  | rrem =>
    simp only [exec, execRrem, readerData]
    by_cases h1 : s.r.init = true
    · by_cases h2 : s.r.errKind = 0
      · rw [readerReady_ready ⟨h1, h2⟩]; exact ⟨_, rfl, .gave _ (hn (by simp) rfl)⟩
      · rw [readerReady_pending h1 h2]; exact ⟨_, rfl, .refused .errPending⟩
    · rw [readerReady_notInit (by simpa using h1)]; exact ⟨_, rfl, .refused .noInit⟩
  | vputu a => exact runs_wrbytes hs (hn (by simp) rfl) rfl
  | vputs a => exact runs_wrbytes hs (hn (by simp) rfl) rfl
  | vgetu =>
    refine runs_reader (hn (by simp) rfl) rfl fun hr => ?_
    have hp := hs.r.2.1 hr.1
    unfold udecWord
    rcases udec_stop (s := s) (c := s.r) hp.2.2 hp.2.1 with ⟨v, c, e, m, _⟩ | ⟨e, e1, f⟩
    · rw [e]; exact .inl ⟨_, _, rfl, m⟩
    · rw [e1]; exact .inr ⟨_, rfl, f⟩
  | vgets =>
    refine runs_reader (hn (by simp) rfl) rfl fun hr => ?_
    have hp := hs.r.2.1 hr.1
    unfold sdecWord
    rcases sdec_stop (s := s) (c := s.r) hp.2.2 hp.2.1 with ⟨v, c, e, m, _⟩ | ⟨e, e1, f⟩
    · rw [e]; exact .inl ⟨_, _, rfl, m⟩
    · rw [e1]; exact .inr ⟨_, rfl, f⟩
  | put8 a | put16 a | put32 a | put64 a | putd a => exact runs_pack hs (hn (by simp) rfl) rfl
  | get8 | get16 | get32 | get64 | getd => exact runs_unpack hs (hn (by simp) rfl) rfl
  | escalar | earray | eelem | escalart | earrayt | eelemt => exact runs_writer hs (hn (by simp) rfl) rfl
  | next =>
    show Runs s _ (execNext s)
    unfold execNext
    exact runs_readerStep hs (.inl rfl) fun _ _ =>
      ⟨entryArray (s.byteAt s.r.pos), typeOfCode (entryTypeCode (s.byteAt s.r.pos)).toNat,
        entryInlineLength (s.byteAt s.r.pos), rfl⟩
  | mark vs => exact runs_view fun v hv => ⟨_, rfl, .marked vs v hv⟩
  | vinfo vs => exact runs_view fun v hv => ⟨_, rfl, .gave2 _ _ (hn (by simp) rfl)⟩
  | vtag vs => exact runs_view fun v hv => ⟨_, rfl, .gave2 _ _ (hn (by simp) rfl)⟩
  | vi8 vs a | vi16 vs a | vi32 vs a | vi64 vs a | vdt vs a | vdbl vs a =>
    exact runs_fixed hs (hn (by simp) rfl) (by decide)
  | vstr vs a | vbin vs a => exact runs_span (hn (by simp) rfl)
  | vvar vs a =>
    show Runs s _ (execVvar vs a s)
    unfold execVvar
    refine runs_view fun v hv => ?_
    split
    · exact runs_recorded (hn (by simp) rfl)
    · exact ⟨_, rfl, .loose (hn (by simp) rfl)⟩
  | vlong vs a =>
    have hr := hn (by simp) rfl
    show Runs s _ (execVlong vs a s)
    unfold execVlong
    refine runs_view fun v hv => ?_
    have hsane := inv_viewSane hs hv
    split
    · exact ⟨_, rfl, .conversion vs a _ (.inl rfl)⟩
    · exact ⟨_, rfl, .conversion vs a _ (.inr rfl)⟩
    · exact ⟨_, rfl, .conversion vs a _ (.inr rfl)⟩
    · exact ⟨_, rfl, .conversion vs a _ (.inr rfl)⟩
    · exact ⟨_, rfl, .loose hr⟩
    · split
      · exact runs_recorded hr
      · exact ⟨_, rfl, .loose hr⟩
    · rename_i ty h1 h2 h3 h4 h5 h6
      split
      · exact runs_fetch hr (viewSane_fixed hsane hv.2.2 (typeOfCode_some h6) ⟨by rintro rfl; exact h2 rfl, by rintro rfl; exact h3 rfl, by rintro rfl; exact h5 rfl⟩) (by assumption)
      · exact ⟨_, rfl, .loose hr⟩
  | entryNull il => exact runs_entry (arr := false) (ty := .null) hs
  | entryString il => exact runs_entry (arr := false) (ty := .string) hs
  | entryBinary il => exact runs_entry (arr := false) (ty := .binary) hs
  | entryInt8 il => exact runs_entry (arr := false) (ty := .int8) hs
  | entryInt16 il => exact runs_entry (arr := false) (ty := .int16) hs
  | entryInt32 il => exact runs_entry (arr := false) (ty := .int32) hs
  | entryInt64 il => exact runs_entry (arr := false) (ty := .int64) hs
  | entryDouble il => exact runs_entry (arr := false) (ty := .double) hs
  | entryDatetime il => exact runs_entry (arr := false) (ty := .datetime) hs
  | entryVarint il => exact runs_entry (arr := false) (ty := .varint) hs
  | entryNullArr il => exact runs_entry (arr := true) (ty := .null) hs
  | entryStringArr il => exact runs_entry (arr := true) (ty := .string) hs
  | entryBinaryArr il => exact runs_entry (arr := true) (ty := .binary) hs
  | entryInt8Arr il => exact runs_entry (arr := true) (ty := .int8) hs
  | entryInt16Arr il => exact runs_entry (arr := true) (ty := .int16) hs
  | entryInt32Arr il => exact runs_entry (arr := true) (ty := .int32) hs
  | entryInt64Arr il => exact runs_entry (arr := true) (ty := .int64) hs
  | entryDoubleArr il => exact runs_entry (arr := true) (ty := .double) hs
  | entryDatetimeArr il => exact runs_entry (arr := true) (ty := .datetime) hs
  | entryVarintArr il => exact runs_entry (arr := true) (ty := .varint) hs

end Sys2Proof.Machine
end

