-- ==== Sys2Proof/Laws/PerInstr.lean ====
section
/-! SUPPORT. Statements made of every instruction, one lemma per constructor: how long its encoding is. -/

/-- A command is encoded in a header of 32 bytes and its operand strings (30_encoding.md R81), an entry
form in its byte0 (30_encoding.md R71). -/
def Sys2Proof.Laws.EncodedLength.Statement (i : Sys2Proof.Instr) : Prop :=
  (Sys2Proof.encode i).length =
    if i.toCommand.isSome then 32 + i.tagOperand.length + i.dataOperand.length else 1

namespace Sys2Proof.Laws.EncodedLength

/-- The length of a descriptor. -/
theorem length_descriptor (c : Command) : (descriptor c).length = 32 + c.t.length + c.d.length := by
  simp [descriptor]; omega

/-- The length of the encoding of a command. -/
theorem of_command {i : Instr} {c : Command} (h : i.toCommand = some c) (ht : c.t = i.tagOperand)
    (hd : c.d = i.dataOperand) : Statement i := by
  simp only [Statement, encode, h, length_descriptor, ht, hd, Option.isSome_some, if_true]

theorem winit (a b : Word) : Statement (.winit a b) := of_command rfl rfl rfl
theorem wrewind : Statement .wrewind := of_command rfl rfl rfl
theorem wrem : Statement .wrem := of_command rfl rfl rfl
theorem parse (a b : Word) : Statement (.parse a b) := of_command rfl rfl rfl
theorem rrewind : Statement .rrewind := of_command rfl rfl rfl
theorem rrem : Statement .rrem := of_command rfl rfl rfl
theorem vputu (a : Word) : Statement (.vputu a) := of_command rfl rfl rfl
theorem vputs (a : Word) : Statement (.vputs a) := of_command rfl rfl rfl
theorem vgetu : Statement .vgetu := of_command rfl rfl rfl
theorem vgets : Statement .vgets := of_command rfl rfl rfl
theorem put8 (a : Word) : Statement (.put8 a) := of_command rfl rfl rfl
theorem put16 (a : Word) : Statement (.put16 a) := of_command rfl rfl rfl
theorem put32 (a : Word) : Statement (.put32 a) := of_command rfl rfl rfl
theorem put64 (a : Word) : Statement (.put64 a) := of_command rfl rfl rfl
theorem putd (a : Word) : Statement (.putd a) := of_command rfl rfl rfl
theorem get8 : Statement .get8 := of_command rfl rfl rfl
theorem get16 : Statement .get16 := of_command rfl rfl rfl
theorem get32 : Statement .get32 := of_command rfl rfl rfl
theorem get64 : Statement .get64 := of_command rfl rfl rfl
theorem getd : Statement .getd := of_command rfl rfl rfl
theorem escalar (ty : Byte) (t : List Byte) (a : Word) (d : List Byte) : Statement (.escalar ty t a d) := of_command rfl rfl rfl
theorem earray (ty : Byte) (t : List Byte) (a : Word) : Statement (.earray ty t a) := of_command rfl rfl rfl
theorem eelem (ty : Byte) (a : Word) (d : List Byte) : Statement (.eelem ty a d) := of_command rfl rfl rfl
theorem escalart (ty : Byte) (t : List Byte) (a : Word) (d : List Byte) : Statement (.escalart ty t a d) := of_command rfl rfl rfl
theorem earrayt (ty : Byte) (t : List Byte) (a : Word) : Statement (.earrayt ty t a) := of_command rfl rfl rfl
theorem eelemt (ty : Byte) (d : List Byte) : Statement (.eelemt ty d) := of_command rfl rfl rfl
theorem next : Statement .next := of_command rfl rfl rfl
theorem mark (vs : Byte) : Statement (.mark vs) := of_command rfl rfl rfl
theorem vinfo (vs : Byte) : Statement (.vinfo vs) := of_command rfl rfl rfl
theorem vtag (vs : Byte) : Statement (.vtag vs) := of_command rfl rfl rfl
theorem vi8 (vs : Byte) (a : Word) : Statement (.vi8 vs a) := of_command rfl rfl rfl
theorem vi16 (vs : Byte) (a : Word) : Statement (.vi16 vs a) := of_command rfl rfl rfl
theorem vi32 (vs : Byte) (a : Word) : Statement (.vi32 vs a) := of_command rfl rfl rfl
theorem vi64 (vs : Byte) (a : Word) : Statement (.vi64 vs a) := of_command rfl rfl rfl
theorem vdt (vs : Byte) (a : Word) : Statement (.vdt vs a) := of_command rfl rfl rfl
theorem vdbl (vs : Byte) (a : Word) : Statement (.vdbl vs a) := of_command rfl rfl rfl
theorem vstr (vs : Byte) (a : Word) : Statement (.vstr vs a) := of_command rfl rfl rfl
theorem vbin (vs : Byte) (a : Word) : Statement (.vbin vs a) := of_command rfl rfl rfl
theorem vvar (vs : Byte) (a : Word) : Statement (.vvar vs a) := of_command rfl rfl rfl
theorem vlong (vs : Byte) (a : Word) : Statement (.vlong vs a) := of_command rfl rfl rfl
theorem entryNull (ilen : BitVec 3) : Statement (.entryNull ilen) := rfl
theorem entryString (ilen : BitVec 3) : Statement (.entryString ilen) := rfl
theorem entryBinary (ilen : BitVec 3) : Statement (.entryBinary ilen) := rfl
theorem entryInt8 (ilen : BitVec 3) : Statement (.entryInt8 ilen) := rfl
theorem entryInt16 (ilen : BitVec 3) : Statement (.entryInt16 ilen) := rfl
theorem entryInt32 (ilen : BitVec 3) : Statement (.entryInt32 ilen) := rfl
theorem entryInt64 (ilen : BitVec 3) : Statement (.entryInt64 ilen) := rfl
theorem entryDouble (ilen : BitVec 3) : Statement (.entryDouble ilen) := rfl
theorem entryDatetime (ilen : BitVec 3) : Statement (.entryDatetime ilen) := rfl
theorem entryVarint (ilen : BitVec 3) : Statement (.entryVarint ilen) := rfl
theorem entryNullArr (ilen : BitVec 3) : Statement (.entryNullArr ilen) := rfl
theorem entryStringArr (ilen : BitVec 3) : Statement (.entryStringArr ilen) := rfl
theorem entryBinaryArr (ilen : BitVec 3) : Statement (.entryBinaryArr ilen) := rfl
theorem entryInt8Arr (ilen : BitVec 3) : Statement (.entryInt8Arr ilen) := rfl
theorem entryInt16Arr (ilen : BitVec 3) : Statement (.entryInt16Arr ilen) := rfl
theorem entryInt32Arr (ilen : BitVec 3) : Statement (.entryInt32Arr ilen) := rfl
theorem entryInt64Arr (ilen : BitVec 3) : Statement (.entryInt64Arr ilen) := rfl
theorem entryDoubleArr (ilen : BitVec 3) : Statement (.entryDoubleArr ilen) := rfl
theorem entryDatetimeArr (ilen : BitVec 3) : Statement (.entryDatetimeArr ilen) := rfl
theorem entryVarintArr (ilen : BitVec 3) : Statement (.entryVarintArr ilen) := rfl

end Sys2Proof.Laws.EncodedLength
end

