-- ==== Sys2Proof/Tests/Slice0.lean ====
section
/-! SUPPORT. The model's own tests. Expected bytes and results are those of 95_test_vectors.md, or are
worked out by hand from the rule named; every decoded word is written out from 30_encoding.md R71,
R80 and R81. The last part shows, for every statement with hypotheses, that they can be met. -/

namespace Sys2Proof.Tests

open Sys2Proof.Machine

/-! ## WellFormed: what each check refuses -/

theorem test_long_tag_is_ill_formed (ty : Byte) (a : Word) (n : Nat) (h : 2 ^ 32 ≤ n) :
    (Instr.earray ty (List.replicate n 0) a).wellFormed = false := by
  simp [Instr.wellFormed, Instr.tagOperand]; omega

theorem test_long_data_is_ill_formed (ty : Byte) (a : Word) (n : Nat) (h : 2 ^ 32 ≤ n) :
    (Instr.eelem ty a (List.replicate n 0)).wellFormed = false := by
  simp [Instr.wellFormed, Instr.dataOperand]; omega

theorem test_longest_tag_is_well_formed (ty : Byte) (a : Word) (n : Nat) (h : n = 2 ^ 32 - 1) :
    (Instr.earray ty (List.replicate n 0) a).wellFormed = true := by
  simp [Instr.wellFormed, Instr.tagOperand, Instr.dataOperand]; omega

/-! ## Decoding -/

/-- The 32 bytes of R81, each field at its place: opcode, TY, VS, TLEN, DLEN, the low byte of A and the
low byte of B. -/
def header (op ty vs tlen dlen a b : Byte) : List Byte :=
  [op, ty, vs, 0, tlen, 0, 0, 0, dlen, 0, 0, 0, 0, 0, 0, 0,
   a, 0, 0, 0, 0, 0, 0, 0, b, 0, 0, 0, 0, 0, 0, 0]

/-- The bytes decode to this instruction. -/
def reads (bs : List Byte) (i : Instr) : Bool :=
  match decode bs with
  | .ok j => j = i
  | .error _ => false

theorem test_decode_winit : reads (header 0x10 0 0 0 0 8 16) (.winit 8 16) = true := by decide
theorem test_decode_wrewind : reads (header 0x11 0 0 0 0 0 0) (.wrewind) = true := by decide
theorem test_decode_wrem : reads (header 0x12 0 0 0 0 0 0) (.wrem) = true := by decide
theorem test_decode_parse : reads (header 0x18 0 0 0 0 5 3) (.parse 5 3) = true := by decide
theorem test_decode_rrewind : reads (header 0x19 0 0 0 0 0 0) (.rrewind) = true := by decide
theorem test_decode_rrem : reads (header 0x1A 0 0 0 0 0 0) (.rrem) = true := by decide
theorem test_decode_vputu : reads (header 0x20 0 0 0 0 200 0) (.vputu 200) = true := by decide
theorem test_decode_vputs : reads (header 0x21 0 0 0 0 201 0) (.vputs 201) = true := by decide
theorem test_decode_vgetu : reads (header 0x28 0 0 0 0 0 0) (.vgetu) = true := by decide
theorem test_decode_vgets : reads (header 0x29 0 0 0 0 0 0) (.vgets) = true := by decide
theorem test_decode_put8 : reads (header 0x30 0 0 0 0 1 0) (.put8 1) = true := by decide
theorem test_decode_put16 : reads (header 0x31 0 0 0 0 2 0) (.put16 2) = true := by decide
theorem test_decode_put32 : reads (header 0x32 0 0 0 0 3 0) (.put32 3) = true := by decide
theorem test_decode_put64 : reads (header 0x33 0 0 0 0 4 0) (.put64 4) = true := by decide
theorem test_decode_putd : reads (header 0x34 0 0 0 0 5 0) (.putd 5) = true := by decide
theorem test_decode_get8 : reads (header 0x38 0 0 0 0 0 0) (.get8) = true := by decide
theorem test_decode_get16 : reads (header 0x39 0 0 0 0 0 0) (.get16) = true := by decide
theorem test_decode_get32 : reads (header 0x3A 0 0 0 0 0 0) (.get32) = true := by decide
theorem test_decode_get64 : reads (header 0x3B 0 0 0 0 0 0) (.get64) = true := by decide
theorem test_decode_getd : reads (header 0x3C 0 0 0 0 0 0) (.getd) = true := by decide
theorem test_decode_escalar :
    reads (header 0x40 1 0 2 3 9 0 ++ [0x61, 0x62, 1, 2, 3]) (.escalar 1 [0x61, 0x62] 9 [1, 2, 3]) = true := by decide
theorem test_decode_earray :
    reads (header 0x41 4 0 1 0 7 0 ++ [0x61]) (.earray 4 [0x61] 7) = true := by decide
theorem test_decode_eelem :
    reads (header 0x42 2 0 0 2 9 0 ++ [0, 0xFF]) (.eelem 2 9 [0, 0xFF]) = true := by decide
theorem test_decode_escalart :
    reads (header 0x44 1 0 2 4 9 0 ++ [0x6B, 0, 0xAC, 0x20, 0xAC, 0x20]) (.escalart 1 [0x6B, 0] 9 [0xAC, 0x20, 0xAC, 0x20]) = true := by decide
theorem test_decode_earrayt :
    reads (header 0x45 1 0 2 0 2 0 ++ [0x6B, 0]) (.earrayt 1 [0x6B, 0] 2) = true := by decide
theorem test_decode_eelemt :
    reads (header 0x46 1 0 0 4 0 0 ++ [0x3D, 0xD8, 0, 0xDE]) (.eelemt 1 [0x3D, 0xD8, 0, 0xDE]) = true := by decide
theorem test_decode_next : reads (header 0x50 0 0 0 0 0 0) (.next) = true := by decide
theorem test_decode_mark : reads (header 0x51 0 1 0 0 0 0) (.mark 1) = true := by decide
theorem test_decode_vinfo : reads (header 0x52 0 2 0 0 0 0) (.vinfo 2) = true := by decide
theorem test_decode_vtag : reads (header 0x53 0 3 0 0 0 0) (.vtag 3) = true := by decide
theorem test_decode_vi8 : reads (header 0x58 0 1 0 0 0 0) (.vi8 1 0) = true := by decide
theorem test_decode_vi16 : reads (header 0x59 0 1 0 0 1 0) (.vi16 1 1) = true := by decide
theorem test_decode_vi32 : reads (header 0x5A 0 1 0 0 2 0) (.vi32 1 2) = true := by decide
theorem test_decode_vi64 : reads (header 0x5B 0 1 0 0 3 0) (.vi64 1 3) = true := by decide
theorem test_decode_vdt : reads (header 0x5C 0 1 0 0 4 0) (.vdt 1 4) = true := by decide
theorem test_decode_vdbl : reads (header 0x5D 0 1 0 0 5 0) (.vdbl 1 5) = true := by decide
theorem test_decode_vstr : reads (header 0x5E 0 1 0 0 6 0) (.vstr 1 6) = true := by decide
theorem test_decode_vbin : reads (header 0x5F 0 1 0 0 7 0) (.vbin 1 7) = true := by decide
theorem test_decode_vvar : reads (header 0x60 0 1 0 0 8 0) (.vvar 1 8) = true := by decide
theorem test_decode_vlong : reads (header 0x61 0 1 0 0 9 0) (.vlong 1 9) = true := by decide

/-- The descriptor of the second command of program P5 (95_test_vectors.md), byte for byte. -/
theorem test_decode_p5_row2 :
    reads [0x44, 0x01, 0x00, 0x00, 0x08, 0x00, 0x00, 0x00, 0x04, 0x00, 0x00, 0x00, 0x00, 0x00, 0x00, 0x00,
           0x00, 0x00, 0x00, 0x00, 0x00, 0x00, 0x00, 0x00, 0x00, 0x00, 0x00, 0x00, 0x00, 0x00, 0x00, 0x00,
           0xE9, 0x00, 0xE9, 0x00, 0xE9, 0x00, 0xE9, 0x00, 0xAC, 0x20, 0xAC, 0x20]
      (.escalart 1 [0xE9, 0, 0xE9, 0, 0xE9, 0, 0xE9, 0] 0 [0xAC, 0x20, 0xAC, 0x20]) = true := by decide

/-- The descriptor of the sixth command of program P3, whose A is -2, byte for byte. -/
theorem test_decode_p3_row6 :
    reads [0x40, 0x03, 0x00, 0x00, 0x01, 0x00, 0x00, 0x00, 0x00, 0x00, 0x00, 0x00, 0x00, 0x00, 0x00, 0x00,
           0xFE, 0xFF, 0xFF, 0xFF, 0xFF, 0xFF, 0xFF, 0xFF, 0x00, 0x00, 0x00, 0x00, 0x00, 0x00, 0x00, 0x00,
           0x61]
      (.escalar 3 [0x61] 0xFFFFFFFFFFFFFFFE []) = true := by decide

/-- A and B lie low byte first. -/
theorem test_decode_operand_order :
    reads [0x10, 0, 0, 0, 0, 0, 0, 0, 0, 0, 0, 0, 0, 0, 0, 0,
           8, 7, 6, 5, 4, 3, 2, 1, 1, 2, 0, 0, 0, 0, 0, 0]
      (.winit 0x0102030405060708 0x0201) = true := by decide

theorem test_decode_entryNull : decodeEntry 0b00000010 = some (.entryNull 2) := by decide
theorem test_decode_entryString : decodeEntry 0b00001101 = some (.entryString 5) := by decide
theorem test_decode_entryBinary : decodeEntry 0b00010000 = some (.entryBinary 0) := by decide
theorem test_decode_entryInt8 : decodeEntry 0b00011011 = some (.entryInt8 3) := by decide
theorem test_decode_entryInt16 : decodeEntry 0b00100110 = some (.entryInt16 6) := by decide
theorem test_decode_entryInt32 : decodeEntry 0b00101001 = some (.entryInt32 1) := by decide
theorem test_decode_entryInt64 : decodeEntry 0b00110100 = some (.entryInt64 4) := by decide
theorem test_decode_entryDouble : decodeEntry 0b00111111 = some (.entryDouble 7) := by decide
theorem test_decode_entryDatetime : decodeEntry 0b01000010 = some (.entryDatetime 2) := by decide
theorem test_decode_entryVarint : decodeEntry 0b01001101 = some (.entryVarint 5) := by decide
theorem test_decode_entryNullArr : decodeEntry 0b10000001 = some (.entryNullArr 1) := by decide
theorem test_decode_entryStringArr : decodeEntry 0b10001110 = some (.entryStringArr 6) := by decide
theorem test_decode_entryBinaryArr : decodeEntry 0b10010011 = some (.entryBinaryArr 3) := by decide
theorem test_decode_entryInt8Arr : decodeEntry 0b10011000 = some (.entryInt8Arr 0) := by decide
theorem test_decode_entryInt16Arr : decodeEntry 0b10100101 = some (.entryInt16Arr 5) := by decide
theorem test_decode_entryInt32Arr : decodeEntry 0b10101010 = some (.entryInt32Arr 2) := by decide
theorem test_decode_entryInt64Arr : decodeEntry 0b10110111 = some (.entryInt64Arr 7) := by decide
theorem test_decode_entryDoubleArr : decodeEntry 0b10111100 = some (.entryDoubleArr 4) := by decide
theorem test_decode_entryDatetimeArr : decodeEntry 0b11000001 = some (.entryDatetimeArr 1) := by decide
theorem test_decode_entryVarintArr : decodeEntry 0b11001110 = some (.entryVarintArr 6) := by decide

theorem test_entry_bytes_unassigned :
    ∀ b ∈ [0x50, 0x57, 0x58, 0x7F, 0xD0, 0xFF], decodeEntry (BitVec.ofNat 8 b) = none := by decide

theorem test_short_header_is_no_command : decode (List.replicate 31 0x50) = .error .shortHeader := by
  rfl

theorem test_length_must_fit : decode (header 0x41 4 0 2 0 7 0 ++ [0x61]) = .error (.badLength 34) := by
  rfl

theorem test_unassigned_opcode : decode (header 0x43 0 0 0 0 0 0) = .error (.badOpcode 0x43) := by rfl

/-! ## One step at a time -/

/-- Reset, then these bytes from position 0 and both cursors set up over them. -/
def loaded (bs : List Byte) : State :=
  { State.reset with
    mem := Memory.writeBytes [] 0 bs
    w := setUp Cursor.reset 0 bs.length
    r := setUp Cursor.reset 0 bs.length }

/-- A writer over `n` bytes of zeros. -/
def room (n : Nat) : State := loaded (List.replicate n 0)

/-- The answer is a next state with this property. -/
def gives (r : Result) (p : State → Bool) : Bool :=
  match r with
  | .next t => p t
  | _ => false

/-- Completed, with these bytes written from position 0 and W.POS after them. -/
def wrote (bs : List Byte) (t : State) : Bool :=
  t.status = 0 && t.w.pos = bs.length && t.bytesAt 0 bs.length = bs

/-- Completed, with this x[0] and R.POS. -/
def read (v : Word) (pos : Nat) (t : State) : Bool := t.status = 0 && t.x0 = v && t.r.pos = pos

/-- E_FORMAT with this cause and position. -/
def malformed (cause : BitVec 3) (pos : Nat) (t : State) : Bool :=
  t.status = 2 && t.r.errKind = 1 && t.r.errCause = cause && t.r.errPos = pos

/-- REJECTED with this REASON, W.POS and R.POS kept. -/
def turnedAway (why : BitVec 8) (s t : State) : Bool :=
  t.status = 6 && t.reason = why && t.w.pos = s.w.pos && t.r.pos = s.r.pos

/-- The next state of an answer that has one. -/
def after (r : Result) : State :=
  match r with
  | .next t => t
  | _ => State.reset

/-- The state after NEXT on one entry. -/
def viewed (bs : List Byte) : State := after (exec .next (loaded bs))

/-- 95_test_vectors.md 2.1 row 4. -/
theorem test_winit :
    gives (exec (.winit 8 16) State.reset) (fun t => t.w.start = 8 && t.w.pos = 8 && t.w.limit = 24) = true := by decide
/-- 2.1 row 3. -/
theorem test_winit_range :
    gives (exec (.winit 60 5) State.reset) (turnedAway 6 State.reset) = true := by decide
/-- 2.1 row 5. -/
theorem test_wrem :
    gives (exec .wrem (after (exec (.winit 8 16) State.reset))) (fun t => t.x0 = 16) = true := by decide
/-- 2.1 row 1. -/
theorem test_wrem_noinit : gives (exec .wrem State.reset) (turnedAway 2 State.reset) = true := by decide
/-- 2.1 row 8. -/
theorem test_wrewind :
    gives (exec .wrewind (after (exec (.put32 1) (room 4)))) (fun t => t.w.pos = 0) = true := by decide
/-- P3 row 5. -/
theorem test_wrewind_clears :
    gives (exec .wrewind (after (exec (.put8 0) (room 0)))) (fun t => t.w.errKind = 0) = true := by decide
/-- 2.1 row 18. -/
theorem test_parse :
    gives (exec (.parse 8 4) State.reset) (fun t => t.r.start = 8 && t.r.pos = 8 && t.r.limit = 12) = true := by decide
/-- 2.1 row 12, on the reader: the sum does not wrap. -/
theorem test_parse_wide :
    gives (exec (.parse 0xFFFFFFFFFFFFFFFF 2) State.reset) (turnedAway 6 State.reset) = true := by decide
/-- 2.1 row 20. -/
theorem test_rrem :
    gives (exec .rrem (after (exec .get16 (loaded [0x34, 0x12, 0, 0])))) (fun t => t.x0 = 2) = true := by decide
/-- P3 row 15. -/
theorem test_rrem_pending :
    gives (exec .rrem (after (exec .get8 (loaded [])))) (fun t => t.status = 6 && t.reason = 3) = true := by decide
/-- 2.1 row 21. -/
theorem test_rrewind :
    gives (exec .rrewind (after (exec .get16 (loaded [0x34, 0x12, 0, 0])))) (fun t => t.r.pos = 0) = true := by decide
/-- 2.2. -/
theorem test_vputu : gives (exec (.vputu 624485) (room 3)) (wrote [0xE5, 0x8E, 0x26]) = true := by decide
/-- 2.2. -/
theorem test_vputu_widest :
    gives (exec (.vputu 0xFFFFFFFFFFFFFFFF) (room 10))
      (wrote [0xFF, 0xFF, 0xFF, 0xFF, 0xFF, 0xFF, 0xFF, 0xFF, 0xFF, 0x01]) = true := by decide
/-- 2.2. -/
theorem test_vputs : gives (exec (.vputs (-123456)) (room 3)) (wrote [0xC0, 0xBB, 0x78]) = true := by decide
/-- 2.2. -/
theorem test_vputs_lowest :
    gives (exec (.vputs 0x8000000000000000) (room 10))
      (wrote [0x80, 0x80, 0x80, 0x80, 0x80, 0x80, 0x80, 0x80, 0x80, 0x7F]) = true := by decide
/-- 2.2: padded. -/
theorem test_vgetu : gives (exec .vgetu (loaded [0xFF, 0x80, 0x00])) (read 127 3) = true := by decide
/-- 2.2: continuation on the tenth byte. -/
theorem test_vgetu_range :
    gives (exec .vgetu (loaded [0x80, 0x80, 0x80, 0x80, 0x80, 0x80, 0x80, 0x80, 0x80, 0x81, 0]))
      (malformed 6 9) = true := by decide
/-- 2.2. -/
theorem test_vgets : gives (exec .vgets (loaded [0x80, 0x7F])) (read (-128) 2) = true := by decide
/-- 2.2. -/
theorem test_vgets_cut : gives (exec .vgets (loaded [0xFF, 0xFF, 0xFF])) (malformed 1 3) = true := by decide
/-- 2.3. -/
theorem test_put8 : gives (exec (.put8 300) (room 1)) (wrote [0x2C]) = true := by decide
/-- 2.3. -/
theorem test_put8_full :
    gives (exec (.put8 0) (room 0)) (fun t => t.status = 3 && t.w.errKind = 2) = true := by decide
/-- 2.3. -/
theorem test_put16 : gives (exec (.put16 74565) (room 2)) (wrote [0x45, 0x23]) = true := by decide
/-- 2.3. -/
theorem test_put32 : gives (exec (.put32 0x100000001) (room 4)) (wrote [1, 0, 0, 0]) = true := by decide
/-- 2.3. -/
theorem test_put64 :
    gives (exec (.put64 0x0102030405060708) (room 8)) (wrote [8, 7, 6, 5, 4, 3, 2, 1]) = true := by decide
/-- 2.3. -/
theorem test_putd :
    gives (exec (.putd 0xC004000000000000) (room 8)) (wrote [0, 0, 0, 0, 0, 0, 4, 0xC0]) = true := by decide
/-- 2.3. -/
theorem test_get8 : gives (exec .get8 (loaded [0x80])) (read (-128) 1) = true := by decide
/-- 2.3. -/
theorem test_get16 : gives (exec .get16 (loaded [0x00, 0x80])) (read (-32768) 2) = true := by decide
/-- 2.3. -/
theorem test_get16_cut : gives (exec .get16 (loaded [0])) (malformed 2 0) = true := by decide
/-- 2.3. -/
theorem test_get32 : gives (exec .get32 (loaded [0, 0, 0, 0x80])) (read (-2147483648) 4) = true := by decide
/-- 2.3. -/
theorem test_get64 :
    gives (exec .get64 (loaded [8, 7, 6, 5, 4, 3, 2, 1])) (read 0x0102030405060708 8) = true := by decide
/-- 2.3. -/
theorem test_getd :
    gives (exec .getd (loaded [0, 0, 0, 0, 0, 0, 4, 0xC0])) (read 0xC004000000000000 8) = true := by decide
/-- 1.1. -/
theorem test_escalar :
    gives (exec (.escalar 5 [0x66, 0x6F, 0x6F] 1 []) (room 8))
      (wrote [0x2B, 0x66, 0x6F, 0x6F, 1, 0, 0, 0]) = true := by decide
/-- 1.4. -/
theorem test_escalar_long_tag :
    gives (exec (.escalar 5 [0x61, 0x62, 0x63, 0x64, 0x65, 0x66, 0x67, 0x68] 1 []) (room 14))
      (wrote [0x28, 8, 0x61, 0x62, 0x63, 0x64, 0x65, 0x66, 0x67, 0x68, 1, 0, 0, 0]) = true := by decide
/-- 2.4. -/
theorem test_earray :
    gives (exec (.earray 3 [0x6E] 200) (room 4)) (wrote [0x99, 0x6E, 0xC8, 1]) = true := by decide
/-- R154. -/
theorem test_earray_empty_tag :
    gives (exec (.earray 3 [] 200) (room 4)) (turnedAway 5 (room 4)) = true := by decide
/-- 2.4. -/
theorem test_eelem :
    gives (exec (.eelem 1 0 [0x62, 0x63]) (room 3)) (wrote [2, 0x62, 0x63]) = true := by decide
/-- R155. -/
theorem test_eelem_badtype :
    gives (exec (.eelem 10 0 []) (room 3)) (turnedAway 4 (room 3)) = true := by decide
/-- 2.4. -/
theorem test_escalart :
    gives (exec (.escalart 1 [0x6B, 0] 0 [0xAC, 0x20, 0xAC, 0x20]) (room 9))
      (wrote [0x09, 0x6B, 6, 0xE2, 0x82, 0xAC, 0xE2, 0x82, 0xAC]) = true := by decide
/-- 2.4. -/
theorem test_escalart_surrogates :
    gives (exec (.escalart 3 [0x3D, 0xD8, 0, 0xDE] 1 []) (room 6))
      (wrote [0x1C, 0xF0, 0x9F, 0x98, 0x80, 1]) = true := by decide
/-- 2.4. -/
theorem test_earrayt :
    gives (exec (.earrayt 7 [0x76, 0, 0x61, 0, 0x6C, 0, 0x75, 0, 0x65, 0] 7) (room 7))
      (wrote [0xBD, 0x76, 0x61, 0x6C, 0x75, 0x65, 7]) = true := by decide
/-- 2.4. -/
theorem test_eelemt :
    gives (exec (.eelemt 1 [0xAC, 0x20, 0xAC, 0x20]) (room 7))
      (wrote [6, 0xE2, 0x82, 0xAC, 0xE2, 0x82, 0xAC]) = true := by decide
/-- P5 row 5. -/
theorem test_eelemt_unpaired :
    gives (exec (.eelemt 1 [0x3D, 0xD8]) (room 7)) (turnedAway 9 (room 7)) = true := by decide

/-- The literal of 95_test_vectors.md 1.2. -/
def leb128 : List Byte :=
  [0xCE, 0x6C, 0x65, 0x62, 0x31, 0x32, 0x38,
   9, 0, 0x7F, 1, 0x81, 0x7F, 0xFF, 0, 0x80, 0x7F, 0x80, 1, 0x80, 0x80, 0x7C, 0x80, 0x80, 4]

/-- 1.2, and 2.1 row 16. -/
theorem test_next :
    gives (exec .next (loaded leb128))
      (fun t => read 0 25 t && (t.viewAt 0).count = 9 && (t.viewAt 0).dataOff = 8 &&
        (t.viewAt 0).elems.getD 7 (.val 0) = .val (-65536)) = true ∧
    gives (exec .next (loaded [])) (fun t => t.status = 1) = true := by decide

/-- P4 run B row 4. -/
theorem test_mark : gives (exec (.mark 0) (viewed leb128)) (fun t => (t.viewAt 0).reuse) = true := by decide
/-- P4 run B row 11. -/
theorem test_mark_empty :
    gives (exec (.mark 1) (viewed leb128)) (fun t => t.status = 6 && t.reason = 8) = true := by decide
/-- 1.2. -/
theorem test_vinfo :
    gives (exec (.vinfo 0) (viewed leb128)) (fun t => t.x0 = 0x19 && t.x1 = 9) = true := by decide
/-- R85: NVIEW = 2. -/
theorem test_vinfo_badslot :
    gives (exec (.vinfo 2) (viewed leb128)) (fun t => t.status = 6 && t.reason = 7) = true := by decide
/-- 1.2. -/
theorem test_vtag :
    gives (exec (.vtag 0) (viewed leb128)) (fun t => t.x0 = 1 && t.x1 = 6) = true := by decide
/-- 2.4. -/
theorem test_vi8 :
    gives (exec (.vi8 0 0) (viewed [0x19, 0x61, 0xFE]))
      (fun t => t.status = 0 && t.x0 = -2) = true := by decide
/-- 2.4. -/
theorem test_vi16 :
    gives (exec (.vi16 0 0) (viewed [0x21, 0x68, 0, 0x80]))
      (fun t => t.status = 0 && t.x0 = -32768) = true := by decide
/-- 2.4. -/
theorem test_vi32 :
    gives (exec (.vi32 0 0) (viewed [0x29, 0x77, 0, 0, 0, 0x80]))
      (fun t => t.status = 0 && t.x0 = -2147483648) = true := by decide
/-- 2.4. -/
theorem test_vi64 :
    gives (exec (.vi64 0 0) (viewed [0x31, 0x71, 0x08, 0x07, 0x06, 0x05, 0x04, 0x03, 0x02, 1]))
      (fun t => t.status = 0 && t.x0 = 0x0102030405060708) = true := by decide
/-- 2.4. -/
theorem test_vdbl :
    gives (exec (.vdbl 0 0) (viewed [0x39, 0x64, 0, 0, 0, 0, 0, 0, 0xF8, 0x3F]))
      (fun t => t.status = 0 && t.x0 = 0x3FF8000000000000) = true := by decide
/-- 2.4. -/
theorem test_vdt :
    gives (exec (.vdt 0 0) (viewed [0x41, 0x74, 0, 0xE4, 0x0B, 0x54, 0x02, 0, 0, 0]))
      (fun t => t.status = 0 && t.x0 = 10000000000) = true := by decide
/-- 2.4. -/
theorem test_vstr :
    gives (exec (.vstr 0 2) (viewed [0x8A, 0x73, 0x73, 0x03, 1, 0x61, 0, 0x02, 0x62, 0x63]))
      (fun t => t.x0 = 8 && t.x1 = 2) = true := by decide
/-- 2.4. -/
theorem test_vbin :
    gives (exec (.vbin 0 0) (viewed [0x11, 0x62, 0x02, 0, 0xFF])) (fun t => t.x0 = 3 && t.x1 = 2) = true := by decide
/-- 1.2. -/
theorem test_vvar : gives (exec (.vvar 0 3) (viewed leb128)) (fun t => t.x0 = -127) = true := by decide
/-- 1.2. -/
theorem test_vlong : gives (exec (.vlong 0 8) (viewed leb128)) (fun t => t.x0 = 65536) = true := by decide
/-- 2.4. -/
theorem test_vlong_null :
    gives (exec (.vlong 0 0) (viewed [0x03, 0x6E, 0x69, 0x6C])) (fun t => t.status = 4) = true := by decide
/-- 2.4. -/
theorem test_entryNull :
    gives (exec (.entryNull 3) (loaded [0x03, 0x6E, 0x69, 0x6C]))
      (fun t => read 0 4 t && (t.viewAt 0).dataOff = 4) = true := by decide
/-- 2.4. -/
theorem test_entryString :
    gives (exec (.entryString 4) (loaded [0x0C, 0x6E, 0x61, 0x6D, 0x65, 0x05, 0x68, 0x65, 0x6C, 0x6C, 0x6F]))
      (fun t => read 0 11 t && (t.viewAt 0).elems = [.span 6 5]) = true := by decide
/-- 2.4. -/
theorem test_entryBinary :
    gives (exec (.entryBinary 1) (loaded [0x11, 0x62, 0x02, 0, 0xFF]))
      (fun t => read 0 5 t && (t.viewAt 0).elems = [.span 3 2]) = true := by decide
/-- 2.4. -/
theorem test_entryInt8 :
    gives (exec (.entryInt8 1) (loaded [0x19, 0x61, 0xFE]))
      (fun t => read 0 3 t && (t.viewAt 0).dataOff = 2) = true := by decide
/-- 2.4. -/
theorem test_entryInt16 :
    gives (exec (.entryInt16 1) (loaded [0x21, 0x68, 0, 0x80]))
      (fun t => read 0 4 t && (t.viewAt 0).type = 4) = true := by decide
/-- 1.1. -/
theorem test_entryInt32 :
    gives (exec (.entryInt32 3) (loaded [0x2B, 0x66, 0x6F, 0x6F, 1, 0, 0, 0]))
      (fun t => read 0 8 t && (t.viewAt 0).dataOff = 4) = true := by decide
/-- 2.4. -/
theorem test_entryInt64 :
    gives (exec (.entryInt64 1) (loaded [0x31, 0x71, 0x08, 0x07, 0x06, 0x05, 0x04, 0x03, 0x02, 1]))
      (fun t => read 0 10 t && (t.viewAt 0).type = 6) = true := by decide
/-- 2.4. -/
theorem test_entryDouble :
    gives (exec (.entryDouble 1) (loaded [0x39, 0x64, 0, 0, 0, 0, 0, 0, 0xF8, 0x3F]))
      (fun t => read 0 10 t && (t.viewAt 0).type = 7) = true := by decide
/-- 2.4. -/
theorem test_entryDatetime :
    gives (exec (.entryDatetime 1) (loaded [0x41, 0x74, 0, 0xE4, 0x0B, 0x54, 0x02, 0, 0, 0]))
      (fun t => read 0 10 t && (t.viewAt 0).type = 8) = true := by decide
/-- 2.4. -/
theorem test_entryVarint :
    gives (exec (.entryVarint 1) (loaded [0x49, 0x76, 0x81, 0x7F]))
      (fun t => read 0 4 t && (t.viewAt 0).elems = [.val (-127)]) = true := by decide
/-- 2.4. -/
theorem test_entryNullArr :
    gives (exec (.entryNullArr 1) (loaded [0x81, 0x7A, 0x05]))
      (fun t => read 0 3 t && (t.viewAt 0).count = 5) = true := by decide
/-- 2.4. -/
theorem test_entryStringArr :
    gives (exec (.entryStringArr 2) (loaded [0x8A, 0x73, 0x73, 0x03, 1, 0x61, 0, 0x02, 0x62, 0x63]))
      (fun t => read 0 10 t && (t.viewAt 0).elems = [.span 5 1, .span 7 0, .span 8 2]) = true := by decide
/-- R199, by hand. -/
theorem test_entryBinaryArr :
    gives (exec (.entryBinaryArr 1) (loaded [0x91, 0x62, 1, 0x02, 0, 0xFF]))
      (fun t => read 0 6 t && (t.viewAt 0).elems = [.span 4 2]) = true := by decide
/-- R194, R198, by hand: the tag length as a varint. -/
theorem test_entryInt8Arr :
    gives (exec (.entryInt8Arr 0) (loaded [0x98, 1, 0x6E, 0x02, 0x05, 0x06]))
      (fun t => read 0 6 t && (t.viewAt 0).tagOff = 2) = true := by decide
/-- 2.4. -/
theorem test_entryInt16Arr :
    gives (exec (.entryInt16Arr 1) (loaded [0xA1, 0x61, 0x02, 0x34, 0x12, 0xFF, 0xFF]))
      (fun t => read 0 7 t && (t.viewAt 0).count = 2) = true := by decide
/-- 2.4: an empty array. -/
theorem test_entryInt32Arr :
    gives (exec (.entryInt32Arr 1) (loaded [0xA9, 0x65, 0]))
      (fun t => read 0 3 t && (t.viewAt 0).count = 0) = true := by decide
/-- R198, by hand. -/
theorem test_entryInt64Arr :
    gives (exec (.entryInt64Arr 1) (loaded [0xB1, 0x61, 1, 1, 0, 0, 0, 0, 0, 0, 0]))
      (fun t => read 0 11 t && (t.viewAt 0).dataOff = 3) = true := by decide
/-- 1.3, with no element. -/
theorem test_entryDoubleArr :
    gives (exec (.entryDoubleArr 5) (loaded [0xBD, 0x76, 0x61, 0x6C, 0x75, 0x65, 0]))
      (fun t => read 0 7 t && (t.viewAt 0).dataOff = 7) = true := by decide
/-- R198, by hand. -/
theorem test_entryDatetimeArr :
    gives (exec (.entryDatetimeArr 1) (loaded [0xC1, 0x61, 1, 1, 0, 0, 0, 0, 0, 0, 0]))
      (fun t => read 0 11 t && (t.viewAt 0).array) = true := by decide
/-- 2.4. -/
theorem test_entryVarintArr :
    gives (exec (.entryVarintArr 0) (loaded [0xC8, 0x08, 0x61, 0x62, 0x63, 0x64, 0x65, 0x66, 0x67, 0x68, 1, 0xC0, 0]))
      (fun t => read 0 13 t && (t.viewAt 0).elems = [.val 64]) = true := by decide

/-- The faults of NEXT (44_reader.md R194 to R201), by hand: a zero tag, an unassigned type code, a cut tag, a
cut field, a cut String, a cut count. -/
theorem test_next_faults :
    gives (exec .next (loaded [0x18, 0, 0x61, 1])) (malformed 3 0) = true ∧
    gives (exec .next (loaded [0x51, 0x61, 1])) (malformed 4 0) = true ∧
    gives (exec .next (loaded [0x1B, 0x61, 1])) (malformed 5 1) = true ∧
    gives (exec .next (loaded [0x29, 0x77, 0, 0])) (malformed 2 2) = true ∧
    gives (exec .next (loaded [0x09, 0x78, 3, 0x68, 0x69])) (malformed 5 3) = true ∧
    gives (exec .next (loaded [0x99, 0x6E, 0xC8])) (malformed 1 3) = true := by decide


/-! ## The texts and the procedure of R173 to R175 -/

/-- 2.4. -/
theorem test_utf8 :
    utf8 [0x0041, 0x00E9, 0x20AC, 0xD83D, 0xDE00] =
      [0x41, 0xC3, 0xA9, 0xE2, 0x82, 0xAC, 0xF0, 0x9F, 0x98, 0x80] := by decide
/-- 1.4: seven characters, fourteen bytes; the short path moves the tag. -/
theorem test_patch_short_path_grows :
    gives (finish (room 16) none (patchTag .int32 (List.replicate 7 0x00E9) (room 16)))
      (fun t => t.w.pos = 16 && t.bytesAt 0 4 = [0x28, 0x0E, 0xC3, 0xA9]) = true := by decide

/-! ## The host, the fetch and reset -/

theorem test_reset_inv_parts : State.reset.mem.wf ∧ State.reset.cfg.Valid := by decide

/-- A table word runs from reset as a command. -/
theorem test_fetch_command :
    gives (step (State.reset.withFetchWord 256 (0x18 + 2 ^ 128 * 5 + 2 ^ 192 * 3)))
      (fun t => t.r.start = 5 && t.r.limit = 8) = true := by decide

/-- A table word of byte0 runs from reset as an entry: an Int32 scalar, tag of three zero bytes. -/
theorem test_fetch_entry :
    gives (step (State.reset.withFetchWord 8 0x2B))
      (fun t => t.status = 0 && (t.viewAt 0).type = 5 && (t.viewAt 0).tagLen = 3) = true := by decide

theorem test_host_write_then_read :
    gives (step { State.reset with inbox := [.access (.writeMem 62 [7, 9])] })
      (fun t => t.byteAt 62 = 7 && t.byteAt 63 = 9 && t.inbox = []) = true := by decide

/-- R273: a first reset starts new contents of MEM. -/
theorem test_reset_starts_an_epoch :
    gives (step { State.reset with inbox := [.access .reset] }) (fun t => t.memEpoch ≠ State.reset.memEpoch) = true := by
  decide

theorem test_host_reads_limit :
    gives (step { loaded [1, 2, 3] with inbox := [.access (.readReg 0x22)] }) (fun t => t.hostData = 3) = true := by
  decide

/-! ## Witnesses: every statement with hypotheses has a state and operands that meet them -/

/-- A loaded engine is sane. -/
theorem inv_loaded (bs : List Byte) (h : bs.length ≤ 64) : Inv (loaded bs) := by
  have h0 : (0 : Nat) < 2 ^ 32 := by norm_num
  have hl : 0 + bs.length < 2 ^ 32 := by omega
  have hm : 0 + bs.length ≤ 64 := by omega
  have hc : CursorSane Config.standard (setUp Cursor.reset 0 bs.length) :=
    ⟨⟨h0, h0, hl, h0⟩, fun _ => ⟨Nat.le_refl 0, Nat.zero_le _, hm⟩, fun k => Bool.noConfusion (k : true = false), fun k => absurd rfl k⟩
  refine { cfg := (by decide : Config.standard.Valid), mem := ⟨?_, fun c hc => ?_⟩, w := hc
           wErr := ⟨.inl rfl, rfl⟩, r := hc, rErr := .inl ⟨rfl, rfl⟩
           status := (by decide : (0 : BitVec 8).toNat ≤ 6)
           reason := (by decide : (0 : BitVec 8).toNat ≤ 9 ∧ ((0 : BitVec 8) = 0 ↔ (0 : BitVec 8) ≠ 6))
           slots := rfl, views := fun v hv => ?_, cv := fun k => Bool.noConfusion (k : false = true) }
  · exact Memory.wf_writeBytes List.Pairwise.nil _ _
  · rcases Memory.mem_writeBytes hc with hx | hx
    · exact Nat.lt_of_lt_of_le (by omega) h
    · cases hx
  · have : v = View.empty := by
      simpa [loaded, State.reset, State.resetOf, Config.standard, List.replicate] using hv
    subst this
    exact ⟨⟨h0, h0, h0⟩, fun _ => rfl, by intro k; exact absurd k (by decide)⟩

/-- The document of program P4: three Int8 entries. -/
def three : State := loaded [0x19, 0x61, 1, 0x19, 0x62, 2, 0x19, 0x63, 3]

theorem inv_three : Inv three := inv_loaded _ (by decide)

/-- `three` with the view `v` in slot 0 as the current one. -/
def holding (v : View) : State := { three with views := [v, View.empty], cvValid := true, cvSlot := 0 }

theorem inv_holding {v : View} (h : ViewSane Config.standard v) : Inv (holding v) :=
  { inv_three with
    slots := rfl
    views := fun u hu => by
      rcases List.mem_cons.1 hu with rfl | hu
      · exact h
      · exact inv_three.views u (by simpa [three, loaded, State.reset, State.resetOf, Config.standard] using hu)
    cv := fun _ => (by decide : (0 : Nat) < 2) }

/-- A scalar view of tag [1, 2) and payload at 2. -/
def scalarView (ty : BitVec 4) (es : List Elem) : View :=
  { valid := true, reuse := false, type := ty, array := false, count := 1, tagOff := 1, tagLen := 1,
    dataOff := 2, elems := es }

/-- The view of the first entry of P4. -/
def byteView : View := scalarView 3 []

theorem sane_fixed (ty : BitVec 4) (h : ty ∈ [3, 4, 5, 6, 7, 8]) : ViewSane Config.standard (scalarView ty []) := by
  simp only [List.mem_cons, List.not_mem_nil, or_false] at h
  rcases h with rfl | rfl | rfl | rfl | rfl | rfl <;>
    exact ⟨by decide, by intro k; exact absurd k (by decide),
      fun _ => ⟨fun _ => rfl, by decide, by decide, by decide, rfl, by decide⟩⟩

/-- W with BufferTooSmall pending. -/
def wFull : State := { three with w := { three.w with errKind := 2 } }

/-- R with a FormatError pending. -/
def rBad : State := { three with r := { three.r with errKind := 1, errCause := 1 } }

/-- A state whose host asks for one move. -/
def asks (m : HostMove) (s : State) : State := { s with inbox := [m] }

theorem witness_ResetLeavesListedValues :
    (∃ c, State.reset = State.resetOf c) ∧
    ∃ rest, (asks (.access .reset) three).inbox = .access .reset :: rest ∧
      step (asks (.access .reset) three) = .next (after (step (asks (.access .reset) three))) :=
  ⟨⟨_, rfl⟩, [], rfl, rfl⟩

theorem witness_InvAtReset :
    Config.Valid { memSize := 1, aw := 1, nview := 2 } ∧
    Config.Valid { memSize := 2 ^ 20, aw := 21, nview := 256 } := by decide

theorem witness_StepKeepsInv :
    Inv (asks (.command (header 0x50 0 0 0 0 0 0)) three) ∧
    step (asks (.command (header 0x50 0 0 0 0 0 0)) three) =
      .next (after (step (asks (.command (header 0x50 0 0 0 0 0 0)) three))) :=
  ⟨{ inv_three with }, rfl⟩

theorem witness_EveryCommandAnswersNext :
    Inv three ∧ LegalMove three.cfg (.command (header 0x50 0 0 0 0 0 0)) ∧
    LegalMove three.cfg (.command (header 0x41 4 0 1 0 7 0 ++ [0x61])) ∧
    LegalMove three.cfg (.access (.writeMem 62 [1, 2])) ∧ LegalMove three.cfg (.access (.writeMem 64 [])) ∧
    LegalMove three.cfg (.access (.readMem 63)) ∧ LegalMove three.cfg (.access (.readReg 0)) ∧
    LegalMove three.cfg (.access .reset) := by
  refine ⟨inv_three, ?_⟩
  unfold LegalMove
  decide

theorem witness_StepRunsPresentedCommand :
    (asks (.command (header 0x50 0 0 0 0 0 0)) three).inbox = .command (header 0x50 0 0 0 0 0 0) :: [] ∧
    decode (header 0x50 0 0 0 0 0 0) = .ok .next ∧ three.inbox = [] := ⟨rfl, rfl, rfl⟩

theorem witness_HostAccessesAreStorage :
    62 + [(1 : Byte), 2].length ≤ three.cfg.memSize ∧ 63 < three.cfg.memSize ∧
    (asks (.access (.writeMem 62 [1, 2])) three).inbox = .access (.writeMem 62 [1, 2]) :: [] ∧
    (asks (.access (.readMem 63)) three).inbox = .access (.readMem 63) :: [] ∧
    (asks (.access .reset) State.reset).inbox = .access .reset :: [] := by decide

/-- One state for the clauses on defined registers, one each for CV without a view and for a fault. -/
theorem witness_RegisterMap :
    (∀ num, (asks (.access (.readReg num)) (holding byteView)).inbox = .access (.readReg num) :: []) ∧
    (holding byteView).cvValid = true ∧ three.cvValid = false ∧
    (answered2 three 1 2).x0Known = true ∧ (answered2 three 1 2).x1Known = true ∧
    (0x010, three.w) ∈ [(0x010, three.w), (0x020, three.r)] ∧
    (0x020, three.r) ∈ [(0x010, three.w), (0x020, three.r)] ∧
    three.w.init = true ∧ three.w.errKind = 0 ∧ three.r.init = true ∧ three.r.errKind = 0 ∧
    rBad.r.errKind = 1 ∧ 0 < three.cfg.nview ∧ 1 < three.cfg.nview ∧
    ((holding byteView).viewAt 0).valid = true ∧ ((holding byteView).viewAt 1).valid = false :=
  ⟨fun _ => rfl, by decide⟩

/-- The first and last code of each of the ranges of R84, and of each block of assigned ones. -/
theorem witness_UnassignedOpcodeIsRejected :
    (∀ op ∈ [0x00, 0x0F, 0x13, 0x17, 0x1B, 0x1F, 0x22, 0x27, 0x2A, 0x2F, 0x35, 0x37, 0x3D, 0x3F, 0x43, 0x47, 0x4F,
             0x54, 0x57, 0x62, 0xFF], Unassigned op) ∧
    (∀ op ∈ [0x10, 0x12, 0x18, 0x1A, 0x20, 0x21, 0x28, 0x29, 0x30, 0x34, 0x38, 0x3C, 0x40, 0x42, 0x44, 0x46, 0x50, 0x53,
             0x58, 0x61], ¬ Unassigned op) ∧
    (∀ op : Byte, (asks (.command (header op 0 0 0 0 0 0)) three).inbox = .command (header op 0 0 0 0 0 0) :: [] ∧
      LegalMove three.cfg (.command (header op 0 0 0 0 0 0)) ∧ (header op 0 0 0 0 0 0).getD 0 0 = op) :=
  ⟨by decide, by decide, fun _ => ⟨rfl, ⟨Nat.le_refl 32, rfl⟩, rfl⟩⟩

/-- Two different commands WREM, and two different MARK, that agree where it counts. -/
theorem witness_UnusedFieldsAreIgnored :
    SameUsedFields ⟨0x12, 0, 0, 0, 0, [], []⟩ ⟨0x12, 1, 2, 3, 4, [5], [6]⟩ ∧
    SameUsedFields ⟨0x51, 0, 2, 0, 0, [], []⟩ ⟨0x51, 1, 2, 3, 4, [5], [6]⟩ ∧ 15 ∈ [3, 12, 13, 14, 15] := by decide

theorem witness_DecodeOfEncode :
    (Instr.escalar 1 [0x61] 0 [0xFF]).wellFormed = true ∧
    (Instr.escalar 1 [0x61] 0 [0xFF]).toCommand.isSome = true ∧
    (Instr.entryInt32 7).wellFormed = true ∧ (Instr.entryInt32 7).toCommand = none := by decide

theorem witness_EntryByteSelectsItsForm :
    decodeEntry 0x00 = some (.entryNull 0) ∧ decodeEntry 0xCF = some (.entryVarintArr 7) ∧
    decodeEntry 0x50 = none ∧ 0x50 ≤ ((0xFF : Byte) &&& 0x78).toNat := by decide

/-- The hypothesis of an `Encodes` clause, for every opcode such a clause names. -/
theorem witness_Encodes (op : Byte) : (plainCommand op).op = op := rfl

theorem witness_WinitSetsUpTheWriter :
    (60 : Word).toNat + (4 : Word).toNat ≤ three.cfg.memSize ∧
    three.cfg.memSize < (60 : Word).toNat + (5 : Word).toNat := by decide

theorem witness_ParseSetsUpTheReader :
    (64 : Word).toNat + (0 : Word).toNat ≤ three.cfg.memSize ∧
    three.cfg.memSize < (0xFFFFFFFFFFFFFFFF : Word).toNat + (2 : Word).toNat := by decide

theorem witness_RewindReturnsToStart :
    wFull.w.init = true ∧ State.reset.w.init = false ∧ rBad.r.init = true ∧ State.reset.r.init = false := by decide

/-- What `ReaderRefuses`, `RejectsFor` and `WritesOrFaults` ask of the cursor before anything else. -/
theorem witness_cursor_tests :
    State.reset.w.init = false ∧ (wFull.w.init = true ∧ wFull.w.errKind ≠ 0) ∧
    State.reset.r.init = false ∧ (rBad.r.init = true ∧ rBad.r.errKind ≠ 0) ∧
    WriterReady three ∧ ReaderReady three ∧ WriterPlaced State.reset ∧ WriterPlaced wFull ∧ WriterPlaced three ∧
    ReaderPlaced State.reset ∧ ReaderPlaced rBad ∧ ReaderPlaced three := by decide

/-- What `ViewRefuses` asks. -/
theorem witness_view_tests :
    three.cfg.nview ≤ (2 : Byte).toNat ∧ (1 : Byte).toNat < three.cfg.nview ∧
    (three.viewAt (1 : Byte).toNat).valid = false := by decide

theorem witness_RemainingIsLimitMinusPosition :
    WriterReady three ∧ three.w.pos + (9 : Word).toNat = three.w.limit ∧
    WriterReady (room 0) ∧ (room 0).w.pos + (0 : Word).toNat = (room 0).w.limit ∧
    ReaderReady three ∧ three.r.pos + (9 : Word).toNat = three.r.limit := by decide

theorem witness_VarintEncodersFollowTheirLoops :
    (0 : Nat) < 2 ^ 64 ∧ (2 ^ 64 - 1 : Nat) < 2 ^ 64 ∧
    (-2 ^ 63 : Int) ≤ -2 ^ 63 ∧ (2 ^ 63 - 1 : Int) < 2 ^ 63 := by decide

theorem witness_UlebIsShortest : (255 : Nat) < 2 ^ 64 ∧ IsUnsigned [0xFF, 0x81, 0] 255 := by decide

theorem witness_SlebIsShortest :
    (-2 ^ 63 : Int) ≤ -128 ∧ (-128 : Int) < 2 ^ 63 ∧ IsSigned [0x80, 0xFF, 0x7F] (-128) := by decide

theorem witness_VputuAppendsUleb :
    WriterReady (room 2) ∧ (room 2).w.pos + (uleb 128).length ≤ (room 2).w.limit ∧
    WriterReady (room 1) ∧ (room 1).w.limit < (room 1).w.pos + (uleb 128).length ∧
    WriterPlaced (room 2) ∧ WriterPlaced (room 1) := by decide

theorem witness_VputsAppendsSleb :
    WriterReady (room 2) ∧ (room 2).w.pos + (sleb (64 : Word).toInt).length ≤ (room 2).w.limit ∧
    WriterReady (room 1) ∧ (room 1).w.limit < (room 1).w.pos + (sleb (64 : Word).toInt).length := by decide

/-- The region of a ten-byte varint whose tenth byte is 2. -/
def wideVarint : State := loaded [0xFF, 0xFF, 0xFF, 0xFF, 0xFF, 0xFF, 0xFF, 0xFF, 0xFF, 2]

theorem witness_VgetuReadsUnsigned :
    (ReaderPlaced (loaded [0xFF, 0x80, 0]) ∧ ReaderReady (loaded [0xFF, 0x80, 0]) ∧ IsUnsigned [0xFF, 0x80, 0] 127 ∧
      ReadsAt (loaded [0xFF, 0x80, 0]) 0 [0xFF, 0x80, 0]) ∧
    (ReaderReady (loaded []) ∧ VarintCut (loaded []) 0) ∧ (ReaderReady (loaded [0xFF]) ∧ VarintCut (loaded [0xFF]) 0) ∧
    (ReaderReady wideVarint ∧ ReaderPlaced wideVarint ∧ UnsignedTooWide wideVarint 0) := by decide

theorem witness_VgetsReadsSigned :
    (ReaderPlaced (loaded [0x80, 0x7F]) ∧ ReaderReady (loaded [0x80, 0x7F]) ∧ IsSigned [0x80, 0x7F] (-128) ∧
      ReadsAt (loaded [0x80, 0x7F]) 0 [0x80, 0x7F]) ∧
    (ReaderReady (loaded [0xFF]) ∧ VarintCut (loaded [0xFF]) 0) ∧
    (ReaderReady wideVarint ∧ SignedTooWide wideVarint 0) := by decide

theorem witness_VarintRoundTrip :
    (54 : Word).toNat + (10 : Word).toNat ≤ three.cfg.memSize ∧
    (uleb (0xFFFFFFFFFFFFFFFF : Word).toNat).length ≤ (10 : Word).toNat ∧
    (sleb (0x8000000000000000 : Word).toInt).length ≤ (10 : Word).toNat := by decide

theorem witness_PutAppendsLowBytes :
    (∀ n ∈ [1, 2, 4, 8], WriterPlaced (room n) ∧ WriterReady (room n) ∧
      (room n).w.pos + (operandBytes n 300).length ≤ (room n).w.limit) ∧
    (∀ n ∈ [1, 2, 4, 8], WriterPlaced (room (n - 1)) ∧ WriterReady (room (n - 1)) ∧
      (room (n - 1)).w.limit < (room (n - 1)).w.pos + (operandBytes n 300).length) := by decide

theorem witness_GetDeliversSignExtended :
    (∀ n ∈ [1, 2, 4, 8], ReaderPlaced (room n) ∧ ReaderReady (room n) ∧ (List.replicate n (0 : Byte)).length = n ∧
      ReadsAt (room n) (room n).r.pos (List.replicate n 0)) ∧
    (∀ n ∈ [1, 2, 4, 8], ReaderPlaced (room (n - 1)) ∧ ReaderReady (room (n - 1)) ∧
      (room (n - 1)).r.limit < (room (n - 1)).r.pos + n) := by decide

theorem witness_FixedRoundTrip :
    ∀ n ∈ [1, 2, 4, 8], (BitVec.ofNat 64 (64 - n)).toNat + (BitVec.ofNat 64 n).toNat ≤ three.cfg.memSize ∧
      n ≤ (BitVec.ofNat 64 n).toNat := by decide

theorem witness_HeaderAndElementBytes :
    (List.replicate 7 (0x61 : Byte)).length ≤ 7 ∧ 8 ≤ (List.replicate 8 (0x61 : Byte)).length := by decide

/-- An entry of the last type code with the longest inline tag that fits exactly, one that misses by one
byte, and the operands that are turned away. -/
theorem witness_EscalarWritesTheEntry :
    9 < (10 : Byte).toNat ∧ ((9 : Byte).toNat ≤ 9 ∧ ([] : List Byte) = []) ∧
    ([(0x61 : Byte)] ≠ [] ∧ (3 : Byte).toNat = typeCode .int8 ∧ WriterPlaced (room 3) ∧ WriterReady (room 3) ∧
      (room 3).w.pos + (hdr false .int8 [0x61] ++ elemBytes .int8 1 []).length ≤ (room 3).w.limit ∧
      WriterPlaced (room 2) ∧ WriterReady (room 2) ∧
      (room 2).w.limit < (room 2).w.pos + (hdr false .int8 [0x61] ++ elemBytes .int8 1 []).length) := by decide

theorem witness_EarrayWritesTheHeader :
    9 < (10 : Byte).toNat ∧ ((9 : Byte).toNat ≤ 9 ∧ ([] : List Byte) = []) ∧
    ([(0x61 : Byte)] ≠ [] ∧ (9 : Byte).toNat = typeCode .varint ∧ WriterReady (room 4) ∧
      (room 4).w.pos + (hdr true .varint [0x61] ++ uleb (200 : Word).toNat).length ≤ (room 4).w.limit ∧
      WriterReady (room 3) ∧
      (room 3).w.limit < (room 3).w.pos + (hdr true .varint [0x61] ++ uleb (200 : Word).toNat).length) := by decide

theorem witness_EelemWritesOneElement :
    9 < (10 : Byte).toNat ∧
    ((1 : Byte).toNat = typeCode .string ∧ WriterReady (room 3) ∧
      (room 3).w.pos + (elemBytes .string 0 [0x62, 0x63]).length ≤ (room 3).w.limit ∧ WriterReady (room 2) ∧
      (room 2).w.limit < (room 2).w.pos + (elemBytes .string 0 [0x62, 0x63]).length) := by decide

/-- The text U+1F600 and its bytes. -/
theorem paired_grin : Paired [0xD83D, 0xDE00] := by
  intro k u h
  match k, h with
  | 0, h => cases h; exact ⟨fun _ => ⟨_, rfl, by decide, by decide⟩, fun g => absurd g (by decide)⟩
  | 1, h => cases h; exact ⟨fun g => absurd g (by decide), fun _ => ⟨0, _, rfl, rfl, by decide, by decide⟩⟩
  | k + 2, h => cases h

/-- Both directions: an operand and its text, and an operand that carries none. -/
theorem witness_TextOperandsAreUtf16 :
    textOf [0x3D, 0xD8, 0, 0xDE] = some [0xD83D, 0xDE00] ∧ Paired [0xD83D, 0xDE00] ∧
    textOf [0x3D, 0xD8] = none ∧ textOf [0x61] = none := ⟨by decide, paired_grin, by decide, by decide⟩

theorem witness_Utf8FollowsItsTable :
    [(0x7F : CodeUnit), 0x80, 0x7FF, 0x800, 0xD7FF, 0xE000, 0xFFFF].all (fun u => !isHigh u && !isLow u) = true ∧
    (isHigh 0xD800 = true ∧ isLow 0xDC00 = true ∧
      (0x10000 : BitVec 21).toNat = 0x10000 + ((0xD800 : CodeUnit).toNat - 0xD800) * 0x400 + ((0xDC00 : CodeUnit).toNat - 0xDC00)) ∧
    (isHigh 0xDBFF = true ∧ isLow 0xDFFF = true ∧
      (0x10FFFF : BitVec 21).toNat = 0x10000 + ((0xDBFF : CodeUnit).toNat - 0xD800) * 0x400 + ((0xDFFF : CodeUnit).toNat - 0xDC00)) :=
  ⟨by decide, ⟨by decide, by decide, by simp⟩, ⟨by decide, by decide, by simp⟩⟩

theorem witness_Utf8LengthBounds : Paired [0xD83D, 0xDE00] := paired_grin

theorem witness_EscalartWritesTheEntry :
    9 < (10 : Byte).toNat ∧ ((9 : Byte).toNat ≤ 9 ∧ [(0x61 : Byte)].length < 2) ∧
    ((9 : Byte).toNat ≤ 9 ∧ 2 ≤ [(0x3D : Byte), 0xD8].length ∧ textOf [0x3D, 0xD8] = none) ∧
    ((1 : Byte).toNat = 1 ∧ 2 ≤ [(0x6B : Byte), 0].length ∧ textOf [0x6B] = none) ∧
    ([(0x6B : CodeUnit)] ≠ [] ∧ textOf [0x6B, 0] = some [0x6B] ∧ textOf [0xAC, 0x20] = some [0x20AC] ∧
      WriterReady (room 6) ∧ (room 6).w.pos +
        (hdr false .string (utf8 [0x6B]) ++ elemBytes .string 0 (utf8 [0x20AC])).length ≤ (room 6).w.limit) ∧
    (EntryType.int8 ≠ .string ∧ (3 : Byte).toNat = typeCode .int8 ∧ WriterReady (room 2) ∧
      (room 2).w.limit < (room 2).w.pos + (hdr false .int8 (utf8 [0x6B]) ++ elemBytes .int8 0 []).length) :=
  ⟨by decide, by decide, by decide, by decide, ⟨by decide, by decide, by decide, by decide, by decide⟩,
    ⟨by decide, by decide, by decide, by decide⟩⟩

theorem witness_EarraytAndEelemtWrite :
    (9 < (10 : Byte).toNat ∧ (10 : Byte).toNat ≠ 1) ∧ ((9 : Byte).toNat ≤ 9 ∧ [(0x61 : Byte)].length < 2) ∧
    (2 ≤ [(0x3D : Byte), 0xD8].length ∧ textOf [0x3D, 0xD8] = none ∧ (1 : Byte).toNat = 1) ∧
    ([(0x6B : CodeUnit)] ≠ [] ∧ textOf [0x6B, 0] = some [0x6B] ∧ (7 : Byte).toNat = typeCode .double ∧
      WriterReady (room 3) ∧ (room 3).w.pos + (hdr true .double (utf8 [0x6B]) ++ uleb (7 : Word).toNat).length ≤ (room 3).w.limit) ∧
    (textOf [0xAC, 0x20] = some [0x20AC] ∧ WriterReady (room 3) ∧
      (room 3).w.limit < (room 3).w.pos + (uleb (utf8 [0x20AC]).length ++ utf8 [0x20AC]).length) :=
  ⟨by decide, by decide, by decide, ⟨by decide, by decide, by decide, by decide, by decide⟩,
    ⟨by decide, by decide, by decide⟩⟩

/-- With room and without, and with W not set up at all. -/
theorem witness_TextFormsAreByteForms :
    (WriterReady three ∧ WriterPlaced three) ∧ (WriterReady (room 0) ∧ WriterPlaced (room 0)) ∧
    ¬ WriterReady State.reset ∧
    ([0xD83D, 0xDE00] : List CodeUnit) ≠ [] ∧ Paired [0xD83D, 0xDE00] ∧ (0 : Byte).toNat ≠ 1 :=
  ⟨by decide, by decide, by decide, by decide, paired_grin, by decide⟩

theorem witness_ReserveThenPatchWritesFinalBytes :
    WriterPlaced three ∧ three.mem.wf ∧ ([0xD83D, 0xDE00] : List CodeUnit) ≠ [] ∧
    ([0xD83D, 0xDE00] : List CodeUnit).length < 2 ^ 32 ∧ (2 ^ 64 - 1 : Nat) < 2 ^ 64 ∧ Paired [0xD83D, 0xDE00] :=
  ⟨by decide, by decide, by decide, by decide, by decide, paired_grin⟩

theorem witness_NextGivesEndAtTheEnd :
    ReadsEntry .next ∧ ReadsEntry (.entryInt8 1) ∧ ReaderReady (loaded []) ∧
    (loaded []).r.limit ≤ (loaded []).r.pos := ⟨.inl rfl, .inr ⟨false, .int8, 1, rfl⟩, by decide, by decide⟩

/-- A marked current view, an unmarked one, none, and a NEXT that completes. -/
theorem witness_NextChoosesTheSlot :
    (Inv (holding { byteView with reuse := true }) ∧ (holding { byteView with reuse := true }).cvValid = true ∧
      ((holding { byteView with reuse := true }).viewAt 0).valid = true ∧
      ((holding { byteView with reuse := true }).viewAt 0).reuse = true) ∧
    (Inv (holding byteView) ∧ ((holding byteView).viewAt 0).reuse = false) ∧
    (Inv three ∧ three.cvValid = false) ∧
    exec .next three = .next (after (exec .next three)) ∧ (after (exec .next three)).status = 0 := by
  have h := sane_fixed 3 (by decide)
  exact ⟨⟨inv_holding ⟨h.1, fun k => by simp [byteView, scalarView] at k, h.2.2⟩, rfl, rfl, rfl⟩,
    ⟨inv_holding h, rfl⟩, ⟨inv_three, rfl⟩, rfl, by decide⟩

theorem witness_NextRunsTheFetchedEntry :
    three.r.pos < three.r.limit ∧ three.r.limit ≤ three.cfg.memSize ∧
    decodeEntry (three.byteAt three.r.pos) = some (.entryInt8 1) := by decide

/-- As the entry form and as NEXT, with an inline and with a written tag length. -/
theorem witness_NextTakesNullAndFixedEntries :
    TakesForm three false .int8 1 (.entryInt8 1) ∧ TakesForm three false .int8 1 .next ∧ ReaderReady three ∧
    ReaderPlaced three ∧ EntryType.int8 ∈ [EntryType.null, .int8, .int16, .int32, .int64, .double, .datetime] ∧
    HeadBytes false 1 [] [0x61] [] 1 ∧ ReadsAt three 1 ([] ++ [0x61] ++ []) ∧
    0 + 1 + 0 + 1 + 0 + 1 * typeWidth .int8 ≤ three.r.limit ∧
    TakesForm (loaded [0x80, 1, 0x7A, 5]) true .null 0 .next ∧ HeadBytes true 0 [1] [0x7A] [5] 5 ∧
    ReadsAt (loaded [0x80, 1, 0x7A, 5]) 1 ([1] ++ [0x7A] ++ [5]) ∧
    0 + 1 + 1 + 1 + 1 + 5 * typeWidth .null ≤ (loaded [0x80, 1, 0x7A, 5]).r.limit :=
  ⟨.inl rfl, .inr ⟨rfl, by decide⟩, by decide, by decide, by decide, by decide, by decide, by decide,
    .inr ⟨rfl, by decide⟩, by decide, by decide, by decide⟩

/-- The String array of 95_test_vectors.md 2.4. -/
def strings : State := loaded [0x8A, 0x73, 0x73, 3, 1, 0x61, 0, 2, 0x62, 0x63]

theorem witness_NextTakesStringAndBinaryEntries :
    TakesForm strings true .string 2 .next ∧ ReaderReady strings ∧ ReaderPlaced strings ∧
    EntryType.string ∈ [EntryType.string, .binary] ∧ HeadBytes true 2 [] [0x73, 0x73] [3] 3 ∧
    (∀ e ∈ [([(1 : Byte)], [(0x61 : Byte)]), ([0], []), ([2], [0x62, 0x63])], IsUnsigned e.1 e.2.length) ∧
    ReadsAt strings 1 ([] ++ [0x73, 0x73] ++ [3] ++
      [([(1 : Byte)], [(0x61 : Byte)]), ([0], []), ([2], [0x62, 0x63])].flatMap fun e => e.1 ++ e.2) :=
  ⟨.inr ⟨rfl, by decide⟩, by decide, by decide, by decide, by decide, by decide, by decide⟩

theorem witness_NextTakesVarintEntries :
    TakesForm (loaded [0x49, 0x76, 0x81, 0x7F]) false .varint 1 (.entryVarint 1) ∧
    ReaderReady (loaded [0x49, 0x76, 0x81, 0x7F]) ∧ ReaderPlaced (loaded [0x49, 0x76, 0x81, 0x7F]) ∧
    HeadBytes false 1 [] [0x76] [] 1 ∧ (∀ e ∈ [([(0x81 : Byte), 0x7F], (-127 : Int))], IsSigned e.1 e.2) ∧
    ReadsAt (loaded [0x49, 0x76, 0x81, 0x7F]) 1
      ([] ++ [0x76] ++ [] ++ [([(0x81 : Byte), 0x7F], (-127 : Int))].flatMap fun e => e.1) :=
  ⟨.inl rfl, by decide, by decide, by decide, by decide, by decide⟩

/-- Each of the tag's faults: the length cut, zero, past the region, and an inline length past it. -/
theorem witness_NextFaultsInTheTag :
    (ReaderReady (loaded [0x18]) ∧ ReaderPlaced (loaded [0x18]) ∧ (loaded [0x18]).r.pos < (loaded [0x18]).r.limit ∧
      entryInlineLength ((loaded [0x18]).byteAt 0) = 0 ∧ VarintCut (loaded [0x18]) 1) ∧
    UnsignedTooWide (loaded [0x18, 0xFF, 0xFF, 0xFF, 0xFF, 0xFF, 0xFF, 0xFF, 0xFF, 0xFF, 2]) 1 ∧
    (IsUnsigned [0] 0 ∧ ReadsAt (loaded [0x18, 0]) 1 [0]) ∧
    (IsUnsigned [2] 2 ∧ ReadsAt (loaded [0x18, 2, 0x61]) 1 [2] ∧ (loaded [0x18, 2, 0x61]).r.limit < 0 + 1 + 1 + 2) ∧
    ((entryInlineLength ((loaded [0x1F, 0x61]).byteAt 0)).toNat = 7 ∧ (loaded [0x1F, 0x61]).r.limit < 0 + 1 + 7) := by
  decide

theorem witness_NextFaultsInCountAndType :
    (ReaderReady (loaded [0x99, 0x6E, 0xC8]) ∧ ReaderPlaced (loaded [0x99, 0x6E, 0xC8]) ∧
      entryInlineLength ((loaded [0x99, 0x6E, 0xC8]).byteAt 0) = 1 ∧ HeadBytes false 1 [] [0x6E] [] 1 ∧
      ReadsAt (loaded [0x99, 0x6E, 0xC8]) 1 ([] ++ [0x6E]) ∧ entryArray ((loaded [0x99, 0x6E, 0xC8]).byteAt 0) = true ∧
      VarintCut (loaded [0x99, 0x6E, 0xC8]) 2) ∧
    (∀ b ∈ [(0x51 : Byte), 0x79], ReaderReady (loaded [b, 0x6E]) ∧ entryArray b = false ∧ entryInlineLength b = 1 ∧
      ReadsAt (loaded [b, 0x6E]) 1 ([] ++ [0x6E] ++ []) ∧ 10 ≤ (entryTypeCode b).toNat) :=
  ⟨⟨by decide, by decide, by decide, by decide, by decide, by decide, by decide⟩, by decide⟩

/-- A fixed-width payload one byte short, a length cut after one good element, a body past the region, and
a Varint cut. -/
theorem witness_EntriesFaultInThePayload :
    (TakesForm (loaded [0x21, 0x68, 0]) false .int16 1 .next ∧ ReaderReady (loaded [0x21, 0x68, 0]) ∧
      ReaderPlaced (loaded [0x21, 0x68, 0]) ∧ HeadBytes false 1 [] [0x68] [] 1 ∧
      ReadsAt (loaded [0x21, 0x68, 0]) 1 ([] ++ [0x68] ++ []) ∧ (loaded [0x21, 0x68, 0]).r.limit < 2 + 1 * typeWidth .int16) ∧
    (TakesForm (loaded [0x89, 0x73, 2, 1, 0x61]) true .string 1 .next ∧ HeadBytes true 1 [] [0x73] [2] 2 ∧
      ReadsAt (loaded [0x89, 0x73, 2, 1, 0x61]) 1 ([] ++ [0x73] ++ [2]) ∧
      [([(1 : Byte)], [(0x61 : Byte)])].length < 2 ∧ (∀ e ∈ [([(1 : Byte)], [(0x61 : Byte)])], IsUnsigned e.1 e.2.length) ∧
      ReadsAt (loaded [0x89, 0x73, 2, 1, 0x61]) 3 ([([(1 : Byte)], [(0x61 : Byte)])].flatMap fun e => e.1 ++ e.2) ∧
      VarintCut (loaded [0x89, 0x73, 2, 1, 0x61]) 5) ∧
    (TakesForm (loaded [0x11, 0x62, 2, 0]) false .binary 1 .next ∧ IsUnsigned [2] 2 ∧
      ReadsAt (loaded [0x11, 0x62, 2, 0]) 2 [2] ∧ (loaded [0x11, 0x62, 2, 0]).r.limit < 2 + 1 + 2) ∧
    (TakesForm (loaded [0x49, 0x76, 0x81]) false .varint 1 .next ∧ VarintCut (loaded [0x49, 0x76, 0x81]) 2) :=
  ⟨⟨.inr ⟨rfl, by decide⟩, by decide⟩, ⟨.inr ⟨rfl, by decide⟩, by decide⟩, ⟨.inr ⟨rfl, by decide⟩, by decide⟩,
    ⟨.inr ⟨rfl, by decide⟩, by decide⟩⟩

/-- P4: NEXT twice, and NEXT after MARK. -/
theorem witness_ViewIdentityFollowsTheMark :
    Inv three ∧ exec .next three = .next (after (exec .next three)) ∧ (after (exec .next three)).status = 0 ∧
    (after (exec .next (after (exec .next three)))).status = 0 ∧
    (after (exec .next (after (exec (.mark 0) (after (exec .next three)))))).status = 0 :=
  ⟨inv_three, rfl, by decide, by decide, by decide⟩

/-- What the statements about a view ask: a slot that holds it. -/
theorem witness_Holds : Holds (holding byteView) 0 byteView ∧
    ∀ p ∈ [(Instr.vi8 0 0, EntryType.int8)], byteView.type.toNat = typeCode p.2 := by decide

theorem witness_MarkSetsReuse : Holds (holding byteView) 0 byteView := by decide

theorem witness_ViewHeadIsDelivered :
    Holds (holding byteView) 0 byteView ∧ (3 : Word).toNat = (if byteView.array then 16 else 0) + byteView.type.toNat ∧
    (1 : Word).toNat = byteView.tagOff ∧ (1 : Word).toNat = byteView.tagLen ∧ ViewSane Config.standard byteView :=
  ⟨by decide, by decide, by decide, by decide, sane_fixed 3 (by decide)⟩

theorem witness_FixedAccessorsReadTheElement :
    ∀ p ∈ [((3 : BitVec 4), EntryType.int8), (4, .int16), (5, .int32), (6, .int64), (8, .datetime), (7, .double)],
      Holds (holding (scalarView p.1 [])) 0 (scalarView p.1 []) ∧ ViewSane Config.standard (scalarView p.1 []) ∧
      (scalarView p.1 []).type.toNat = typeCode p.2 ∧ (0 : Word).toNat < (scalarView p.1 []).count.toNat := by
  intro p hp
  simp only [List.mem_cons, List.not_mem_nil, or_false] at hp
  rcases hp with rfl | rfl | rfl | rfl | rfl | rfl <;>
    exact ⟨by decide, sane_fixed _ (by decide), by decide, by decide⟩

theorem witness_SpanAccessorsDeliverThePlace :
    ∀ p ∈ [((1 : BitVec 4), EntryType.string), (2, .binary)],
      Holds (holding (scalarView p.1 [.span 3 2])) 0 (scalarView p.1 [.span 3 2]) ∧
      (scalarView p.1 [.span 3 2]).type.toNat = typeCode p.2 ∧
      (0 : Word).toNat < (scalarView p.1 [.span 3 2]).count.toNat ∧
      (scalarView p.1 [.span 3 2]).elems[(0 : Word).toNat]? = some (.span (3 : Word).toNat (2 : Word).toNat) := by decide

theorem witness_VvarDeliversTheRecordedValue :
    Holds (holding (scalarView 9 [.val 5])) 0 (scalarView 9 [.val 5]) ∧ (scalarView 9 [.val 5]).type.toNat = 9 ∧
    (0 : Word).toNat < (scalarView 9 [.val 5]).count.toNat ∧
    (scalarView 9 [.val 5]).elems[(0 : Word).toNat]? = some (.val 5) := by decide

/-- One view for every clause: Null, the three types with no conversion, the five fixed-width ones, Varint,
and an index at the count. -/
theorem witness_VlongConvertsByType :
    (∀ ty : BitVec 4, Holds (holding (scalarView ty [])) 0 (scalarView ty []) ∧ (scalarView ty []).type = ty) ∧
    (0 : BitVec 4).toNat = 0 ∧ (∀ ty ∈ [(1 : BitVec 4), 2, 7], ty.toNat ∈ [1, 2, 7]) ∧
    (∀ ty ∈ [(3 : BitVec 4), 4, 5, 6, 8], ViewSane Config.standard (scalarView ty [])) ∧
    (0 : Word).toNat < byteView.count.toNat ∧
    (Holds (holding (scalarView 9 [.val 5])) 0 (scalarView 9 [.val 5]) ∧
      (scalarView 9 [.val 5]).elems[(0 : Word).toNat]? = some (.val 5)) ∧
    ((9 : BitVec 4).toNat ∈ [3, 4, 5, 6, 8, 9] ∧ (scalarView 9 [.val 5]).count.toNat ≤ (1 : Word).toNat) :=
  ⟨fun _ => ⟨⟨(by decide : (0 : Nat) < 2), rfl, rfl⟩, rfl⟩, rfl, by decide,
    fun ty h => sane_fixed ty (by revert h; revert ty; decide), by decide, by decide, by decide⟩

/-- A type that is not the accessor's, and an index at the count. -/
theorem witness_UncheckedAccessorsComplete :
    Holds (holding byteView) 0 byteView ∧ byteView.type.toNat ≠ 4 ∧ byteView.type.toNat ≠ 1 ∧
    byteView.count.toNat ≤ (1 : Word).toNat := by decide

/-- A fault of R, of W, of VLONG, and a rejection. -/
theorem witness_FaultsWriteOnlyTheirEntry :
    (Inv (loaded [0x80]) ∧ exec .vgetu (loaded [0x80]) = .next (after (exec .vgetu (loaded [0x80]))) ∧
      (after (exec .vgetu (loaded [0x80]))).status = 2 ∧ ¬ ReadsEntry .vgetu) ∧
    (Inv (loaded [0x18]) ∧ (after (exec .next (loaded [0x18]))).status = 2 ∧ ReadsEntry .next) ∧
    (Inv (room 0) ∧ (after (exec (.put8 0) (room 0))).status = 3) ∧
    (Inv (holding (scalarView 7 [])) ∧ (after (exec (.vlong 0 0) (holding (scalarView 7 [])))).status = 5) ∧
    (Inv State.reset ∧ (after (exec .wrem State.reset)).status = 6) := by
  refine ⟨⟨inv_loaded _ (by decide), rfl, by decide, not_readsEntry (by decide) (by decide)⟩,
    ⟨inv_loaded _ (by decide), by decide, .inl rfl⟩, ⟨inv_loaded _ (by decide), by decide⟩,
    ⟨inv_holding (sane_fixed 7 (by decide)), by decide⟩, ⟨?_, by decide⟩⟩
  exact { inv_loaded [] (by decide) with
    mem := ⟨List.Pairwise.nil, fun c hc => by cases hc⟩, w := by decide, wErr := by decide, r := by decide
    rErr := by decide }

/-- A command of each unit, one that fills a slot, and one that marks one. -/
theorem witness_CommandsChangeTheirUnitOnly :
    Inv three ∧ (exec (.put8 1) three = .next (after (exec (.put8 1) three)) ∧ unitOf (.put8 1) = .writer) ∧
    (exec .next three = .next (after (exec .next three)) ∧ unitOf .next = .reader ∧
      (after (exec .next three)).views ≠ three.views) ∧
    (Inv (holding byteView) ∧
      exec (.mark 0) (holding byteView) = .next (after (exec (.mark 0) (holding byteView))) ∧
      unitOf (.mark 0) = .view ∧ (after (exec (.mark 0) (holding byteView))).views ≠ (holding byteView).views) ∧
    three.w.limit ≤ 9 :=
  ⟨inv_three, ⟨rfl, rfl⟩, ⟨rfl, rfl, by decide⟩, ⟨inv_holding (sane_fixed 3 (by decide)), rfl, rfl, by decide⟩,
    by decide⟩

theorem witness_OnlyRestartClearsAFault :
    Inv (room 0) ∧ State.reset.w.init ≠ (after (exec (.winit 8 16) State.reset)).w.init ∧
    State.reset.r.init ≠ (after (exec (.parse 8 4) State.reset)).r.init ∧
    (after (exec (.put8 0) (room 0))).w.errKind ≠ 0 ∧ (after (exec .get8 (room 0))).r.errKind ≠ 0 :=
  ⟨inv_loaded _ (by decide), by decide⟩

/-- A byte changed past the region, for a varint that is read and for an entry that is cut. -/
theorem witness_ReadersSeeTheirRegionOnly :
    (ReaderPlaced three ∧ Instr.vgetu ∈ [Instr.vgetu, .vgets, .get8, .get16, .get32, .get64, .getd, .rrem] ∧
      (∀ a, three.r.pos ≤ a → a < three.r.limit →
        State.byteAt { three with mem := three.mem.insert 9 7 } a = three.byteAt a) ∧
      exec .vgetu three = .next (after (exec .vgetu three)) ∧ (after (exec .vgetu three)).status ≠ 2) ∧
    (ReaderPlaced (loaded [0x18]) ∧ ReadsEntry .next ∧
      (∀ a, (loaded [0x18]).r.pos ≤ a → a < (loaded [0x18]).r.limit →
        State.byteAt { loaded [0x18] with mem := (loaded [0x18]).mem.insert 1 7 } a = (loaded [0x18]).byteAt a) ∧
      exec .next (loaded [0x18]) = .next (after (exec .next (loaded [0x18]))) ∧
      (after (exec .next (loaded [0x18]))).status = 2) := by
  have k1 : ∀ a, a < 9 → State.byteAt { three with mem := three.mem.insert 9 7 } a = three.byteAt a := by decide
  have k2 : ∀ a, a < 1 →
      State.byteAt { loaded [0x18] with mem := (loaded [0x18]).mem.insert 1 7 } a = (loaded [0x18]).byteAt a := by
    decide
  exact ⟨⟨by decide, by decide, fun a _ h => k1 a h, rfl, by decide⟩,
    ⟨by decide, .inl rfl, fun a _ h => k2 a h, rfl, by decide⟩⟩

/-- P2 cut short: a scalar and an array, written from reset without a fault. -/
theorem witness_DocumentRoundTrip :
    Inv three ∧ three.cfg.memSize ≤ 2 ^ 64 ∧ (0 : Word).toNat + (64 : Word).toNat ≤ three.cfg.memSize ∧
    (∀ e ∈ [DocEntry.scalar .int32 [0x66, 0x6F, 0x6F] 1 [], .array .string [0x73] [(0, [0x61]), (0, [])]], e.writable) ∧
    ∃ w, execAll (.winit 0 64 :: [DocEntry.scalar .int32 [0x66, 0x6F, 0x6F] 1 [],
      .array .string [0x73] [(0, [0x61]), (0, [])]].flatMap DocEntry.commands) three = some w ∧ w.w.errKind = 0 := by
  refine ⟨inv_three, by decide, by decide, fun e he => ?_, _, rfl, by decide⟩
  simp only [List.mem_cons, List.not_mem_nil, or_false] at he
  rcases he with rfl | rfl <;> unfold DocEntry.writable <;> decide

end Sys2Proof.Tests
end

section
/-! Reset (10_state.md R36, 70_reset_and_hazards.md R270): what power-on and the host's reset leave in the
registers whose reset value the spec gives. -/

namespace Sys2Proof.Machine

/-! ## The step of a host access -/

/-- A host access at the head of the inbox is what the step does. -/
theorem step_access {s : State} {a : HostAccess} {rest : List HostMove} (h : s.inbox = .access a :: rest) :
    step s = hostAccess a (s.withInbox rest) := by
  unfold step
  rw [h]

theorem step_reset {s : State} {rest : List HostMove} (h : s.inbox = .access .reset :: rest) :
    step s = .next (hostReset (s.withInbox rest)) :=
  step_access h

/-! ## The registers a reset clears -/

/-- Every slot of an engine at power-on is empty, one beyond NVIEW too. -/
@[simp] theorem State.viewAt_resetOf (c : Config) (k : Nat) : (State.resetOf c).viewAt k = View.empty := by
  show (List.replicate c.nview View.empty).getD k View.empty = View.empty
  rw [List.getD_eq_getElem?_getD, List.getElem?_replicate]
  split <;> rfl

/-- The registers of which R36 gives a reset value hold what the model's reset puts there. -/
structure RegistersReset (t : State) : Prop where
  writer : t.w = Cursor.reset
  reader : t.r = Cursor.reset
  status : t.status = 0
  reason : t.reason = 0
  noCurrentView : t.cvValid = false
  slots : ∀ k, t.viewAt k = View.empty

theorem registersReset_resetOf (c : Config) : RegistersReset (State.resetOf c) :=
  ⟨rfl, rfl, rfl, rfl, rfl, State.viewAt_resetOf c⟩

/-- The host's reset differs from power-on in MEM's epoch, the draws and what belongs to the host, none of
which is a register (70_reset_and_hazards.md R270). -/
theorem registersReset_hostReset (s : State) : RegistersReset (hostReset s) :=
  ⟨rfl, rfl, rfl, rfl, rfl, State.viewAt_resetOf s.cfg⟩

/-- Settles O1: power-on and the host's reset both leave `RegistersReset`, which fixes the listed values. -/
theorem resetLeavesListedValues : Obligations.ResetLeavesListedValues := by
  intro t ht
  have hreset : RegistersReset t := by
    rcases ht with ⟨c, rfl⟩ | ⟨s, rest, hinbox, hstep⟩
    · exact registersReset_resetOf c
    · rw [step_reset hinbox] at hstep
      cases hstep
      exact registersReset_hostReset _
  obtain ⟨hw, hr, hstatus, hreason, hcv, hslots⟩ := hreset
  rw [hw, hr]
  exact ⟨rfl, rfl, rfl, rfl, rfl, rfl, hstatus, hreason, hcv, fun k => by rw [hslots k]; exact ⟨rfl, rfl⟩⟩

end Sys2Proof.Machine
end

section
/-! The opcode table (30_encoding.md R80, R81, R84): what the decoder makes of a descriptor of legal length,
and the step of a presented command that is no instruction. -/

namespace Sys2Proof.Machine

/-! ## A descriptor of legal length -/

/-- Bytes the host may present always have the layout of 30_encoding.md R81, with the opcode in byte 0. -/
theorem parseDescriptor_of_legalMove {cfg : Config} {bs : List Byte} (h : LegalMove cfg (.command bs)) :
    ∃ c, parseDescriptor bs = .ok c ∧ c.op = bs.getD 0 0 := by
  obtain ⟨hheader, hlength⟩ := h
  rw [parseDescriptor, if_neg (Nat.not_lt.mpr hheader)]
  exact ⟨_, if_pos hlength, rfl⟩

theorem decode_of_parseDescriptor {bs : List Byte} {c : Command} (h : parseDescriptor bs = .ok c) :
    decode bs = decodeCommand c := by
  rw [decode, h]

/-! ## The opcode table -/

/-- The rows of the opcode table and the ranges of 30_encoding.md R84 divide the opcodes between them. -/
theorem decodeCommand_cases (c : Command) :
    (Unassigned c.op.toNat ∧ decodeCommand c = .error (.badOpcode c.op)) ∨
    (¬ Unassigned c.op.toNat ∧ ∃ i, decodeCommand c = .ok i) := by
  unfold decodeCommand
  split
  -- No row of the table: the 40 assigned numbers excluded leave the ranges of R84.
  case h_41 => exact .inl ⟨by grind, rfl⟩
  all_goals
    next hrow => exact .inr ⟨by rw [hrow]; decide, _, rfl⟩

theorem decodeCommand_of_unassigned {c : Command} (h : Unassigned c.op.toNat) :
    decodeCommand c = .error (.badOpcode c.op) := by
  obtain ⟨-, hbad⟩ | ⟨hassigned, -⟩ := decodeCommand_cases c
  · exact hbad
  · exact absurd h hassigned

theorem decodeCommand_of_assigned {c : Command} (h : ¬ Unassigned c.op.toNat) :
    ∃ i, decodeCommand c = .ok i := by
  obtain ⟨hunassigned, -⟩ | ⟨-, hok⟩ := decodeCommand_cases c
  · exact absurd hunassigned h
  · exact hok

/-! ## The step of a command that is no instruction -/

theorem step_command_of_error {s : State} {bs : List Byte} {rest : List HostMove} {e : DecodeError}
    (hinbox : s.inbox = .command bs :: rest) (he : decode bs = .error e) :
    step s = noInstruction e (s.withInbox rest) := by
  unfold step
  rw [hinbox]
  simp only [he]

/-- An unassigned opcode is a next state, not a refusal: STATUS and REASON are written and all else is kept. -/
theorem noInstruction_badOpcode (op : Byte) (s : State) :
    noInstruction (.badOpcode op) s = .next (rejected s 1) := rfl

/-- Settles O8: a descriptor of legal length parses, and its opcode lies in a row of the table or in a range
of R84, never in both. -/
theorem unassignedOpcodeIsRejected : Obligations.UnassignedOpcodeIsRejected := by
  intro s bs rest hinbox hlegal
  obtain ⟨c, hparse, hop⟩ := parseDescriptor_of_legalMove hlegal
  have hdecode : decode bs = decodeCommand c := decode_of_parseDescriptor hparse
  rw [← hop, hdecode]
  constructor
  · intro hunassigned
    have hbad : decode bs = .error (.badOpcode c.op) := hdecode.trans (decodeCommand_of_unassigned hunassigned)
    rw [step_command_of_error hinbox hbad]
    exact noInstruction_badOpcode c.op (s.withInbox rest)
  · exact decodeCommand_of_assigned

end Sys2Proof.Machine
end

section
/-! The cursor commands (40_cursor.md): what set-up, rewind and the count of what remains answer, an equation
per case, and when NEXT gives END. -/

namespace Sys2Proof.Machine

/-! ## A row of the opcode table -/

/-- The decoder looks at nothing but the opcode to choose the row, so a row holds for every command as soon as
it holds with that opcode written in. -/
theorem encodes_of_row {op : Byte} {f : Command → Instr}
    (hrow : ∀ c : Command, decodeCommand { c with op := op } = .ok (f { c with op := op })) : Encodes op f := by
  rintro c rfl
  exact hrow c

/-! ## Set-up (R101, R104) -/

theorem exec_winit (a b : Word) (s : State) :
    exec (.winit a b) s =
      if s.cfg.memSize < a.toNat + b.toNat then .next (rejected s 6)
      else .next { s with w := setUp s.w a.toNat b.toNat, status := 0, reason := 0 } := rfl

theorem exec_parse (a b : Word) (s : State) :
    exec (.parse a b) s =
      if s.cfg.memSize < a.toNat + b.toNat then .next (rejected s 6)
      else .next { s with r := setUp s.r a.toNat b.toNat, status := 0, reason := 0 } := rfl

/-- Settles O13: the one test of R101 decides between its two answers. -/
theorem winitSetsUpTheWriter : Obligations.WinitSetsUpTheWriter := by
  refine ⟨encodes_of_row fun _ => rfl, fun s a b => ⟨fun hfits => ?_, fun hbeyond => ?_⟩⟩
  · rw [exec_winit, if_neg (Nat.not_lt.mpr hfits)]
  · rw [exec_winit, if_pos hbeyond]

/-- Settles O14: the one test of R104 decides between its two answers. -/
theorem parseSetsUpTheReader : Obligations.ParseSetsUpTheReader := by
  refine ⟨encodes_of_row fun _ => rfl, fun s a b => ⟨fun hfits => ?_, fun hbeyond => ?_⟩⟩
  · rw [exec_parse, if_neg (Nat.not_lt.mpr hfits)]
  · rw [exec_parse, if_pos hbeyond]

/-! ## Rewind (R102, R105) -/

/-- INIT is the only test of WREWIND: a fault pending does not stop it. -/
theorem exec_wrewind (s : State) :
    exec .wrewind s =
      if !s.w.init then .next (rejected s 2)
      else .next { s with w := backAtStart s.w, status := 0, reason := 0 } := rfl

/-- INIT is the only test of RREWIND: a fault pending does not stop it. -/
theorem exec_rrewind (s : State) :
    exec .rrewind s =
      if !s.r.init then .next (rejected s 2)
      else .next { s with r := backAtStart s.r, status := 0, reason := 0 } := rfl

/-- Settles O15: either rewind tests INIT of its own cursor alone. -/
theorem rewindReturnsToStart : Obligations.RewindReturnsToStart := by
  refine ⟨encodes_of_row fun _ => rfl, encodes_of_row fun _ => rfl, fun s =>
    ⟨fun hinit => ?_, fun hinit => ?_, fun hinit => ?_, fun hinit => ?_⟩⟩
  · simp [exec_wrewind, hinit]
  · simp [exec_wrewind, hinit]
  · simp [exec_rrewind, hinit]
  · simp [exec_rrewind, hinit]

/-! ## What remains (R103, R106) -/

/-- A number that a result register can hold is delivered as it is. -/
theorem deliver_toNat (v : Word) : deliver v.toNat = v := by
  rw [deliver, if_pos v.isLt, BitVec.ofNat_toNat, BitVec.setWidth_eq]

theorem exec_wrem (s : State) :
    exec .wrem s = writerData s (.ok (.ok (s.setX0 (deliver (s.w.limit - s.w.pos))))) := rfl

theorem exec_rrem (s : State) :
    exec .rrem s = readerReady s (.next (answered s (deliver (s.r.limit - s.r.pos)))) := rfl

theorem exec_wrem_of_ready {s : State} {v : Word} (hready : WriterReady s)
    (hv : s.w.pos + v.toNat = s.w.limit) : exec .wrem s = .next (answered s v) := by
  have hdiff : s.w.limit - s.w.pos = v.toNat := by omega
  rw [exec_wrem, writerData_ready hready, hdiff, deliver_toNat]
  rfl

theorem exec_rrem_of_ready {s : State} {v : Word} (hready : ReaderReady s)
    (hv : s.r.pos + v.toNat = s.r.limit) : exec .rrem s = .next (answered s v) := by
  have hdiff : s.r.limit - s.r.pos = v.toNat := by omega
  rw [exec_rrem, readerReady_ready hready, hdiff, deliver_toNat]

/-- A reading command is refused by the tests of its cursor alone, whatever would come after them
(30_encoding.md R85). -/
theorem readerRefuses_readerReady (s : State) (k : Result) : ReaderRefuses s (readerReady s k) :=
  ⟨readerReady_notInit, readerReady_pending⟩

/-! ## END -/

/-- No fault reports END. -/
theorem takeFault_status_ne_end (e : Raise) (slot : Option Nat) (s : State) :
    (takeFault e slot s).status ≠ statusCode .endOfDoc := by
  cases e with
  | format cause pos => rw [takeFault, takeFormat_status]; decide
  | bufferTooSmall => rw [takeFault, takeBufferTooSmall_status]; decide
  | conversionNull => rw [takeFault, takeConversion, State.complete_status]; decide
  | conversionType => rw [takeFault, takeConversion, State.complete_status]; decide

/-- Once a command's body has run, its status is OK or a fault's, never END. -/
theorem finish_status_ne_end {s t : State} {slot : Option Nat} {body : Except Stop State}
    (h : finish s slot body = .next t) : t.status ≠ statusCode .endOfDoc := by
  unfold finish at h
  split at h
  case h_1 u => cases h; rw [State.complete_status]; decide
  case h_2 e => cases h; exact takeFault_status_ne_end e slot s
  case h_3 => cases h

/-- A ready NEXT gives END exactly where R.POS has reached R.LIMIT (44_reader.md R191): an entry that is
fetched ends in OK or in a fault. -/
theorem exec_next_end_iff {s : State} (hready : ReaderReady s) :
    (∃ t, exec .next s = .next t ∧ t.status = statusCode .endOfDoc) ↔ s.r.limit ≤ s.r.pos := by
  have hnext : exec .next s = execNext s := rfl
  rw [hnext, execNext, readerStep, readerReady_ready hready]
  constructor
  · rintro ⟨t, hstep, hend⟩
    by_contra hinside
    rw [if_neg hinside] at hstep
    split at hstep
    · exact finish_status_ne_end hstep hend
    · cases hstep
  · intro hatEnd
    rw [if_pos hatEnd]
    exact ⟨_, rfl, rfl⟩

/-- Settles O16: each command passes the tests of its cursor and delivers LIMIT - POS, which is 0 exactly where
the cursor stands at the end of its region. -/
theorem remainingIsLimitMinusPosition : Obligations.RemainingIsLimitMinusPosition := by
  refine ⟨encodes_of_row fun _ => rfl, encodes_of_row fun _ => rfl, fun s =>
    ⟨fun hinit => (exec_wrem s).trans (writerData_notInit hinit),
      fun hinit hpending => (exec_wrem s).trans (writerData_pending hinit hpending),
      fun hready v hv => ⟨exec_wrem_of_ready hready hv, ?_⟩,
      readerRefuses_readerReady s _,
      fun hready v hv => ⟨exec_rrem_of_ready hready hv, fun _ => ?_⟩⟩⟩
  · rintro ⟨-, hlimit⟩
    omega
  · -- RREM leaves the reader's cursor, so NEXT finds it ready and where it stood.
    have hcursor : (answered s v).r = s.r := rfl
    have hend := exec_next_end_iff (s := answered s v) hready
    rw [hcursor] at hend
    calc v = 0 ↔ v.toNat = 0 := BitVec.toNat_eq
      _ ↔ s.r.limit ≤ s.r.pos := by omega
      _ ↔ _ := hend.symm

end Sys2Proof.Machine
end

section
/-! The varint codec (41_varint.md): the loops of the two encoders, and the four commands that append and
read a varint, an equation or a law per case. -/

namespace Sys2Proof.Machine

/-! ## The loop of the unsigned encoder (R110) -/

theorem ulebGroups_turn (n v : Nat) :
    ulebGroups (n + 1) v =
      if v / 128 = 0 then [BitVec.ofNat 8 (v % 128)]
      else BitVec.ofNat 8 (v % 128 + 128) :: ulebGroups n (v / 128) := rfl

/-- The bound on the number of groups cuts nothing off a value that fits in them. -/
theorem ulebGroups_of_lt {n v : Nat} (hv : v < 2 ^ (7 * n + 7)) : ulebGroups (n + 2) v = ulebGroups (n + 1) v := by
  induction n generalizing v with
  | zero => rw [ulebGroups_turn 1 v, ulebGroups_turn 0 v, if_pos (by omega), if_pos (by omega)]
  | succ n ih =>
    have hquotient : v / 128 < 2 ^ (7 * n + 7) := by
      rw [show 7 * (n + 1) + 7 = (7 * n + 7) + 7 by ring, Nat.pow_add] at hv
      omega
    rw [ulebGroups_turn (n + 2) v, ulebGroups_turn (n + 1) v, ih hquotient]

theorem length_ulebGroups_pos (n v : Nat) : 1 ≤ (ulebGroups (n + 1) v).length := by
  rw [ulebGroups_turn]
  split <;> simp

theorem length_ulebGroups_le (n v : Nat) : (ulebGroups n v).length ≤ n := by
  induction n generalizing v with
  | zero => exact Nat.le_refl 0
  | succ n ih =>
    rw [ulebGroups_turn]
    split
    · exact Nat.succ_le_succ (Nat.zero_le n)
    · exact Nat.succ_le_succ (ih _)

theorem uleb_turn {v : Nat} (hv : v < 2 ^ 64) :
    uleb v = if v / 128 = 0 then [BitVec.ofNat 8 (v % 128)]
      else BitVec.ofNat 8 (v % 128 + 128) :: uleb (v / 128) :=
  calc uleb v = ulebGroups 11 v := (ulebGroups_of_lt (by omega)).symm
    _ = _ := ulebGroups_turn 10 v

/-! ## The loop of the signed encoder (R111) -/

/-- One turn, with the group as the integer the rule takes it for. -/
theorem slebGroups_turn (n : Nat) (v : Int) :
    slebGroups (n + 1) v =
      if (v / 128 = 0 ∧ v % 128 < 64) ∨ (v / 128 = -1 ∧ 64 ≤ v % 128) then [BitVec.ofInt 8 (v % 128)]
      else BitVec.ofInt 8 (v % 128 + 128) :: slebGroups n (v / 128) := by
  obtain ⟨g, hg⟩ := Int.eq_ofNat_of_zero_le (Int.emod_nonneg v (show (128 : Int) ≠ 0 by decide))
  rw [slebGroups, hg, Int.toNat_natCast]
  norm_cast

/-- The bound on the number of groups cuts nothing off a value that fits in them with its sign. -/
theorem slebGroups_of_fits {n : Nat} {v : Int} (hlow : -2 ^ (7 * n + 6) ≤ v) (hhigh : v < 2 ^ (7 * n + 6)) :
    slebGroups (n + 2) v = slebGroups (n + 1) v := by
  induction n generalizing v with
  | zero =>
    have hstop : (v / 128 = 0 ∧ v % 128 < 64) ∨ (v / 128 = -1 ∧ 64 ≤ v % 128) := by omega
    rw [slebGroups_turn 1 v, slebGroups_turn 0 v, if_pos hstop, if_pos hstop]
  | succ n ih =>
    rw [show 7 * (n + 1) + 6 = (7 * n + 6) + 7 by ring, pow_add] at hlow hhigh
    rw [slebGroups_turn (n + 2) v, slebGroups_turn (n + 1) v, ih (v := v / 128) (by omega) (by omega)]

theorem length_slebGroups_pos (n : Nat) (v : Int) : 1 ≤ (slebGroups (n + 1) v).length := by
  rw [slebGroups_turn]
  split <;> simp

theorem length_slebGroups_le (n : Nat) (v : Int) : (slebGroups n v).length ≤ n := by
  induction n generalizing v with
  | zero => exact Nat.le_refl 0
  | succ n ih =>
    rw [slebGroups_turn]
    split
    · exact Nat.succ_le_succ (Nat.zero_le n)
    · exact Nat.succ_le_succ (ih _)

theorem sleb_turn {v : Int} (hlow : -2 ^ 63 ≤ v) (hhigh : v < 2 ^ 63) :
    sleb v = if (v / 128 = 0 ∧ v % 128 < 64) ∨ (v / 128 = -1 ∧ 64 ≤ v % 128) then [BitVec.ofInt 8 (v % 128)]
      else BitVec.ofInt 8 (v % 128 + 128) :: sleb (v / 128) :=
  calc sleb v = slebGroups 11 v := (slebGroups_of_fits (by omega) (by omega)).symm
    _ = _ := slebGroups_turn 10 v

/-- Settles O17: ten groups hold every value of the operand, so an eleventh turn may be allowed without changing
the bytes, and the first of the eleven is the rule's turn. -/
theorem varintEncodersFollowTheirLoops : Obligations.VarintEncodersFollowTheirLoops :=
  ⟨fun v hv => ⟨uleb_turn hv, length_ulebGroups_pos 9 v, length_ulebGroups_le 10 v⟩,
    fun v hlow hhigh => ⟨sleb_turn hlow hhigh, length_slebGroups_pos 9 v, length_slebGroups_le 10 v⟩⟩

/-! ## Commands that append bytes -/

/-- A writing command whose operand checks passed: the tests of the cursor, then all the bytes or
BufferTooSmall (30_encoding.md R85, 20_memory.md R59). -/
theorem writesOrFaults_wrbytes {s : State} (bs : List Byte) (hplaced : WriterPlaced s) :
    WritesOrFaults s bs (writerData s (.ok (wrbytes s bs))) := by
  obtain ⟨hpos, hmem⟩ := hplaced
  refine ⟨writerData_notInit, writerData_pending, fun hready hshort => ?_, fun hready hfits => ?_⟩
  · obtain ⟨hfits, -⟩ | ⟨-, hraise⟩ := wrbytes_cases bs hmem
    · omega
    · rw [writerData_ready hready, hraise]
      exact ⟨_, rfl, takeBufferTooSmall_overran hpos⟩
  · obtain ⟨-, hstore⟩ | ⟨hshort, -⟩ := wrbytes_cases bs hmem
    · rw [writerData_ready hready, hstore]
      exact ⟨_, rfl, stored_appends s bs⟩
    · omega

theorem exec_vputu (a : Word) (s : State) :
    exec (.vputu a) s = writerData s (.ok (wrbytes s (uleb a.toNat))) := rfl

theorem exec_vputs (a : Word) (s : State) :
    exec (.vputs a) s = writerData s (.ok (wrbytes s (sleb a.toInt))) := rfl

/-- Settles O20: VPUTU hands `uleb` of its operand to `wrbytes`. -/
theorem vputuAppendsUleb : Obligations.VputuAppendsUleb := by
  refine ⟨encodes_of_row fun _ => rfl, fun s a hplaced => ?_⟩
  rw [exec_vputu]
  exact writesOrFaults_wrbytes _ hplaced

/-- Settles O21: VPUTS hands `sleb` of its operand to `wrbytes`. -/
theorem vputsAppendsSleb : Obligations.VputsAppendsSleb := by
  refine ⟨encodes_of_row fun _ => rfl, fun s a hplaced => ?_⟩
  rw [exec_vputs]
  exact writesOrFaults_wrbytes _ hplaced

/-! ## Commands that deliver a value read through R -/

theorem readerData_deliverX0_of_ok {s : State} {m : Except Stop (Word × Cursor)} {v : Word} {n : Nat}
    (hready : ReaderReady s) (hread : m = .ok (v, { s.r with pos := s.r.pos + n })) :
    readerData s (deliverX0 s m) = .next (delivered s v n) := by
  rw [readerData, readerReady_ready hready, hread]
  rfl

theorem readerData_deliverX0_of_raised {s : State} {m : Except Stop (Word × Cursor)} {cause : Cause} {p : Nat}
    (hready : ReaderReady s) (hplaced : ReaderPlaced s) (hraise : m = .error (.raised (.format cause p))) :
    RaisesFormat s (readerData s (deliverX0 s m)) (causeCode cause) p none := by
  obtain ⟨hstart, hpos, -⟩ := hplaced
  rw [readerData, readerReady_ready hready, hraise]
  exact ⟨_, rfl, takeFormat_malformed cause p none (hstart.trans hpos)⟩

theorem exec_vgetu (s : State) : exec .vgetu s = readerData s (deliverX0 s (udecWord s s.r)) := rfl

theorem exec_vgets (s : State) : exec .vgets s = readerData s (deliverX0 s (sdecWord s s.r)) := rfl

/-! ## VGETU (R112, R114, R117) -/

theorem udecWord_of_ok {s : State} {c c' : Cursor} {v : Nat} (h : udec s c = .ok (v, c')) :
    udecWord s c = .ok (BitVec.ofNat 64 v, c') := by
  rw [udecWord, h]

theorem udecWord_of_error {s : State} {c : Cursor} {e : Stop} (h : udec s c = .error e) :
    udecWord s c = .error e := by
  rw [udecWord, h]

theorem udec_of_cut {s : State} (hmem : s.r.limit ≤ s.cfg.memSize) (hcut : VarintCut s s.r.pos) :
    udec s s.r = .error (.raised (.format .truncVarint s.r.limit)) := by
  obtain ⟨hpos, hshort, hcontinue⟩ := hcut
  exact udecFrom_cut 10 0 0 s.r hmem rfl hpos hshort fun x hfrom hto => hcontinue x hto hfrom

theorem udec_of_tooWide {s : State} (hmem : s.r.limit ≤ s.cfg.memSize) (hwide : UnsignedTooWide s s.r.pos) :
    udec s s.r = .error (.raised (.format .varintRange (s.r.pos + 9))) := by
  obtain ⟨⟨hroom, hcontinue⟩, hlast⟩ := hwide
  exact udecFrom_wide 9 0 0 s.r hmem rfl hroom (fun x hfrom hto => hcontinue x hto hfrom) hlast

/-- Settles O22: VGETU passes the tests of its cursor and ends as `udec` does at R.POS. -/
theorem vgetuReadsUnsigned : Obligations.VgetuReadsUnsigned := by
  refine ⟨encodes_of_row fun _ => rfl, fun s hplaced => ?_⟩
  have ⟨_, _, hmem⟩ := hplaced
  rw [exec_vgetu]
  refine ⟨readerRefuses_readerReady s _, fun hready => ⟨fun bs v hvarint ⟨hinside, hbytes⟩ => ?_,
    fun hcut => ?_, fun hwide => ?_⟩⟩
  · exact readerData_deliverX0_of_ok hready (udecWord_of_ok (udec_ok hvarint hmem hinside hbytes))
  · exact readerData_deliverX0_of_raised hready hplaced (udecWord_of_error (udec_of_cut hmem hcut))
  · exact readerData_deliverX0_of_raised hready hplaced (udecWord_of_error (udec_of_tooWide hmem hwide))

/-! ## VGETS (R113, R114, R118) -/

theorem sdecWord_of_ok {s : State} {c c' : Cursor} {v : Int} (h : sdec s c = .ok (v, c')) :
    sdecWord s c = .ok (BitVec.ofInt 64 v, c') := by
  rw [sdecWord, h]

theorem sdecWord_of_error {s : State} {c : Cursor} {e : Stop} (h : sdec s c = .error e) :
    sdecWord s c = .error e := by
  rw [sdecWord, h]

theorem sdec_of_cut {s : State} (hmem : s.r.limit ≤ s.cfg.memSize) (hcut : VarintCut s s.r.pos) :
    sdec s s.r = .error (.raised (.format .truncVarint s.r.limit)) := by
  obtain ⟨hpos, hshort, hcontinue⟩ := hcut
  exact sdecFrom_cut 10 0 0 s.r hmem rfl hpos hshort fun x hfrom hto => hcontinue x hto hfrom

theorem sdec_of_tooWide {s : State} (hmem : s.r.limit ≤ s.cfg.memSize) (hwide : SignedTooWide s s.r.pos) :
    sdec s s.r = .error (.raised (.format .varintRange (s.r.pos + 9))) := by
  obtain ⟨⟨hroom, hcontinue⟩, hnotZero, hnotOnes⟩ := hwide
  exact sdecFrom_wide 9 0 0 s.r hmem rfl hroom (fun x hfrom hto => hcontinue x hto hfrom) hnotZero hnotOnes

/-- Settles O23: VGETS passes the tests of its cursor and ends as `sdec` does at R.POS. -/
theorem vgetsReadsSigned : Obligations.VgetsReadsSigned := by
  refine ⟨encodes_of_row fun _ => rfl, fun s hplaced => ?_⟩
  have ⟨_, _, hmem⟩ := hplaced
  rw [exec_vgets]
  refine ⟨readerRefuses_readerReady s _, fun hready => ⟨fun bs v hvarint ⟨hinside, hbytes⟩ => ?_,
    fun hcut => ?_, fun hwide => ?_⟩⟩
  · exact readerData_deliverX0_of_ok hready (sdecWord_of_ok (sdec_ok hvarint hmem hinside hbytes))
  · exact readerData_deliverX0_of_raised hready hplaced (sdecWord_of_error (sdec_of_cut hmem hcut))
  · exact readerData_deliverX0_of_raised hready hplaced (sdecWord_of_error (sdec_of_tooWide hmem hwide))

end Sys2Proof.Machine
end

section
/-! The fixed-width codec (42_fixed.md): the bytes of an operand and the signed reading of a pattern, and the
ten commands that append and read a fixed-width field. -/

namespace Sys2Proof.Machine

/-! ## The bytes of an operand (R130) -/

theorem leBytes_eq_map_range (n v : Nat) :
    leBytes n v = (List.range n).map fun i => BitVec.ofNat 8 (v / 2 ^ (8 * i)) := by
  induction n generalizing v with
  | zero => rfl
  | succ n ih =>
    have hhead : BitVec.ofNat 8 (v % 256) = BitVec.ofNat 8 (v / 2 ^ (8 * 0)) :=
      BitVec.eq_of_toNat_eq (by simp)
    have htail : ∀ i, v / 256 / 2 ^ (8 * i) = v / 2 ^ (8 * (i + 1)) := fun i => by
      rw [Nat.div_div_eq_div_mul, Nat.mul_succ, Nat.pow_add, Nat.mul_comm]
    rw [leBytes, ih, hhead, List.range_succ_eq_map]
    simp [htail]

/-- Cutting a word to its low `n` bytes loses none of those bytes. -/
theorem ofNat_lowBytes_div {n i : Nat} (a : Word) (hi : i < n) :
    BitVec.ofNat 8 (lowBytes n a / 2 ^ (8 * i)) = a.extractLsb' (8 * i) 8 := by
  apply BitVec.eq_of_getLsbD_eq
  intro j hj
  have hkept : 8 * i + j < 8 * n := by omega
  simp only [lowBytes, BitVec.getLsbD_ofNat, BitVec.getLsbD_extractLsb', hj, decide_true, Bool.true_and,
    Nat.testBit_div_two_pow, Nat.testBit_mod_two_pow, Nat.add_comm j, hkept, BitVec.testBit_toNat]

theorem leBytes_lowBytes (n : Nat) (a : Word) : leBytes n (lowBytes n a) = operandBytes n a := by
  rw [leBytes_eq_map_range, operandBytes]
  exact List.map_congr_left fun i hi => ofNat_lowBytes_div a (List.mem_range.mp hi)

/-! ## PUT8 to PUTD (R134 to R138) -/

/-- The commands that append a fixed-width field, each with its width. -/
def putCommands (a : Word) : List (Instr × Nat) :=
  [(.put8 a, 1), (.put16 a, 2), (.put32 a, 4), (.put64 a, 8), (.putd a, 8)]

theorem packW_eq_wrbytes (s : State) (n : Nat) (a : Word) : packW s n a = wrbytes s (operandBytes n a) := by
  rw [packW, wrN_eq_wrbytes, leBytes_lowBytes]

theorem exec_of_mem_putCommands {a : Word} {p : Instr × Nat} (h : p ∈ putCommands a) (s : State) :
    exec p.1 s = writerData s (.ok (wrbytes s (operandBytes p.2 a))) := by
  rw [← packW_eq_wrbytes]
  simp only [putCommands, List.mem_cons, List.not_mem_nil, or_false] at h
  rcases h with rfl | rfl | rfl | rfl | rfl <;> rfl

/-- Settles O25: each of the five hands the low bytes of its operand to `wrbytes`. -/
theorem putAppendsLowBytes : Obligations.PutAppendsLowBytes := by
  refine ⟨encodes_of_row fun _ => rfl, encodes_of_row fun _ => rfl, encodes_of_row fun _ => rfl,
    encodes_of_row fun _ => rfl, encodes_of_row fun _ => rfl, fun s a hplaced p hp => ?_⟩
  rw [exec_of_mem_putCommands hp]
  exact writesOrFaults_wrbytes _ hplaced

/-! ## The signed reading of a pattern (R131) -/

/-- Sign extension reads a pattern of at least one byte in two's complement. -/
theorem signed_eq_ofInt_signedReading {n u : Nat} (hn : 1 ≤ n) (hu : u < 2 ^ (8 * n)) :
    signed n u = BitVec.ofInt 64 (signedReading n u) := by
  have hhalf : 2 ^ (8 * n - 1) * 2 = 2 ^ (8 * n) := Nat.two_pow_pred_mul_two (by omega)
  have htoInt : (BitVec.ofNat (8 * n) u).toInt = signedReading n u := by
    rw [BitVec.toInt_eq_toNat_cond, BitVec.toNat_ofNat, Nat.mod_eq_of_lt hu, signedReading]
    rcases Nat.lt_or_ge u (2 ^ (8 * n - 1)) with hpos | hneg
    · rw [if_pos (by omega), if_neg (by omega)]
    · rw [if_neg (by omega), if_pos hneg]
      norm_cast
  rw [signed, BitVec.signExtend, htoInt]

/-! ## GET8 to GETD (R139 to R143) -/

/-- The commands that read a fixed-width field, each with its width. -/
def getCommands : List (Instr × Nat) :=
  [(.get8, 1), (.get16, 2), (.get32, 4), (.get64, 8), (.getd, 8)]

theorem exec_of_mem_getCommands {p : Instr × Nat} (h : p ∈ getCommands) (s : State) :
    exec p.1 s = readerData s (deliverX0 s (unpackR s p.2)) := by
  simp only [getCommands, List.mem_cons, List.not_mem_nil, or_false] at h
  rcases h with rfl | rfl | rfl | rfl | rfl <;> rfl

theorem width_pos_of_mem_getCommands {p : Instr × Nat} (h : p ∈ getCommands) : 1 ≤ p.2 := by
  revert p
  decide

theorem unpackR_of_readsAt {s : State} {bs : List Byte} (hbs : 1 ≤ bs.length)
    (hmem : s.r.limit ≤ s.cfg.memSize) (hreads : ReadsAt s s.r.pos bs) :
    unpackR s bs.length = .ok (BitVec.ofInt 64 (signedReading bs.length (leNat bs)),
      { s.r with pos := s.r.pos + bs.length }) := by
  obtain ⟨hinside, hbytes⟩ := hreads
  have hpattern : leNat bs < 2 ^ (8 * bs.length) := by
    rw [Nat.pow_mul]
    exact leNat_lt bs
  obtain ⟨-, hread⟩ | ⟨hshort, -⟩ := rdN_cases bs.length hmem
  · rw [unpackR, hread, hbytes, ← signed_eq_ofInt_signedReading hbs hpattern]
  · omega

theorem unpackR_of_short {s : State} {n : Nat} (hshort : s.r.limit < s.r.pos + n) :
    unpackR s n = .error (.raised (.format .truncFixed s.r.pos)) := by
  rw [unpackR, rdN, if_pos hshort]

/-- Settles O26: each of the five passes the tests of its cursor and ends as `unpackR` does at R.POS. -/
theorem getDeliversSignExtended : Obligations.GetDeliversSignExtended := by
  refine ⟨encodes_of_row fun _ => rfl, encodes_of_row fun _ => rfl, encodes_of_row fun _ => rfl,
    encodes_of_row fun _ => rfl, encodes_of_row fun _ => rfl, fun s hplaced p hp => ?_⟩
  have ⟨_, _, hmem⟩ := hplaced
  have hwidth : 1 ≤ p.2 := width_pos_of_mem_getCommands hp
  rw [exec_of_mem_getCommands hp]
  refine ⟨readerRefuses_readerReady s _, fun hready => ⟨fun bs hlength hreads => ?_, fun hshort => ?_⟩⟩
  · rw [← hlength] at hwidth ⊢
    exact readerData_deliverX0_of_ok hready (unpackR_of_readsAt hwidth hmem hreads)
  · exact readerData_deliverX0_of_raised hready hplaced (unpackR_of_short hshort)

end Sys2Proof.Machine
end

section
/-! The serializer (43_serializer.md): the codes of the types, the bytes of a header and of an element, and the
three byte-form commands, whose operand checks are said once for a command that hands bytes to `wrbytes`. -/

namespace Sys2Proof.Machine

/-! ## The type codes (30_encoding.md R72, R77) -/

theorem typeCode_le (y : EntryType) : typeCode y ≤ 9 := by
  cases y <;> decide

theorem typeOfCode_of_gt {n : Nat} (h : 9 < n) : typeOfCode n = none := by
  rw [Option.eq_none_iff_forall_ne_some]
  intro y hy
  have hcode : n = typeCode y := typeOfCode_some hy
  have hle : typeCode y ≤ 9 := typeCode_le y
  omega

theorem typeOfCode_of_eq {n : Nat} {y : EntryType} (h : n = typeCode y) : typeOfCode n = some y := by
  rw [h, typeOfCode_typeCode]

theorem exists_typeCode_of_le {n : Nat} (h : n ≤ 9) : ∃ y, n = typeCode y := by
  interval_cases n <;> exact ⟨_, typeOfCode_some rfl⟩

/-! ## The header (R151) -/

/-- The three fields of byte0 lie side by side: the sum carries into no other field and fits in the byte. -/
theorem toNat_headerByte (arr : Bool) (y : EntryType) {il : Nat} (hil : il ≤ 7) :
    (headerByte arr y il).toNat = (if arr then 128 else 0) + typeCode y * 8 + il := by
  have hcode : typeCode y ≤ 9 := typeCode_le y
  have harr : (if arr then 128 else 0) ≤ 128 := by split <;> decide
  rw [headerByte, BitVec.toNat_ofNat, Nat.mod_eq_of_lt (by omega)]

theorem hdr_of_inline (arr : Bool) (y : EntryType) {tag : List Byte} (h : tag.length ≤ 7) :
    hdr arr y tag = headerByte arr y tag.length :: tag :=
  if_pos h

theorem hdr_of_explicit (arr : Bool) (y : EntryType) {tag : List Byte} (h : 8 ≤ tag.length) :
    hdr arr y tag = headerByte arr y 0 :: (uleb tag.length ++ tag) :=
  if_neg (Nat.not_le.mpr h)

/-! ## An element (R152) -/

theorem lowBytes_eight (a : Word) : lowBytes 8 a = zext a := Nat.mod_eq_of_lt a.isLt

theorem elemBytes_of_width_pos {y : EntryType} (a : Word) (d : List Byte) (h : 1 ≤ typeWidth y) :
    elemBytes y a d = operandBytes (typeWidth y) a := by
  rw [← leBytes_lowBytes]
  cases y with
  | null | string | binary | varint => exact absurd h (by decide)
  | int8 | int16 | int32 => rfl
  | int64 | double | datetime => rw [typeWidth, lowBytes_eight, elemBytes]

/-- Settles O28: a tag length of at most 7 fits in the inline field, and the types of a fixed width take that
many bytes of the operand. -/
theorem headerAndElementBytes : Obligations.HeaderAndElementBytes := by
  refine ⟨fun arr y tag => ⟨fun hinline => ?_, fun hexplicit => ?_⟩, fun a d => ⟨rfl, rfl, rfl, ?_⟩⟩
  · exact ⟨_, hdr_of_inline arr y hinline, toNat_headerByte arr y hinline⟩
  · exact ⟨_, hdr_of_explicit arr y hexplicit, toNat_headerByte arr y (Nat.zero_le 7)⟩
  · have hfixed {y : EntryType} (h : 1 ≤ typeWidth y) := elemBytes_of_width_pos a d h
    exact ⟨hfixed (by decide), hfixed (by decide), hfixed (by decide), hfixed (by decide), hfixed (by decide),
      hfixed (by decide), rfl⟩

/-! ## A command that checks its operands and appends bytes (30_encoding.md R85) -/

theorem rejectsFor_serialize (s : State) {bytes : Except Reason (List Byte)} {why : Reason}
    (h : bytes = .error why) : RejectsFor s (reasonCode why) (serialize s bytes) := by
  refine ⟨writerData_notInit, writerData_pending, fun hready => ?_⟩
  rw [serialize, writerData_ready hready, h]
  rfl

theorem writesOrFaults_serialize {s : State} {bytes : Except Reason (List Byte)} {bs : List Byte}
    (h : bytes = .ok bs) (hplaced : WriterPlaced s) : WritesOrFaults s bs (serialize s bytes) := by
  rw [h]
  exact writesOrFaults_wrbytes bs hplaced

/-- The three answers of a command that writes the head of an entry: the operand checks in the order of the rule,
TY before the tag, then the bytes the type asks for. -/
theorem serialize_tagged {s : State} {ty : Byte} {t : List Byte} {bytes : Except Reason (List Byte)}
    {entry : EntryType → List Byte} (hplaced : WriterPlaced s)
    (hunassigned : 9 < ty.toNat → bytes = .error .badType)
    (hassigned : ∀ y, ty.toNat = typeCode y →
      bytes = if t.length = 0 then .error .emptyTag else .ok (entry y)) :
    (9 < ty.toNat → RejectsFor s 4 (serialize s bytes)) ∧
    (ty.toNat ≤ 9 → t = [] → RejectsFor s 5 (serialize s bytes)) ∧
    (t ≠ [] → ∀ y, ty.toNat = typeCode y → WritesOrFaults s (entry y) (serialize s bytes)) := by
  refine ⟨fun hty => rejectsFor_serialize s (hunassigned hty), fun hty htag => ?_, fun htag y hy => ?_⟩
  · obtain ⟨y, hy⟩ := exists_typeCode_of_le hty
    have hempty : t.length = 0 := List.length_eq_zero_iff.mpr htag
    exact rejectsFor_serialize s ((hassigned y hy).trans (if_pos hempty))
  · have hnonempty : t.length ≠ 0 := mt List.length_eq_zero_iff.mp htag
    exact writesOrFaults_serialize ((hassigned y hy).trans (if_neg hnonempty)) hplaced

/-! ## ESCALAR (R153) -/

theorem scalarBytes_of_unassigned {ty : Byte} (t : List Byte) (a : Word) (d : List Byte) (h : 9 < ty.toNat) :
    scalarBytes ty t a d = .error .badType := by
  rw [scalarBytes, typeOfCode_of_gt h]

theorem scalarBytes_of_typeCode {ty : Byte} {y : EntryType} (t : List Byte) (a : Word) (d : List Byte)
    (h : ty.toNat = typeCode y) :
    scalarBytes ty t a d = if t.length = 0 then .error .emptyTag else .ok (hdr false y t ++ elemBytes y a d) := by
  rw [scalarBytes, typeOfCode_of_eq h]

theorem exec_escalar (ty : Byte) (t : List Byte) (a : Word) (d : List Byte) (s : State) :
    exec (.escalar ty t a d) s = serialize s (scalarBytes ty t a d) := rfl

/-- Settles O29: the operand checks of ESCALAR give a reason or the header and the element. -/
theorem escalarWritesTheEntry : Obligations.EscalarWritesTheEntry := by
  refine ⟨encodes_of_row fun _ => rfl, fun s ty t a d hplaced => ?_⟩
  rw [exec_escalar]
  exact serialize_tagged hplaced (scalarBytes_of_unassigned t a d) fun _ => scalarBytes_of_typeCode t a d

/-! ## EARRAY (R154) -/

theorem arrayBytes_of_unassigned {ty : Byte} (t : List Byte) (a : Word) (h : 9 < ty.toNat) :
    arrayBytes ty t a = .error .badType := by
  rw [arrayBytes, typeOfCode_of_gt h]

theorem arrayBytes_of_typeCode {ty : Byte} {y : EntryType} (t : List Byte) (a : Word) (h : ty.toNat = typeCode y) :
    arrayBytes ty t a = if t.length = 0 then .error .emptyTag else .ok (hdr true y t ++ uleb a.toNat) := by
  rw [arrayBytes, typeOfCode_of_eq h, zext]

theorem exec_earray (ty : Byte) (t : List Byte) (a : Word) (s : State) :
    exec (.earray ty t a) s = serialize s (arrayBytes ty t a) := rfl

/-- Settles O30: the operand checks of EARRAY give a reason or the header and the count. -/
theorem earrayWritesTheHeader : Obligations.EarrayWritesTheHeader := by
  refine ⟨encodes_of_row fun _ => rfl, fun s ty t a hplaced => ?_⟩
  rw [exec_earray]
  exact serialize_tagged hplaced (arrayBytes_of_unassigned t a) fun _ => arrayBytes_of_typeCode t a

/-! ## EELEM (R155) -/

theorem elementBytes_of_unassigned {ty : Byte} (a : Word) (d : List Byte) (h : 9 < ty.toNat) :
    elementBytes ty a d = .error .badType := by
  rw [elementBytes, typeOfCode_of_gt h]

theorem elementBytes_of_typeCode {ty : Byte} {y : EntryType} (a : Word) (d : List Byte)
    (h : ty.toNat = typeCode y) : elementBytes ty a d = .ok (elemBytes y a d) := by
  rw [elementBytes, typeOfCode_of_eq h]

theorem exec_eelem (ty : Byte) (a : Word) (d : List Byte) (s : State) :
    exec (.eelem ty a d) s = serialize s (elementBytes ty a d) := rfl

/-- Settles O31: the operand check of EELEM gives a reason or the bytes of the element. -/
theorem eelemWritesOneElement : Obligations.EelemWritesOneElement := by
  refine ⟨encodes_of_row fun _ => rfl, fun s ty a d hplaced => ?_⟩
  rw [exec_eelem]
  refine ⟨fun hty => ?_, fun y hy => ?_⟩
  · exact rejectsFor_serialize s (elementBytes_of_unassigned a d hty)
  · exact writesOrFaults_serialize (elementBytes_of_typeCode a d hy) hplaced

end Sys2Proof.Machine
end

section
/-! The slots of the reader (44_reader.md R192, R205 to R207): which slot NEXT writes and what a completed NEXT
leaves in the slots, and the three commands on the head of a view. -/

namespace Sys2Proof.Machine

/-! ## The slot NEXT writes (R192) -/

theorem chooseSlot_of_marked {s : State} (hcv : s.cvValid = true) (hvalid : (s.viewAt s.cvSlot.toNat).valid = true)
    (hreuse : (s.viewAt s.cvSlot.toNat).reuse = true) : chooseSlot s = s.cvSlot.toNat := by
  simp [chooseSlot, hcv, hvalid, hreuse]

theorem chooseSlot_of_unmarked {s : State} (hcv : s.cvValid = true)
    (hunmarked : (s.viewAt s.cvSlot.toNat).valid = false ∨ (s.viewAt s.cvSlot.toNat).reuse = false) :
    chooseSlot s = (s.cvSlot.toNat + 1) % s.cfg.nview := by
  rcases hunmarked with hvalid | hreuse
  · simp [chooseSlot, hcv, hvalid]
  · simp [chooseSlot, hcv, hreuse]

theorem chooseSlot_of_noView {s : State} (hcv : s.cvValid = false) : chooseSlot s = 0 := by
  simp [chooseSlot, hcv]

/-- One step round a pool of at least two slots leads to another slot. -/
theorem succ_mod_ne_self {k n : Nat} (hn : 2 ≤ n) (hk : k < n) : (k + 1) % n ≠ k := by
  rcases Nat.lt_or_eq_of_le (Nat.succ_le_of_lt hk) with hinside | hlast
  · rw [Nat.mod_eq_of_lt hinside]
    omega
  · have hwrap : (k + 1) % n = 0 := hlast ▸ Nat.mod_self (k + 1)
    omega

/-- In a sane state the slot exists. -/
theorem chooseSlot_lt {s : State} (hs : Inv s) : chooseSlot s < s.cfg.nview := by
  obtain ⟨-, -, hpool, -⟩ := hs.cfg
  by_cases hcv : s.cvValid = true
  · by_cases hmarked : (s.viewAt s.cvSlot.toNat).valid = true ∧ (s.viewAt s.cvSlot.toNat).reuse = true
    · rw [chooseSlot_of_marked hcv hmarked.1 hmarked.2]
      exact hs.cv hcv
    · rw [chooseSlot_of_unmarked hcv (by simpa [imp_iff_not_or] using hmarked)]
      exact Nat.mod_lt _ (by omega)
  · rw [chooseSlot_of_noView (by simpa using hcv)]
    omega

/-! ## A completed NEXT (R202) -/

/-- Of all a NEXT can do, only a decoded entry ends in STATUS = OK. -/
theorem exec_next_completed {s t : State} (hs : Inv s) (hstep : exec .next s = .next t) (hok : t.status = 0) :
    ∃ v c, v.valid = true ∧ v.reuse = false ∧ t = State.complete .ok (fillSlot (chooseSlot s) v c s) := by
  have hreads : ReadsEntry .next := .inl rfl
  obtain ⟨t', hstep', heffect⟩ := exec_runs .next s hs
  obtain rfl : t' = t := by
    rw [hstep] at hstep'
    cases hstep'
    rfl
  cases heffect with
  | took v c _ _ _ _ _ hvalid hreuse => exact ⟨v, c, hvalid, hreuse, rfl⟩
  | refused why => rw [State.reject_status] at hok; exact absurd hok (by decide)
  | malformed => rw [takeFormat_status] at hok; exact absurd hok (by decide)
  | atEnd => rw [State.complete_status] at hok; exact absurd hok (by decide)
  | wrote _ _ _ hother | overran _ hother | readOn _ _ _ _ hother | gave _ hother | gave2 _ _ hother
  | loose hother | loose2 hother => exact absurd hreads hother

/-- Filling a slot that exists changes that slot alone. -/
theorem viewAt_complete_fillSlot {s : State} {k : Nat} (hk : k < s.views.length) (st : Status) (v : View)
    (c : Cursor) (j : Nat) :
    ((fillSlot k v c s).complete st).viewAt j = if j = k then v else s.viewAt j :=
  calc ((fillSlot k v c s).complete st).viewAt j
      = if j = k ∧ k < s.views.length then v else s.viewAt j := State.viewAt_set s k j v
    _ = if j = k then v else s.viewAt j := by simp only [hk, and_true]

/-- Settles O40: the three cases of R192, and the state a completed NEXT leaves; a pool has at most 256 slots, so
CV.SLOT and x[0] hold the number of the slot whole. -/
theorem nextChoosesTheSlot : Obligations.NextChoosesTheSlot := by
  intro s hs
  refine ⟨chooseSlot_of_marked, fun hcv hunmarked => ?_, chooseSlot_of_noView, fun t hstep hok => ?_⟩
  · have hslot := chooseSlot_of_unmarked hcv hunmarked
    obtain ⟨-, -, hpool, -⟩ := hs.cfg
    exact ⟨hslot, hslot ▸ succ_mod_ne_self hpool (hs.cv hcv)⟩
  · obtain ⟨v, c, hvalid, hreuse, rfl⟩ := exec_next_completed hs hstep hok
    have hlt := chooseSlot_lt hs
    obtain ⟨-, -, -, hpool⟩ := hs.cfg
    have hviews := viewAt_complete_fillSlot (hs.slots ▸ hlt) .ok v c
    refine ⟨rfl, ?_, ?_, ?_, ?_, fun j hj => ?_⟩
    · exact Nat.mod_eq_of_lt (by omega)
    · exact Nat.mod_eq_of_lt (by omega)
    · rw [hviews, if_pos rfl, hvalid]
    · rw [hviews, if_pos rfl, hreuse]
    · rw [hviews, if_neg hj]

/-! ## MARK, VINFO and VTAG (R205 to R207) -/

/-- A view command is refused by the tests of its slot alone, whatever would come after them
(30_encoding.md R85). -/
theorem viewRefuses_viewCommand (s : State) (vs : Byte) (body : View → Result) :
    ViewRefuses s vs (viewCommand s vs body) := by
  refine ⟨fun hbeyond => ?_, fun hslot hempty => ?_⟩
  · rw [viewCommand, if_pos hbeyond]
    rfl
  · rw [viewCommand, if_neg (Nat.not_le.mpr hslot), hempty]
    rfl

theorem exec_mark (vs : Byte) (s : State) :
    exec (.mark vs) s = viewCommand s vs fun v =>
      .next { s with views := s.views.set vs.toNat { v with reuse := true }, status := 0, reason := 0 } := rfl

theorem exec_vinfo (vs : Byte) (s : State) :
    exec (.vinfo vs) s = viewCommand s vs fun v =>
      .next (answered2 s (BitVec.ofNat 64 ((if v.array then 16 else 0) + v.type.toNat)) v.count) := rfl

theorem exec_vtag (vs : Byte) (s : State) :
    exec (.vtag vs) s = viewCommand s vs fun v =>
      .next (answered2 s (deliver v.tagOff) (deliver v.tagLen)) := rfl

/-- Settles O49: once its slot has passed the tests, MARK writes the one bit. -/
theorem markSetsReuse : Obligations.MarkSetsReuse := by
  refine ⟨encodes_of_row fun _ => rfl, fun s vs => ?_⟩
  rw [exec_mark]
  exact ⟨viewRefuses_viewCommand s vs _, fun v hholds => viewCommand_holds hholds⟩

/-- Settles O50: VINFO and VTAG deliver fields of the slot as they stand, and the bounds on them are those of a
sane view. -/
theorem viewHeadIsDelivered : Obligations.ViewHeadIsDelivered := by
  refine ⟨encodes_of_row fun _ => rfl, encodes_of_row fun _ => rfl, fun s vs => ?_⟩
  rw [exec_vinfo, exec_vtag]
  refine ⟨viewRefuses_viewCommand s vs _, viewRefuses_viewCommand s vs _, fun v hholds => ?_⟩
  rw [viewCommand_holds hholds, viewCommand_holds hholds]
  obtain ⟨-, -, hvalid⟩ := hholds
  refine ⟨fun h hkind => ⟨?_, fun hsane => ?_⟩, fun p q hoff hlen => ⟨?_, fun hsane => ?_⟩⟩
  · rw [← hkind, BitVec.ofNat_toNat, BitVec.setWidth_eq]
  · obtain ⟨-, -, hhead⟩ := hsane
    exact (hhead hvalid).1
  · rw [← hoff, ← hlen, deliver_toNat, deliver_toNat]
  · obtain ⟨-, -, hhead⟩ := hsane
    obtain ⟨-, htag, -⟩ := hhead hvalid
    rwa [hlen]

end Sys2Proof.Machine
end

section
/-! The accessors of a view (45_view.md): the use R231 asks for, an element of a fixed-width type read from MEM as
it now is, a place or a value recorded in the slot, and VLONG by the type of the view. -/

namespace Sys2Proof.Machine

/-! ## The use R231 asks for -/

theorem accessOk_of_typeCode {v : View} {y : EntryType} {a : Word} (htype : v.type.toNat = typeCode y)
    (hindex : a.toNat < v.count.toNat) : accessOk v y (zext a) = true := by
  rw [accessOk, decide_eq_true htype, zext, decide_eq_true hindex]
  rfl

/-! ## An element of a fixed-width type (R220, R232) -/

theorem ne_of_typeWidth_pos {y : EntryType} (h : 1 ≤ typeWidth y) : y ≠ .string ∧ y ≠ .binary ∧ y ≠ .varint := by
  refine ⟨?_, ?_, ?_⟩ <;>
  · rintro rfl
    exact absurd h (by decide)

/-- An element below the count ends where the next one begins, at or below the end of the payload. -/
theorem element_fits {m off count w idx : Nat} (hpayload : off + count * w ≤ m) (hindex : idx < count) :
    off + idx * w + w ≤ m :=
  calc off + idx * w + w = off + (idx + 1) * w := by rw [Nat.succ_mul, Nat.add_assoc]
    _ ≤ off + count * w := Nat.add_le_add_left (Nat.mul_le_mul_right w hindex) off
    _ ≤ m := hpayload

theorem signed_leNat_bytesAt (s : State) (p : Nat) {n : Nat} (hn : 1 ≤ n) :
    signed n (leNat (s.bytesAt p n)) = BitVec.ofInt 64 (signedReading n (leNat (s.bytesAt p n))) := by
  have hpattern : leNat (s.bytesAt p n) < 2 ^ (8 * n) := by
    simpa [Nat.pow_mul] using leNat_lt (s.bytesAt p n)
  exact signed_eq_ofInt_signedReading hn hpattern

/-- The payload of a sane view lies in MEM, so the read of an element below the count does not leave it. -/
theorem fetchElement_of_sane {s : State} {v : View} {y : EntryType} {a : Word} (hwidth : 1 ≤ typeWidth y)
    (hvalid : v.valid = true) (hsane : ViewSane s.cfg v) (htype : v.type.toNat = typeCode y)
    (hindex : a.toNat < v.count.toNat) :
    fetchElement s v (typeWidth y) a.toNat = .next (answered s (BitVec.ofInt 64
      (signedReading (typeWidth y)
        (leNat (s.bytesAt (v.dataOff + a.toNat * typeWidth y) (typeWidth y)))))) := by
  have hpayload : v.dataOff + v.count.toNat * typeWidth y ≤ s.cfg.memSize :=
    viewSane_fixed hsane hvalid htype (ne_of_typeWidth_pos hwidth)
  rw [fetchElement, memRead, if_pos (element_fits hpayload hindex), ← signed_leNat_bytesAt s _ hwidth]
  rfl

/-! ## VI8 to VI64, VDT and VDBL (R221 to R225, R229) -/

/-- The accessors of the fixed-width types, each with its type. -/
def fixedAccessors (vs : Byte) (a : Word) : List (Instr × EntryType) :=
  [(.vi8 vs a, .int8), (.vi16 vs a, .int16), (.vi32 vs a, .int32), (.vi64 vs a, .int64), (.vdt vs a, .datetime),
   (.vdbl vs a, .double)]

theorem exec_of_mem_fixedAccessors {vs : Byte} {a : Word} {p : Instr × EntryType} (h : p ∈ fixedAccessors vs a)
    (s : State) : exec p.1 s = fixedAccessor p.2 vs a s := by
  simp only [fixedAccessors, List.mem_cons, List.not_mem_nil, or_false] at h
  rcases h with rfl | rfl | rfl | rfl | rfl | rfl <;> rfl

theorem width_pos_of_mem_fixedAccessors {vs : Byte} {a : Word} {p : Instr × EntryType}
    (h : p ∈ fixedAccessors vs a) : 1 ≤ typeWidth p.2 := by
  have htypes : p.2 ∈ (fixedAccessors vs a).map Prod.snd := List.mem_map_of_mem h
  have hwidths : ∀ y ∈ [EntryType.int8, .int16, .int32, .int64, .datetime, .double], 1 ≤ typeWidth y := by decide
  exact hwidths p.2 htypes

theorem fixedAccessor_of_typeCode {s : State} {vs : Byte} {v : View} {y : EntryType} {a : Word}
    (hholds : Holds s vs v) (htype : v.type.toNat = typeCode y) (hindex : a.toNat < v.count.toNat) :
    fixedAccessor y vs a s = fetchElement s v (typeWidth y) a.toNat := by
  rw [fixedAccessor, viewCommand_holds hholds, if_pos (accessOk_of_typeCode htype hindex), zext]

/-- Settles O51: each of the six passes the tests of its slot and its use and fetches the element. -/
theorem fixedAccessorsReadTheElement : Obligations.FixedAccessorsReadTheElement := by
  refine ⟨encodes_of_row fun _ => rfl, encodes_of_row fun _ => rfl, encodes_of_row fun _ => rfl,
    encodes_of_row fun _ => rfl, encodes_of_row fun _ => rfl, encodes_of_row fun _ => rfl, fun s vs a p hp => ?_⟩
  rw [exec_of_mem_fixedAccessors hp]
  refine ⟨viewRefuses_viewCommand s vs _, fun v hholds hsane htype hindex => ?_⟩
  have ⟨_, _, hvalid⟩ := hholds
  rw [fixedAccessor_of_typeCode hholds htype hindex]
  exact fetchElement_of_sane (width_pos_of_mem_fixedAccessors hp) hvalid hsane htype hindex

/-! ## VSTR and VBIN (R226, R227) -/

/-- The accessors of the types recorded as places, each with its type. -/
def spanAccessors (vs : Byte) (a : Word) : List (Instr × EntryType) := [(.vstr vs a, .string), (.vbin vs a, .binary)]

theorem exec_of_mem_spanAccessors {vs : Byte} {a : Word} {p : Instr × EntryType} (h : p ∈ spanAccessors vs a)
    (s : State) : exec p.1 s = spanAccessor p.2 vs a s := by
  simp only [spanAccessors, List.mem_cons, List.not_mem_nil, or_false] at h
  rcases h with rfl | rfl <;> rfl

theorem spanAccessor_of_span {s : State} {vs : Byte} {v : View} {y : EntryType} {a : Word} {off len : Nat}
    (hholds : Holds s vs v) (htype : v.type.toNat = typeCode y) (hindex : a.toNat < v.count.toNat)
    (hplace : v.elems[a.toNat]? = some (.span off len)) :
    spanAccessor y vs a s = .next (answered2 s (deliver off) (deliver len)) := by
  rw [spanAccessor, viewCommand_holds hholds, accessOk_of_typeCode htype hindex, zext, hplace]
  rfl

/-- Settles O52: the recorded place is delivered, and a position that fits a result register is delivered whole. -/
theorem spanAccessorsDeliverThePlace : Obligations.SpanAccessorsDeliverThePlace := by
  refine ⟨encodes_of_row fun _ => rfl, encodes_of_row fun _ => rfl, fun s vs a p hp => ?_⟩
  rw [exec_of_mem_spanAccessors hp]
  refine ⟨viewRefuses_viewCommand s vs _, fun v off len hholds htype hindex hplace => ?_⟩
  rw [spanAccessor_of_span hholds htype hindex hplace, deliver_toNat, deliver_toNat]

/-! ## VVAR (R228) -/

theorem recordedValue_of_val {s : State} {v : View} {idx : Nat} {x : Word} (h : v.elems[idx]? = some (.val x)) :
    recordedValue s v idx = .next (answered s x) := by
  rw [recordedValue, h]
  rfl

theorem exec_vvar_of_typeCode {s : State} {vs : Byte} {v : View} {a : Word} (hholds : Holds s vs v)
    (htype : v.type.toNat = typeCode .varint) (hindex : a.toNat < v.count.toNat) :
    exec (.vvar vs a) s = recordedValue s v a.toNat := by
  rw [exec, execVvar, viewCommand_holds hholds, if_pos (accessOk_of_typeCode htype hindex), zext]

/-- Settles O53: the value comes from the element table of the slot, and MEM is not read. -/
theorem vvarDeliversTheRecordedValue : Obligations.VvarDeliversTheRecordedValue := by
  refine ⟨encodes_of_row fun _ => rfl, fun s vs a => ⟨?_, fun v x hholds htype hindex hrecord => ?_⟩⟩
  · rw [exec, execVvar]
    exact viewRefuses_viewCommand s vs _
  · rw [exec_vvar_of_typeCode hholds htype hindex, recordedValue_of_val hrecord]

/-! ## VLONG (R230) -/

section
variable {s : State} {vs : Byte} {v : View} {a : Word}

theorem exec_vlong_of_null (hholds : Holds s vs v) (htype : v.type.toNat = typeCode .null) :
    exec (.vlong vs a) s = .next (takeConversion .eConvNull s) := by
  rw [exec, execVlong, viewCommand_holds hholds, typeOfCode_of_eq htype]
  rfl

theorem exec_vlong_of_noConversion {y : EntryType} (hholds : Holds s vs v) (htype : v.type.toNat = typeCode y)
    (hy : y ∈ [EntryType.string, .binary, .double]) :
    exec (.vlong vs a) s = .next (takeConversion .eConvType s) := by
  rw [exec, execVlong, viewCommand_holds hholds, typeOfCode_of_eq htype]
  simp only [List.mem_cons, List.not_mem_nil, or_false] at hy
  rcases hy with rfl | rfl | rfl <;> rfl

theorem exec_vlong_of_varint (hholds : Holds s vs v) (htype : v.type.toNat = typeCode .varint) :
    exec (.vlong vs a) s =
      if a.toNat < v.count.toNat then recordedValue s v a.toNat else .next (s.looseX0.complete .ok) := by
  rw [exec, execVlong, viewCommand_holds hholds, typeOfCode_of_eq htype, zext]

/-- The integer types of a fixed width: those whose element VLONG fetches. -/
def fixedIntegerTypes : List EntryType := [.int8, .int16, .int32, .int64, .datetime]

theorem width_pos_of_mem_fixedIntegerTypes {y : EntryType} (h : y ∈ fixedIntegerTypes) : 1 ≤ typeWidth y := by
  revert y
  decide

theorem exec_vlong_of_fixedInteger {y : EntryType} (hholds : Holds s vs v) (htype : v.type.toNat = typeCode y)
    (hy : y ∈ fixedIntegerTypes) :
    exec (.vlong vs a) s =
      if a.toNat < v.count.toNat then fetchElement s v (typeWidth y) a.toNat
      else .next (s.looseX0.complete .ok) := by
  rw [exec, execVlong, viewCommand_holds hholds, typeOfCode_of_eq htype, zext]
  simp only [fixedIntegerTypes, List.mem_cons, List.not_mem_nil, or_false] at hy
  rcases hy with rfl | rfl | rfl | rfl | rfl <;> rfl

/-- An index at or beyond the count is the unchecked case of R231 for every integer type. -/
theorem exec_vlong_of_beyond {y : EntryType} (hholds : Holds s vs v) (htype : v.type.toNat = typeCode y)
    (hy : y ∈ fixedIntegerTypes ++ [.varint]) (hbeyond : v.count.toNat ≤ a.toNat) :
    exec (.vlong vs a) s = .next (s.looseX0.complete .ok) := by
  have hindex : ¬ a.toNat < v.count.toNat := Nat.not_lt.mpr hbeyond
  rcases List.mem_append.mp hy with hfixed | hvarint
  · rw [exec_vlong_of_fixedInteger hholds htype hfixed, if_neg hindex]
  · obtain rfl : y = .varint := List.mem_singleton.mp hvarint
    rw [exec_vlong_of_varint hholds htype, if_neg hindex]

end

/-- A type code of a list of codes is the code of a type of the list of their types. -/
theorem exists_type_of_mem_codes {n : Nat} {ys : List EntryType} (h : n ∈ ys.map typeCode) :
    ∃ y ∈ ys, n = typeCode y := by
  obtain ⟨y, hy, hcode⟩ := List.mem_map.mp h
  exact ⟨y, hy, hcode.symm⟩

/-- Settles O54: the type of the view picks the equation of VLONG, and what a refused conversion or an unchecked
index leaves open are the free values the model draws. -/
theorem vlongConvertsByType : Obligations.VlongConvertsByType := by
  refine ⟨encodes_of_row fun _ => rfl, fun s vs a => ⟨?refused, fun v hholds =>
    ⟨fun htype => ?null, fun hcodes => ?noConversion, fun y hy htype hsane hindex => ?fixed,
      fun x htype hindex hrecord => ?varint, fun hcodes hbeyond => ?beyond⟩⟩⟩
  case refused =>
    rw [exec, execVlong]
    exact viewRefuses_viewCommand s vs _
  case null => exact ⟨_, _, exec_vlong_of_null hholds htype⟩
  case noConversion =>
    obtain ⟨y, hy, htype⟩ := exists_type_of_mem_codes (ys := [.string, .binary, .double]) hcodes
    exact ⟨_, _, exec_vlong_of_noConversion hholds htype hy⟩
  case fixed =>
    have ⟨_, _, hvalid⟩ := hholds
    rw [exec_vlong_of_fixedInteger hholds htype hy, if_pos hindex]
    exact fetchElement_of_sane (width_pos_of_mem_fixedIntegerTypes hy) hvalid hsane htype hindex
  case varint => rw [exec_vlong_of_varint hholds htype, if_pos hindex, recordedValue_of_val hrecord]
  case beyond =>
    obtain ⟨y, hy, htype⟩ := exists_type_of_mem_codes (ys := fixedIntegerTypes ++ [.varint]) hcodes
    exact ⟨_, exec_vlong_of_beyond hholds htype hy hbeyond⟩

end Sys2Proof.Machine
end

section
/-! The invariant (10_state.md): it holds at reset, every effect of an instruction and every move of the host
keeps it, and from it neither an instruction nor a legal move stops the machine. -/

namespace Sys2Proof.Machine

/-! ## Reset -/

theorem cursorSane_reset (cfg : Config) : CursorSane cfg Cursor.reset :=
  have hwidth : 0 < 2 ^ cfg.aw := Nat.two_pow_pos _
  ⟨⟨hwidth, hwidth, hwidth, hwidth⟩, fun hinit => Bool.noConfusion (hinit : false = true), fun _ => rfl,
    fun hkind => absurd rfl hkind⟩

theorem viewSane_empty (cfg : Config) : ViewSane cfg View.empty :=
  have hwidth : 0 < 2 ^ cfg.aw := Nat.two_pow_pos _
  ⟨⟨hwidth, hwidth, hwidth⟩, fun _ => rfl, fun hvalid => Bool.noConfusion (hvalid : false = true)⟩

theorem inv_resetOf {c : Config} (hc : c.Valid) : Inv (State.resetOf c) where
  cfg := hc
  mem := ⟨wf_resetOf c, fun _ hcell => absurd hcell List.not_mem_nil⟩
  w := cursorSane_reset c
  wErr := ⟨.inl rfl, rfl⟩
  r := cursorSane_reset c
  rErr := .inl ⟨rfl, rfl⟩
  status := Nat.zero_le 6
  reason := ⟨Nat.zero_le 9, by simp [State.resetOf]⟩
  slots := List.length_replicate
  views := fun _ hv => List.eq_of_mem_replicate hv ▸ viewSane_empty c
  cv := fun hcv => Bool.noConfusion (hcv : false = true)

/-- Settles O2: nothing is set up at power-on, so there is nothing but ranges to check. -/
theorem invAtReset : Obligations.InvAtReset :=
  ⟨fun _ hc => inv_resetOf hc, inv_resetOf (by decide)⟩

/-! ## The codes a command ends with (10_state.md R26, R27) -/

theorem statusCode_le (st : Status) : (statusCode st).toNat ≤ 6 := by
  cases st <;> decide

theorem statusCode_ne_six {st : Status} (h : st ≠ .rejected) : statusCode st ≠ 6 := by
  cases st with
  | rejected => exact absurd rfl h
  | ok | endOfDoc | eFormat | eBufSmall | eConvNull | eConvType => decide

/-- REASON is 0 exactly where STATUS does not report a rejection (R27): here, where it does not. -/
theorem noReason_legal {st : Status} (h : st ≠ .rejected) :
    (0 : BitVec 8).toNat ≤ 9 ∧ ((0 : BitVec 8) = 0 ↔ statusCode st ≠ 6) :=
  ⟨Nat.zero_le 9, iff_of_true rfl (statusCode_ne_six h)⟩

theorem reasonCode_legal (why : Reason) :
    (reasonCode why).toNat ≤ 9 ∧ (reasonCode why = 0 ↔ statusCode .rejected ≠ 6) := by
  cases why <;> decide

theorem inv_complete {s : State} (hs : Inv s) {st : Status} (hst : st ≠ .rejected) : Inv (s.complete st) :=
  { hs with
    status := statusCode_le st
    reason := noReason_legal hst }

theorem inv_reject {s : State} (hs : Inv s) (why : Reason) : Inv (s.reject why) :=
  { hs with
    status := statusCode_le .rejected
    reason := reasonCode_legal why }

/-! ## The cursors (10_state.md R21, R22, R24) -/

section
variable {cfg : Config} {c : Cursor}

theorem cursorSane_openRegion (hcfg : cfg.Valid) (hc : CursorSane cfg c) {off len : Nat}
    (hfits : off + len ≤ cfg.memSize) : CursorSane cfg (openRegion off len c) := by
  obtain ⟨-, hwidth, -⟩ := hcfg
  obtain ⟨⟨-, -, -, herrPos⟩, -⟩ := hc
  refine ⟨⟨?_, ?_, ?_, herrPos⟩, fun _ => ⟨Nat.le_refl off, ?_, hfits⟩, fun _ => rfl, fun hkind => absurd rfl hkind⟩ <;>
  · simp only [openRegion_start, openRegion_pos, openRegion_limit]
    omega

theorem cursorSane_rewound (hc : CursorSane cfg c) : CursorSane cfg (rewound c) := by
  obtain ⟨⟨hstart, -, hlimit, herrPos⟩, horder, -⟩ := hc
  refine ⟨⟨hstart, hstart, hlimit, herrPos⟩, fun hinit => ?_, fun _ => rfl, fun hkind => absurd rfl hkind⟩
  obtain ⟨hpos, hregion, hmem⟩ := horder hinit
  exact ⟨Nat.le_refl _, hpos.trans hregion, hmem⟩

/-- A cursor with no fault pending that moves forward in its region stays sane, and so does its record. -/
theorem cursorSane_moved {c' : Cursor} (hc : CursorSane cfg c) (hinit : c.init = true) (hkind : c.errKind = 0)
    (hmoved : Moved c c') : CursorSane cfg c' := by
  obtain ⟨⟨hstart, -, hlimit, herrPos⟩, horder, -⟩ := hc
  obtain ⟨hpos, -, hmem⟩ := horder hinit
  obtain ⟨heq, hforward, hinside⟩ := hmoved
  rw [heq]
  exact ⟨⟨hstart, by simp only; omega, hlimit, herrPos⟩, fun _ => ⟨by simp only; omega, hinside, hmem⟩, fun _ => hkind,
    fun h => absurd hkind h⟩

end

theorem inv_withW {s : State} (hs : Inv s) {c : Cursor} (hc : CursorSane s.cfg c) (hrecord : WriterRecord c) :
    Inv { s with w := c } :=
  { hs with w := hc, wErr := hrecord }

theorem inv_withR {s : State} (hs : Inv s) {c : Cursor} (hc : CursorSane s.cfg c) (hrecord : ReaderRecord c) :
    Inv { s with r := c } :=
  { hs with r := hc, rErr := hrecord }

theorem readerRecord_moved {c c' : Cursor} (hrecord : ReaderRecord c) (hkind : c.errKind = 0) (hmoved : Moved c c') :
    ReaderRecord c' := by
  obtain ⟨heq, -⟩ := hmoved
  rw [heq]
  rcases hrecord with hnone | ⟨hformat, -⟩
  · exact .inl hnone
  · rw [hkind] at hformat
    exact absurd hformat (by decide)

theorem inv_moved {s : State} (hs : Inv s) (hready : ReaderReady s) {c : Cursor} (hmoved : Moved s.r c) :
    Inv { s with r := c } :=
  inv_withR hs (cursorSane_moved hs.r hready.1 hready.2 hmoved) (readerRecord_moved hs.rErr hready.2 hmoved)

/-! ## MEM (10_state.md R20) -/

theorem memSane_writeBytes {cfg : Config} {m : Memory} (hm : MemSane cfg m) {a : Nat} {bs : List Byte}
    (hfits : a + bs.length ≤ cfg.memSize) : MemSane cfg (m.writeBytes a bs) := by
  refine ⟨Memory.wf_writeBytes hm.1 a bs, fun cell hcell => ?_⟩
  rcases Memory.mem_writeBytes hcell with hwritten | hlisted
  · omega
  · exact hm.2 cell hlisted

theorem memSane_loosen {cfg : Config} {m : Memory} (hm : MemSane cfg m) {a n : Nat} (d : Nat)
    (hfits : a + n ≤ cfg.memSize) : MemSane cfg (m.loosen d a n) := by
  refine ⟨Memory.wf_loosen hm.1 d a n, fun cell hcell => ?_⟩
  rcases Memory.mem_loosen hcell with hloose | hlisted
  · omega
  · exact hm.2 cell hlisted

theorem inv_stored {s : State} (hs : Inv s) (hready : WriterReady s) {bs : List Byte}
    (hfits : s.w.pos + bs.length ≤ s.w.limit) : Inv (stored s bs) := by
  obtain ⟨-, -, hlimit⟩ := hs.w.2.1 hready.1
  have hmoved : Moved s.w { s.w with pos := s.w.pos + bs.length } := ⟨rfl, Nat.le_add_right _ _, hfits⟩
  exact { hs with
    mem := memSane_writeBytes hs.mem (hfits.trans hlimit)
    w := cursorSane_moved hs.w hready.1 hready.2 hmoved
    wErr := hs.wErr }

/-! ## Fault entries (60_exceptions.md R247) -/

theorem inv_takeBufferTooSmall {s : State} (hs : Inv s) (hready : WriterReady s) : Inv (takeBufferTooSmall s) := by
  obtain ⟨⟨hstart, -, hlimitWidth, -⟩, horder, -⟩ := hs.w
  obtain ⟨hpos, hregion, hlimit⟩ := horder hready.1
  obtain ⟨hfrom, hto⟩ := freeBetween_bounds hregion s.draws 0
  have herrPos : Config.freeNat s.draws 1 % 2 ^ s.cfg.aw < 2 ^ s.cfg.aw := Nat.mod_lt _ (Nat.two_pow_pos _)
  exact { hs with
    mem := memSane_loosen hs.mem s.draws (by omega)
    w := ⟨⟨hstart, hto.trans_lt hlimitWidth, hlimitWidth, herrPos⟩, fun _ => ⟨hpos.trans hfrom, hto, hlimit⟩,
      fun huninit => absurd hready.1 (by rw [show s.w.init = false from huninit]; decide), fun _ => ⟨hpos, hfrom⟩⟩
    wErr := ⟨.inr rfl, rfl⟩
    status := statusCode_le .eBufSmall
    reason := noReason_legal (st := .eBufSmall) (by decide) }

/-- The free fields of a ruined slot are cut to the width of a position, and it is not valid. -/
theorem viewSane_ruinedView (cfg : Config) (d : Nat) : ViewSane cfg (ruinedView cfg.aw d) :=
  have hcut (n : Nat) : n % 2 ^ cfg.aw < 2 ^ cfg.aw := Nat.mod_lt n (Nat.two_pow_pos _)
  ⟨⟨hcut _, hcut _, hcut _⟩, fun _ => rfl, fun hvalid => Bool.noConfusion (hvalid : false = true)⟩

theorem viewSane_of_mem_set {cfg : Config} {views : List View} (hviews : ∀ v ∈ views, ViewSane cfg v) {k : Nat}
    {v : View} (hv : ViewSane cfg v) : ∀ u ∈ views.set k v, ViewSane cfg u := fun u hu =>
  (List.mem_or_eq_of_mem_set hu).elim (hviews u) fun heq => heq ▸ hv

theorem causeCode_bounds (cause : Cause) : 1 ≤ (causeCode cause).toNat ∧ (causeCode cause).toNat ≤ 6 := by
  cases cause <;> decide

theorem inv_takeFormat {s : State} (hs : Inv s) (hready : ReaderReady s) (cause : Cause) {pos : Nat}
    (slot : Option Nat) (hfrom : s.r.pos ≤ pos) (hto : pos ≤ s.r.limit) : Inv (takeFormat cause pos slot s) := by
  obtain ⟨⟨hstart, -, hlimitWidth, -⟩, horder, -⟩ := hs.r
  obtain ⟨hpos, hregion, hlimit⟩ := horder hready.1
  obtain ⟨hlow, hhigh⟩ := freeBetween_bounds (hpos.trans hregion) s.draws 0
  obtain ⟨hcause, hcause'⟩ := causeCode_bounds cause
  exact { hs with
    r := ⟨⟨hstart, hhigh.trans_lt hlimitWidth, hlimitWidth, hto.trans_lt hlimitWidth⟩, fun _ => ⟨hlow, hhigh, hlimit⟩,
      fun huninit => absurd hready.1 (by rw [show s.r.init = false from huninit]; decide),
      fun _ => ⟨Nat.le_refl _, hlow⟩⟩
    rErr := .inr ⟨rfl, hcause, hcause', hpos.trans hfrom, hto⟩
    status := statusCode_le .eFormat
    reason := noReason_legal (st := .eFormat) (by decide)
    slots := by
      cases slot with
      | none => exact hs.slots
      | some k => rw [takeFormat_views_some, List.length_set]; exact hs.slots
    views := by
      cases slot with
      | none => exact hs.views
      | some k => exact viewSane_of_mem_set hs.views (viewSane_ruinedView s.cfg s.draws) }

/-! ## The slots (10_state.md R30 to R32) -/

theorem inv_setView {s : State} (hs : Inv s) (k : Nat) {v : View} (hv : ViewSane s.cfg v) : Inv (s.setView k v) :=
  { hs with
    slots := (List.length_set ..).trans hs.slots
    views := viewSane_of_mem_set hs.views hv }

/-- What a completed NEXT writes is sane: the slot it chose exists, and the view lies in the region. -/
theorem inv_fillSlot {s : State} (hs : Inv s) (hready : ReaderReady s) {v : View} {c : Cursor} (hmoved : Moved s.r c)
    (hv : ViewSane s.cfg v) : Inv (fillSlot (chooseSlot s) v c s) := by
  have hslot := chooseSlot_lt hs
  obtain ⟨-, -, -, hpool⟩ := hs.cfg
  exact { inv_setView (inv_moved hs hready hmoved) (chooseSlot s) hv with
    cv := fun _ => (Nat.mod_eq_of_lt (show chooseSlot s < 2 ^ 8 by omega)).trans_lt hslot }

theorem viewSane_taken {s : State} (hs : Inv s) (hready : ReaderReady s) {v : View} (hvalid : v.valid = true)
    (hcount : v.array = false → v.count = 1) (htag : 1 ≤ v.tagLen) (hbehind : v.tagOff + v.tagLen ≤ v.dataOff)
    (hinside : v.dataOff ≤ s.r.limit) (htable : TableSane s.cfg v) : ViewSane s.cfg v := by
  obtain ⟨-, hwidth, -⟩ := hs.cfg
  obtain ⟨-, -, hlimit⟩ := hs.r.2.1 hready.1
  exact ⟨⟨by omega, by omega, by omega⟩, fun hinvalid => absurd hvalid (by rw [hinvalid]; decide),
    fun _ => ⟨hcount, htag, hbehind, hinside.trans hlimit, htable⟩⟩

theorem viewSane_marked {cfg : Config} {v : View} (hv : ViewSane cfg v) (hvalid : v.valid = true) :
    ViewSane cfg { v with reuse := true } :=
  ⟨hv.1, fun hinvalid => absurd hvalid (by rw [show v.valid = false from hinvalid]; decide), hv.2.2⟩

/-! ## Every effect, and every step -/

theorem effect_keeps_inv {s t : State} {i : Instr} (hs : Inv s) (h : Effect s i t) : Inv t := by
  have hcomplete {u : State} {st : Status} (hu : Inv u) (hst : st ≠ .rejected := by decide) : Inv (u.complete st) :=
    inv_complete hu hst
  cases h with
  | refused why => exact inv_reject hs why
  | setW a b hfits => exact hcomplete (inv_withW hs (cursorSane_openRegion hs.cfg hs.w hfits) ⟨.inl rfl, rfl⟩)
  | rewindW hinit => exact hcomplete (inv_withW hs (cursorSane_rewound hs.w) ⟨.inl rfl, rfl⟩)
  | setR a b hfits => exact hcomplete (inv_withR hs (cursorSane_openRegion hs.cfg hs.r hfits) (.inl ⟨rfl, rfl⟩))
  | rewindR hinit => exact hcomplete (inv_withR hs (cursorSane_rewound hs.r) (.inl ⟨rfl, rfl⟩))
  | wrote bs hready hfits => exact hcomplete (inv_stored hs hready hfits)
  | overran hready => exact inv_takeBufferTooSmall hs hready
  | readOn c v hready hmoved => exact hcomplete { inv_moved hs hready hmoved with }
  | malformed cause pos slot hready hfrom hto => exact inv_takeFormat hs hready cause slot hfrom hto
  | atEnd => exact hcomplete hs
  | took v c y hready _ hmoved _ hvalid _ _ hcount htag _ hbehind hinside htable =>
    exact hcomplete (inv_fillSlot hs hready hmoved (viewSane_taken hs hready hvalid hcount htag hbehind hinside htable))
  | marked vs v hholds =>
    exact hcomplete (inv_setView hs vs.toNat (viewSane_marked (inv_viewSane hs hholds) hholds.2.2))
  | gave | gave2 | loose | loose2 => exact hcomplete { hs with }
  | conversion vs a st hst =>
    have hconversion : Inv s.looseX := { hs with }
    exact inv_complete hconversion (by rcases hst with rfl | rfl <;> decide)

theorem effect_of_exec {s t : State} {i : Instr} (hs : Inv s) (hstep : exec i s = .next t) : Effect s i t := by
  obtain ⟨t', hstep', heffect⟩ := exec_runs i s hs
  obtain rfl : t' = t := by
    rw [hstep] at hstep'
    cases hstep'
    rfl
  exact heffect

theorem exec_keeps_inv {s t : State} {i : Instr} (hs : Inv s) (hstep : exec i s = .next t) : Inv t :=
  effect_keeps_inv hs (effect_of_exec hs hstep)

theorem inv_hostReset {s : State} (hs : Inv s) : Inv (hostReset s) := { inv_resetOf hs.cfg with }

theorem hostAccess_keeps_inv {s t : State} {a : HostAccess} (hs : Inv s) (hstep : hostAccess a s = .next t) : Inv t := by
  cases a with
  | writeMem addr bytes =>
    rw [hostAccess] at hstep
    split at hstep
    case isTrue hfits =>
      cases hstep
      exact { hs with mem := memSane_writeBytes hs.mem hfits }
    case isFalse => cases hstep
  | readMem addr =>
    rw [hostAccess] at hstep
    split at hstep
    · cases hstep
      exact { hs with }
    · cases hstep
  | readReg num =>
    cases hstep
    exact { hs with }
  | reset =>
    cases hstep
    exact inv_hostReset hs

theorem noInstruction_keeps_inv {s t : State} {e : DecodeError} (hs : Inv s) (hstep : noInstruction e s = .next t) :
    Inv t := by
  cases e with
  | badOpcode op =>
    cases hstep
    exact inv_reject hs .badOp
  | shortHeader | badLength => cases hstep

/-- Taking the host's move leaves the engine as it is. -/
theorem inv_withInbox {s : State} (hs : Inv s) (rest : List HostMove) : Inv (s.withInbox rest) := { hs with }

theorem step_command_of_ok {s : State} {bs : List Byte} {rest : List HostMove} {i : Instr}
    (hinbox : s.inbox = .command bs :: rest) (hi : decode bs = .ok i) : step s = exec i (s.withInbox rest) := by
  unfold step
  rw [hinbox]
  simp only [hi]

theorem step_of_idle {s : State} (hinbox : s.inbox = []) : step s = .next s := by
  unfold step
  rw [hinbox]

/-- Settles O5: the head of the inbox is decoded and executed, with the move taken. -/
theorem stepRunsPresentedCommand : Obligations.StepRunsPresentedCommand :=
  ⟨fun _ _ _ _ hinbox hi => step_command_of_ok hinbox hi, fun _ hinbox => step_of_idle hinbox⟩

/-- Settles O3: whatever the host's next move, what it does keeps the invariant: an instruction by its effect, an
access by its kind, and bytes that are no instruction by a rejection. -/
theorem stepKeepsInv : Obligations.StepKeepsInv := by
  intro s t hs hstep
  cases hinbox : s.inbox with
  | nil =>
    rw [step_of_idle hinbox] at hstep
    cases hstep
    exact hs
  | cons move rest =>
    cases move with
    | access a =>
      rw [step_access hinbox] at hstep
      exact hostAccess_keeps_inv (inv_withInbox hs rest) hstep
    | command bs =>
      cases hi : decode bs with
      | ok i =>
        rw [step_command_of_ok hinbox hi] at hstep
        exact exec_keeps_inv (inv_withInbox hs rest) hstep
      | error e =>
        rw [step_command_of_error hinbox hi] at hstep
        exact noInstruction_keeps_inv (inv_withInbox hs rest) hstep

/-! ## No command and no legal move stops the machine -/

theorem hostAccess_answers_next {s : State} {a : HostAccess} (hlegal : LegalMove s.cfg (.access a)) :
    ∃ t, hostAccess a s = .next t := by
  cases a with
  | writeMem addr bytes => exact ⟨_, if_pos hlegal⟩
  | readMem addr => exact ⟨_, if_pos hlegal⟩
  | readReg num => exact ⟨_, rfl⟩
  | reset => exact ⟨_, rfl⟩

/-- Bytes of legal length are an instruction, or no more is wrong with them than the opcode. -/
theorem decode_of_legalMove {cfg : Config} {bs : List Byte} (hlegal : LegalMove cfg (.command bs)) :
    (∃ i, decode bs = .ok i) ∨ ∃ op, decode bs = .error (.badOpcode op) := by
  obtain ⟨c, hparse, -⟩ := parseDescriptor_of_legalMove hlegal
  rw [decode_of_parseDescriptor hparse]
  obtain ⟨-, hbad⟩ | ⟨-, hok⟩ := decodeCommand_cases c
  · exact .inr ⟨_, hbad⟩
  · exact .inl hok

/-- Settles O4: an instruction runs to one of its effects, and a legal move is such an instruction, an unassigned
opcode or an access inside MEM. -/
theorem everyCommandAnswersNext : Obligations.EveryCommandAnswersNext := by
  intro s hs
  have hexec (u : State) (hu : Inv u) (i : Instr) : ∃ t, exec i u = .next t := by
    obtain ⟨t, hstep, -⟩ := exec_runs i u hu
    exact ⟨t, hstep⟩
  refine ⟨hexec s hs, fun hlegal => ?_⟩
  cases hinbox : s.inbox with
  | nil => exact ⟨s, step_of_idle hinbox⟩
  | cons move rest =>
    have hmove : LegalMove s.cfg move := hlegal move (by rw [hinbox]; rfl)
    cases move with
    | access a =>
      rw [step_access hinbox]
      exact hostAccess_answers_next hmove
    | command bs =>
      obtain ⟨i, hi⟩ | ⟨op, hbad⟩ := decode_of_legalMove hmove
      · rw [step_command_of_ok hinbox hi]
        exact hexec _ (inv_withInbox hs rest) i
      · rw [step_command_of_error hinbox hbad]
        exact ⟨_, rfl⟩

end Sys2Proof.Machine
end

section
/-! The two encodings (30_encoding.md): a descriptor field by field, its round trip, what the decoder ignores of
it, and byte0 of an entry. -/

namespace Sys2Proof.Machine

/-! ## Slices of a byte sequence -/

/-- A byte set outside a slice is not seen in it. -/
theorem slice_set {bs : List Byte} {j off n : Nat} (b : Byte) (h : j < off ∨ off + n ≤ j) :
    slice (bs.set j b) off n = slice bs off n := by
  apply List.ext_getElem?
  intro k
  simp only [slice, List.getElem?_take, List.getElem?_drop]
  split
  · rw [List.getElem?_set_ne (by omega)]
  · rfl

theorem getD_set_of_ne {bs : List Byte} {j k : Nat} (b d : Byte) (h : j ≠ k) : (bs.set j b).getD k d = bs.getD k d := by
  rw [List.getD_eq_getElem?_getD, List.getElem?_set_ne h, List.getD_eq_getElem?_getD]

/-! ## The descriptor (R81) -/

section
variable (c : Command)

theorem slice_descriptor_tlen : slice (descriptor c) 4 4 = leBytes 4 c.t.length := by simp [slice, descriptor]

theorem slice_descriptor_dlen : slice (descriptor c) 8 4 = leBytes 4 c.d.length := by simp [slice, descriptor]

theorem slice_descriptor_a : slice (descriptor c) 16 8 = leBytes 8 c.a.toNat := by
  simp [slice, descriptor, List.drop_append, List.drop_eq_nil_of_le]

theorem slice_descriptor_b : slice (descriptor c) 24 8 = leBytes 8 c.b.toNat := by
  simp [slice, descriptor, List.drop_append, List.drop_eq_nil_of_le]

theorem slice_descriptor_t : slice (descriptor c) 32 c.t.length = c.t := by
  simp [slice, descriptor, List.drop_append, List.drop_eq_nil_of_le]

theorem slice_descriptor_d : slice (descriptor c) (32 + c.t.length) c.d.length = c.d := by
  simp [slice, descriptor, ← List.drop_drop, List.drop_append, List.drop_eq_nil_of_le]

end

theorem leNat_leBytes_of_lt {n v : Nat} (h : v < 256 ^ n) : leNat (leBytes n v) = v := by
  rw [leNat_leBytes, Nat.mod_eq_of_lt h]

theorem ofNat_leNat_leBytes (a : Word) : BitVec.ofNat 64 (leNat (leBytes 8 a.toNat)) = a := by
  rw [leNat_leBytes_of_lt a.isLt, BitVec.ofNat_toNat, BitVec.setWidth_eq]

/-- Every field is read back from its place, the two lengths as far as 32 bits hold them. -/
theorem parseDescriptor_descriptor {c : Command} (ht : c.t.length < 2 ^ 32) (hd : c.d.length < 2 ^ 32) :
    parseDescriptor (descriptor c) = .ok c := by
  have htlen : leNat (leBytes 4 c.t.length) = c.t.length := leNat_leBytes_of_lt ht
  have hdlen : leNat (leBytes 4 c.d.length) = c.d.length := leNat_leBytes_of_lt hd
  have hlength : (descriptor c).length = 32 + c.t.length + c.d.length := Laws.EncodedLength.length_descriptor c
  rw [parseDescriptor, if_neg (by omega)]
  simp only [slice_descriptor_tlen, slice_descriptor_dlen, slice_descriptor_a, slice_descriptor_b, htlen, hdlen,
    slice_descriptor_t, slice_descriptor_d, ofNat_leNat_leBytes, hlength, if_true]
  rfl

/-! ## The command of an instruction (R80) -/

theorem toCommand_operands {i : Instr} {c : Command} (h : i.toCommand = some c) :
    c.t = i.tagOperand ∧ c.d = i.dataOperand := by
  cases i <;> cases h <;> exact ⟨rfl, rfl⟩

theorem decodeCommand_toCommand {i : Instr} {c : Command} (h : i.toCommand = some c) : decodeCommand c = .ok i := by
  cases i <;> cases h <;> rfl

theorem decode_encode_of_command {i : Instr} {c : Command} (hwf : i.wellFormed = true) (h : i.toCommand = some c) :
    decode (encode i) = .ok i := by
  obtain ⟨htag, hdata⟩ := toCommand_operands h
  simp only [Instr.wellFormed, Bool.and_eq_true, decide_eq_true_eq, ← htag, ← hdata] at hwf
  have hbytes : encode i = descriptor c := by rw [encode, h]
  rw [hbytes, decode_of_parseDescriptor (parseDescriptor_descriptor hwf.1 hwf.2), decodeCommand_toCommand h]

/-! ## byte0 of an entry (R71, R72, R77) -/

/-- The rows of the entry table: the type code decides whether there is a form, the other two fields which. -/
theorem decodeEntry_eq (b0 : Byte) :
    decodeEntry b0 = (typeOfCode (entryTypeCode b0).toNat).map fun y =>
      entryInstr (entryArray b0) y (entryInlineLength b0) := by
  rw [decodeEntry]
  generalize entryArray b0 = arr
  rcases Nat.lt_or_ge (entryTypeCode b0).toNat 10 with hassigned | hunassigned
  · obtain ⟨y, hy⟩ := exists_typeCode_of_le (Nat.le_of_lt_succ hassigned)
    rw [typeOfCode_of_eq hy, hy]
    cases arr <;> cases y <;> rfl
  · rw [typeOfCode_of_gt hunassigned]
    split
    case h_21 => rfl
    all_goals omega

theorem encode_entryInstr (arr : Bool) (y : EntryType) (il : BitVec 3) :
    encode (entryInstr arr y il) = [packByte0 arr (typeCode y) il] := by
  cases arr <;> cases y <;> rfl

/-- Every instruction that is no command is an entry form. -/
theorem exists_entryInstr {i : Instr} (h : i.toCommand = none) : ∃ arr y il, i = entryInstr arr y il := by
  cases i with
  | entryNull il => exact ⟨false, .null, il, rfl⟩
  | entryString il => exact ⟨false, .string, il, rfl⟩
  | entryBinary il => exact ⟨false, .binary, il, rfl⟩
  | entryInt8 il => exact ⟨false, .int8, il, rfl⟩
  | entryInt16 il => exact ⟨false, .int16, il, rfl⟩
  | entryInt32 il => exact ⟨false, .int32, il, rfl⟩
  | entryInt64 il => exact ⟨false, .int64, il, rfl⟩
  | entryDouble il => exact ⟨false, .double, il, rfl⟩
  | entryDatetime il => exact ⟨false, .datetime, il, rfl⟩
  | entryVarint il => exact ⟨false, .varint, il, rfl⟩
  | entryNullArr il => exact ⟨true, .null, il, rfl⟩
  | entryStringArr il => exact ⟨true, .string, il, rfl⟩
  | entryBinaryArr il => exact ⟨true, .binary, il, rfl⟩
  | entryInt8Arr il => exact ⟨true, .int8, il, rfl⟩
  | entryInt16Arr il => exact ⟨true, .int16, il, rfl⟩
  | entryInt32Arr il => exact ⟨true, .int32, il, rfl⟩
  | entryInt64Arr il => exact ⟨true, .int64, il, rfl⟩
  | entryDoubleArr il => exact ⟨true, .double, il, rfl⟩
  | entryDatetimeArr il => exact ⟨true, .datetime, il, rfl⟩
  | entryVarintArr il => exact ⟨true, .varint, il, rfl⟩
  | _ => cases h

/-- Settles O10: a command comes back field by field from its descriptor, an entry form from the three fields of its
byte0. -/
theorem decodeOfEncode : Obligations.DecodeOfEncode := by
  intro i hwf
  refine ⟨fun hcommand => ?_, fun hentry => ?_⟩
  · obtain ⟨c, hc⟩ := Option.isSome_iff_exists.mp hcommand
    exact decode_encode_of_command hwf hc
  · obtain ⟨arr, y, il, rfl⟩ := exists_entryInstr hentry
    obtain ⟨harr, hcode, hil⟩ := byte0_fields arr y il
    refine ⟨_, encode_entryInstr arr y il, ?_⟩
    rw [decodeEntry_eq, harr, hcode, hil, typeOfCode_typeCode]
    rfl

/-- The three fields of byte0 cover it. -/
theorem packByte0_fields (b0 : Byte) :
    packByte0 (entryArray b0) (entryTypeCode b0).toNat (entryInlineLength b0) = b0 := by
  revert b0
  decide

theorem toNat_entryTypeCode (b0 : Byte) : (b0 &&& 0x78).toNat = 8 * (entryTypeCode b0).toNat := by
  revert b0
  decide

theorem typeOfCode_eq_none_iff {n : Nat} : typeOfCode n = none ↔ 10 ≤ n := by
  refine ⟨fun hnone => ?_, typeOfCode_of_gt⟩
  by_contra hassigned
  obtain ⟨y, hy⟩ := exists_typeCode_of_le (show n ≤ 9 by omega)
  rw [typeOfCode_of_eq hy] at hnone
  cases hnone

/-- Settles O11: the form of an assigned type code packs the fields it was decoded from, and the codes are assigned
up to 9. -/
theorem entryByteSelectsItsForm : Obligations.EntryByteSelectsItsForm := by
  intro b0
  rw [decodeEntry_eq]
  refine ⟨fun i hi => ?_, ?_⟩
  · obtain ⟨y, hy, rfl⟩ := Option.map_eq_some_iff.mp hi
    rw [encode_entryInstr, ← typeOfCode_some hy, packByte0_fields]
  · rw [Option.map_eq_none_iff, typeOfCode_eq_none_iff, toNat_entryTypeCode]
    omega

/-- Settles O12: each word is decoded by evaluation. -/
theorem sampleWordsDecode : Obligations.SampleWordsDecode := by
  refine ⟨?_, ?_, ?_, ?_, ?_, ?_, ?_, ?_⟩ <;> decide +kernel

/-! ## What the decoder ignores (R83) -/

theorem decodeCommand_congr {c c' : Command} (h : SameUsedFields c c') : decodeCommand c = decodeCommand c' := by
  obtain ⟨hop, hty, hvs, ha, hb, ht, hd⟩ := h
  unfold decodeCommand
  rw [← hop]
  split
  case h_41 => rfl
  all_goals
    next hrow =>
      simp only [hrow] at hty hvs ha hb ht hd
      simp_all

theorem parseDescriptor_set {bs : List Byte} {j : Nat} (b : Byte) (hj : j ∈ [3, 12, 13, 14, 15]) :
    parseDescriptor (bs.set j b) = parseDescriptor bs := by
  have hplace : j = 3 ∨ 12 ≤ j ∧ j < 16 := by
    simp only [List.mem_cons, List.not_mem_nil, or_false] at hj
    omega
  have htlen : slice (bs.set j b) 4 4 = slice bs 4 4 := slice_set b (by omega)
  have hdlen : slice (bs.set j b) 8 4 = slice bs 8 4 := slice_set b (by omega)
  have ha : slice (bs.set j b) 16 8 = slice bs 16 8 := slice_set b (by omega)
  have hb : slice (bs.set j b) 24 8 = slice bs 24 8 := slice_set b (by omega)
  have hbehind (k n : Nat) : slice (bs.set j b) (32 + k) n = slice bs (32 + k) n := slice_set b (by omega)
  have hop : (bs.set j b).getD 0 0 = bs.getD 0 0 := getD_set_of_ne b 0 (by omega)
  have hty : (bs.set j b).getD 1 0 = bs.getD 1 0 := getD_set_of_ne b 0 (by omega)
  have hvs : (bs.set j b).getD 2 0 = bs.getD 2 0 := getD_set_of_ne b 0 (by omega)
  simp only [parseDescriptor, List.length_set, htlen, hdlen, ha, hb, hbehind, hbehind 0, hop, hty, hvs]

/-- Settles O9: a row of the table takes the fields it uses, and no field of a descriptor lies over an unused byte. -/
theorem unusedFieldsAreIgnored : Obligations.UnusedFieldsAreIgnored := by
  refine ⟨fun c c' h => decodeCommand_congr h, fun bs b j hj => ?_⟩
  rw [decode, decode, parseDescriptor_set b hj]

end Sys2Proof.Machine
end

section
/-! The host's own accesses (10_state.md R33, 20_memory.md R62, 70_reset_and_hazards.md R270): MEM as storage, and
the register map number by number. -/

namespace Sys2Proof.Machine

/-! ## Bytes written by the host (20_memory.md R62, R65) -/

theorem byteAt_writeBytes (s : State) (addr : Nat) (bs : List Byte) (a : Nat) :
    State.byteAt { s with mem := s.mem.writeBytes addr bs } a =
      if addr ≤ a ∧ a < addr + bs.length then bs.getD (a - addr) 0 else s.byteAt a := by
  simp only [State.byteAt, Memory.lookup_writeBytes]
  by_cases hinside : addr ≤ a ∧ a < addr + bs.length
  · rw [if_pos hinside, if_pos hinside]
  · rw [if_neg hinside, if_neg hinside]

/-- A region that reads byte by byte as `bs` does reads as `bs`. -/
theorem bytesAt_of_byteAt {s : State} {addr : Nat} {bs : List Byte}
    (h : ∀ k, (hk : k < bs.length) → s.byteAt (addr + k) = bs[k]) : s.bytesAt addr bs.length = bs := by
  refine List.ext_getElem (State.length_bytesAt ..) fun k hk hk' => Option.some.inj ?_
  rw [← List.getElem?_eq_getElem hk, State.getElem_bytesAt s addr bs.length k hk', h k hk']

theorem bytesAt_writeBytes (s : State) (addr : Nat) (bs : List Byte) :
    State.bytesAt { s with mem := s.mem.writeBytes addr bs } addr bs.length = bs := by
  refine bytesAt_of_byteAt fun k hk => ?_
  rw [byteAt_writeBytes, if_pos (by omega), Nat.add_sub_cancel_left, List.getD_eq_getElem _ 0 hk]

theorem hostAccess_writeMem {s : State} {addr : Nat} {bs : List Byte} (h : addr + bs.length ≤ s.cfg.memSize) :
    hostAccess (.writeMem addr bs) s = .next { s with mem := s.mem.writeBytes addr bs } := if_pos h

theorem hostAccess_readMem {s : State} {addr : Nat} (h : addr < s.cfg.memSize) :
    hostAccess (.readMem addr) s = .next { s with hostData := (s.byteAt addr).toNat } := if_pos h

theorem byteAt_hostReset (s : State) (a : Nat) :
    (hostReset s).byteAt a = Config.powerOnByte (hostReset s).memEpoch a := rfl

/-- Settles O6: a write is read back where it was made and nowhere else, a read leaves MEM, and a reset lists no
byte and counts its epoch up. -/
theorem hostAccessesAreStorage : Obligations.HostAccessesAreStorage := by
  refine ⟨fun s addr bytes rest hinbox hfits => ?_, fun s addr rest hinbox hinside => ?_, fun s rest hinbox => ?_⟩
  · rw [step_access hinbox, hostAccess_writeMem (s := s.withInbox rest) hfits]
    refine ⟨_, rfl, rfl, bytesAt_writeBytes (s.withInbox rest) addr bytes, fun a houtside => ?_⟩
    rw [byteAt_writeBytes, if_neg (by omega)]
    rfl
  · rw [step_access hinbox, hostAccess_readMem (s := s.withInbox rest) hinside]
    rfl
  · rw [step_reset hinbox]
    exact ⟨_, rfl, rfl, rfl, rfl, Nat.lt_succ_self _, byteAt_hostReset (s.withInbox rest)⟩

/-! ## The register map (10_state.md R33) -/

theorem hostAccess_readReg (s : State) (num : Nat) :
    hostAccess (.readReg num) s = .next { s with hostData := readRegister s num, draws := s.draws + 1 } := rfl

theorem readRegister_of_listed {s : State} {num v : Nat} (h : listedRegister s num = some v) :
    readRegister s num = v := by
  rw [readRegister, h]

/-- The two cursors, each with the number of its first register. -/
def cursorBases (s : State) : List (Nat × Cursor) := [(0x010, s.w), (0x020, s.r)]

/-- The six registers of a cursor stand in a block of 16 numbers of its own. -/
theorem readRegister_cursor {s : State} {base : Nat} {c : Cursor} (h : (base, c) ∈ cursorBases s) {k v : Nat}
    (hk : k < 16) (hv : cursorRegister s c k = some v) : readRegister s (base + k) = v := by
  refine readRegister_of_listed ?_
  simp only [cursorBases, List.mem_cons, Prod.mk.injEq, List.not_mem_nil, or_false] at h
  rcases h with ⟨rfl, rfl⟩ | ⟨rfl, rfl⟩
  · rw [listedRegister, if_neg (by omega), if_neg (by omega), if_neg (by omega), if_neg (by omega), if_neg (by omega),
      if_pos (by omega), Nat.add_sub_cancel_left, hv]
  · rw [listedRegister, if_neg (by omega), if_neg (by omega), if_neg (by omega), if_neg (by omega), if_neg (by omega),
      if_neg (by omega), if_pos (by omega), Nat.add_sub_cancel_left, hv]

/-- The registers of slot `k` stand in the block of 16 numbers from 0x100 + 16 k on. -/
theorem readRegister_view {s : State} {k j v : Nat} (hk : k < s.cfg.nview) (hj : j < 16)
    (hv : viewRegister s (s.viewAt k) j = some v) : readRegister s (0x100 + 16 * k + j) = v := by
  have hslot : (0x100 + 16 * k + j - 0x100) / 16 = k := by omega
  have hplace : (0x100 + 16 * k + j - 0x100) % 16 = j := by omega
  refine readRegister_of_listed ?_
  rw [listedRegister, if_neg (by omega), if_neg (by omega), if_neg (by omega), if_neg (by omega), if_neg (by omega),
    if_neg (by omega), if_neg (by omega), if_pos ⟨by omega, by rwa [hslot]⟩, hslot, hplace, hv]

/-- What a slot's registers read while it holds a view. -/
theorem viewRegister_of_valid {s : State} {v : View} (hv : v.valid = true) (j : Nat) :
    viewRegister s v j = match j with
      | 0 => some (1 + 2 * bit v.reuse + 4 * bit v.array + 16 * v.type.toNat)
      | 1 => some v.count.toNat
      | 2 => some v.tagOff
      | 3 => some v.tagLen
      | 4 => some v.dataOff
      | _ => none := by
  simp only [viewRegister, hv, if_true]
  rfl

/-- VALID is the lowest bit of a slot's CTL, and the only one fixed while it is 0. -/
theorem viewRegister_ctl_of_invalid {s : State} {v : View} (hv : v.valid = false) :
    ∃ n, viewRegister s v 0 = some n ∧ n % 2 = 0 := by
  simp only [viewRegister, hv]
  refine ⟨_, rfl, ?_⟩
  simp only [Bool.false_eq_true, if_false, ruinedView, bit]
  omega

section
variable {s : State} {c : Cursor}

theorem cursorRegister_start (h : c.init = true) : cursorRegister s c 0 = some c.start := by
  rw [cursorRegister, if_pos h]

theorem cursorRegister_pos (h : c.init = true) (hkind : c.errKind = 0) : cursorRegister s c 1 = some c.pos := by
  simp [cursorRegister, posRegister, Cursor.pending, h, hkind]

theorem cursorRegister_limit (h : c.init = true) : cursorRegister s c 2 = some c.limit := by
  rw [cursorRegister, if_pos h]

theorem cursorRegister_errPos (hkind : c.errKind = kindFormat) : cursorRegister s c 5 = some c.errPos := by
  rw [cursorRegister, if_pos hkind]

theorem readRegister_x0 (h : s.x0Known = true) : readRegister s 0x002 = s.x0.toNat := by
  simp [readRegister, listedRegister, h]

theorem readRegister_x1 (h : s.x1Known = true) : readRegister s 0x003 = s.x1.toNat := by
  simp [readRegister, listedRegister, h]

theorem readRegister_cv (s : State) : readRegister s 0x004 = cvRegister s := rfl

theorem cvRegister_of_valid (h : s.cvValid = true) : cvRegister s = s.cvSlot.toNat + 256 := if_pos h

theorem cvRegister_lt_of_invalid (h : s.cvValid = false) : cvRegister s < 256 := by
  rw [cvRegister, h]
  exact Nat.mod_lt _ (by decide)

end

/-- Settles O7: a read leaves the registers, and each listed number reads the field the map gives it; taking the
move out of the inbox changes no register. -/
theorem registerMap : Obligations.RegisterMap := by
  intro s num rest hinbox
  rw [step_access hinbox, hostAccess_readReg]
  refine ⟨_, rfl, rfl, ?status, ?reason, ?x0, ?x1, ?cv, ?noCv, fun base c hbase => ?cursor, fun k hk => ?view⟩
  case status => rintro rfl; rfl
  case reason => rintro rfl; rfl
  case x0 => rintro rfl hknown; exact readRegister_x0 (s := s.withInbox rest) hknown
  case x1 => rintro rfl hknown; exact readRegister_x1 (s := s.withInbox rest) hknown
  case cv => rintro rfl hvalid; exact cvRegister_of_valid (s := s.withInbox rest) hvalid
  case noCv => rintro rfl hinvalid; exact cvRegister_lt_of_invalid (s := s.withInbox rest) hinvalid
  case cursor =>
    have hregister {k v : Nat} (hk : k < 16) := readRegister_cursor (s := s.withInbox rest) (k := k) (v := v) hbase hk
    refine ⟨fun hinit => ⟨?_, ?_, ?_⟩, ?_, ?_, ?_⟩
    · rintro rfl
      exact hregister (k := 0) (by decide) (cursorRegister_start hinit)
    · rintro rfl hkind
      exact hregister (by decide) (cursorRegister_pos hinit hkind)
    · rintro rfl
      exact hregister (by decide) (cursorRegister_limit hinit)
    · rintro rfl
      exact hregister (k := 3) (by decide) rfl
    · rintro rfl
      exact hregister (k := 4) (by decide) rfl
    · rintro rfl hkind
      exact hregister (by decide) (cursorRegister_errPos hkind)
  case view =>
    have hregister {j v : Nat} (hj : j < 16) := readRegister_view (s := s.withInbox rest) (j := j) (v := v) hk hj
    refine ⟨?_, fun hvalid => ⟨?_, ?_, ?_, ?_, ?_⟩⟩
    · rintro rfl hinvalid
      obtain ⟨n, hn, heven⟩ := viewRegister_ctl_of_invalid (s := s.withInbox rest) hinvalid
      have hctl : readRegister (s.withInbox rest) (0x100 + 16 * k) = n := hregister (j := 0) (by decide) hn
      exact hctl ▸ heven
    · rintro rfl
      refine (hregister (j := 0) (by decide) (viewRegister_of_valid hvalid 0)).trans ?_
      cases (s.viewAt k).reuse <;> cases (s.viewAt k).array <;> rfl
    · rintro rfl
      exact hregister (j := 1) (by decide) (viewRegister_of_valid hvalid 1)
    · rintro rfl
      exact hregister (j := 2) (by decide) (viewRegister_of_valid hvalid 2)
    · rintro rfl
      exact hregister (j := 3) (by decide) (viewRegister_of_valid hvalid 3)
    · rintro rfl
      exact hregister (j := 4) (by decide) (viewRegister_of_valid hvalid 4)

end Sys2Proof.Machine
end

section
/-! Rules of the whole machine (60_exceptions.md, 30_encoding.md R80, 44_reader.md R192): each a case analysis over
what an instruction can do in a sane state. -/

namespace Sys2Proof.Machine

/-! ## Faults and rejections (60_exceptions.md R247, R248, 30_encoding.md R85) -/

theorem reasonCode_pos (why : Reason) : 1 ≤ (reasonCode why).toNat := by
  cases why <;> decide

/-- What the entry rule lets a command write that ends in a fault or a rejection. -/
def WritesOnlyItsEntry (i : Instr) (s t : State) : Prop :=
  (t.status = 2 → ∃ cause pos slot, 1 ≤ cause.toNat ∧ cause.toNat ≤ 6 ∧ s.r.pos ≤ pos ∧
    pos ≤ s.r.limit ∧ (ReadsEntry i → slot = some (chooseSlot s)) ∧ (¬ ReadsEntry i → slot = none) ∧
    Malformed s t cause pos slot) ∧
  (t.status = 3 → Overran s t) ∧
  (t.status = 4 ∨ t.status = 5 →
    (∃ vs a, i = .vlong vs a) ∧ ∃ x y, t = looseAnswer2 s t.status x y) ∧
  (t.status = 6 → 1 ≤ t.reason.toNat ∧ t = rejected s t.reason)

section
variable {i : Instr} {s t : State}

/-- The entry rule asks nothing of a command that completes. -/
theorem writesOnlyItsEntry_of_completed {st : Status} (hst : st = .ok ∨ st = .endOfDoc)
    (ht : t.status = statusCode st) : WritesOnlyItsEntry i s t := by
  rw [WritesOnlyItsEntry, ht]
  rcases hst with rfl | rfl <;>
  exact ⟨fun h => absurd h (by decide), fun h => absurd h (by decide), fun h => absurd h (by decide),
    fun h => absurd h (by decide)⟩

theorem writesOnlyItsEntry_reject (why : Reason) : WritesOnlyItsEntry i s (s.reject why) := by
  rw [WritesOnlyItsEntry, State.reject_status]
  exact ⟨fun h => absurd h (by decide), fun h => absurd h (by decide), fun h => absurd h (by decide),
    fun _ => ⟨reasonCode_pos why, rfl⟩⟩

theorem writesOnlyItsEntry_takeBufferTooSmall (hpos : s.w.pos ≤ s.w.limit) :
    WritesOnlyItsEntry i s (takeBufferTooSmall s) := by
  rw [WritesOnlyItsEntry, takeBufferTooSmall_status]
  exact ⟨fun h => absurd h (by decide), fun _ => takeBufferTooSmall_overran hpos, fun h => absurd h (by decide),
    fun h => absurd h (by decide)⟩

theorem writesOnlyItsEntry_takeFormat (cause : Cause) {pos : Nat} {slot : Option Nat} (hregion : s.r.start ≤ s.r.limit)
    (hfrom : s.r.pos ≤ pos) (hto : pos ≤ s.r.limit) (hentry : ReadsEntry i → slot = some (chooseSlot s))
    (hother : ¬ ReadsEntry i → slot = none) : WritesOnlyItsEntry i s (takeFormat cause pos slot s) := by
  obtain ⟨hcause, hcause'⟩ := causeCode_bounds cause
  rw [WritesOnlyItsEntry, takeFormat_status]
  exact ⟨fun _ => ⟨causeCode cause, pos, slot, hcause, hcause', hfrom, hto, hentry, hother,
    takeFormat_malformed cause pos slot hregion⟩, fun h => absurd h (by decide), fun h => absurd h (by decide),
    fun h => absurd h (by decide)⟩

theorem writesOnlyItsEntry_takeConversion (vs : Byte) (a : Word) {st : Status} (hst : st = .eConvNull ∨ st = .eConvType) :
    WritesOnlyItsEntry (.vlong vs a) s (takeConversion st s) := by
  rw [WritesOnlyItsEntry, takeConversion, State.complete_status]
  have hcodes : statusCode st ≠ 2 ∧ statusCode st ≠ 3 ∧ statusCode st ≠ 6 := by rcases hst with rfl | rfl <;> decide
  obtain ⟨hnotFormat, hnotBuffer, hnotRejected⟩ := hcodes
  exact ⟨fun h => absurd h hnotFormat, fun h => absurd h hnotBuffer, fun _ => ⟨⟨vs, a, rfl⟩, _, _, rfl⟩,
    fun h => absurd h hnotRejected⟩

end

/-- Settles O56: of all an instruction can do, three effects are faults and one is a rejection. -/
theorem faultsWriteOnlyTheirEntry : Obligations.FaultsWriteOnlyTheirEntry := by
  intro i s t hs hstep
  show WritesOnlyItsEntry i s t
  cases effect_of_exec hs hstep with
  | refused why => exact writesOnlyItsEntry_reject why
  | overran hready =>
    obtain ⟨-, hpos, -⟩ := hs.w.2.1 hready.1
    exact writesOnlyItsEntry_takeBufferTooSmall hpos
  | malformed cause pos slot hready hfrom hto hentry hother =>
    obtain ⟨hstart, hpos, -⟩ := hs.r.2.1 hready.1
    exact writesOnlyItsEntry_takeFormat cause (hstart.trans hpos) hfrom hto hentry hother
  | conversion vs a st hst => exact writesOnlyItsEntry_takeConversion vs a hst
  | atEnd => exact writesOnlyItsEntry_of_completed (.inr rfl) rfl
  | setW | rewindW | setR | rewindR | wrote | readOn | took | marked | gave | gave2 | loose | loose2 =>
    exact writesOnlyItsEntry_of_completed (.inl rfl) rfl

/-! ## The unit of a command (30_encoding.md R80) -/

/-- What a command may change, by the unit it belongs to. -/
def ChangesItsUnitOnly (i : Instr) (s t : State) : Prop :=
  (∀ a, a < s.w.pos ∨ s.w.limit ≤ a → t.byteAt a = s.byteAt a) ∧
  (unitOf i = .writer → t.r = s.r ∧ t.views = s.views ∧ t.cvValid = s.cvValid ∧ t.cvSlot = s.cvSlot) ∧
  (unitOf i = .reader → t.w = s.w ∧ t.mem = s.mem) ∧
  (unitOf i = .view →
    t.w = s.w ∧ t.r = s.r ∧ t.mem = s.mem ∧ t.cvValid = s.cvValid ∧ t.cvSlot = s.cvSlot) ∧
  (t.views ≠ s.views ∨ t.cvValid ≠ s.cvValid ∨ t.cvSlot ≠ s.cvSlot →
    ReadsEntry i ∨ ∃ vs, i = .mark vs) ∧
  t.cfg = s.cfg ∧ t.memEpoch = s.memEpoch ∧ t.inbox = s.inbox ∧ t.hostData = s.hostData

/-- The parameters, MEM's epoch and what is the host's are as they were. -/
abbrev KeepsEngine (s t : State) : Prop :=
  t.cfg = s.cfg ∧ t.memEpoch = s.memEpoch ∧ t.inbox = s.inbox ∧ t.hostData = s.hostData

/-- The slots and CV are as they were. -/
abbrev KeepsViews (s t : State) : Prop := t.views = s.views ∧ t.cvValid = s.cvValid ∧ t.cvSlot = s.cvSlot

section
variable {i : Instr} {s t : State}

theorem KeepsViews.not_changed (h : KeepsViews s t) :
    ¬ (t.views ≠ s.views ∨ t.cvValid ≠ s.cvValid ∨ t.cvSlot ≠ s.cvSlot) := by
  obtain ⟨hviews, hvalid, hslot⟩ := h
  simp [hviews, hvalid, hslot]

theorem changesItsUnitOnly_of_results (hw : t.w = s.w) (hr : t.r = s.r) (hm : t.mem = s.mem) (hviews : KeepsViews s t)
    (hkeeps : KeepsEngine s t) : ChangesItsUnitOnly i s t :=
  ⟨fun a _ => State.byteAt_congr hm hkeeps.2.1 a, fun _ => ⟨hr, hviews⟩, fun _ => ⟨hw, hm⟩,
    fun _ => ⟨hw, hr, hm, hviews.2⟩, fun hchanged => absurd hchanged hviews.not_changed, hkeeps⟩

theorem changesItsUnitOnly_of_writer (hunit : unitOf i = .writer)
    (hbytes : ∀ a, a < s.w.pos ∨ s.w.limit ≤ a → t.byteAt a = s.byteAt a) (hr : t.r = s.r) (hviews : KeepsViews s t)
    (hkeeps : KeepsEngine s t) : ChangesItsUnitOnly i s t :=
  ⟨hbytes, fun _ => ⟨hr, hviews⟩, fun h => absurd (hunit.symm.trans h) (by decide),
    fun h => absurd (hunit.symm.trans h) (by decide), fun hchanged => absurd hchanged hviews.not_changed, hkeeps⟩

theorem changesItsUnitOnly_of_reader (hunit : unitOf i = .reader) (hw : t.w = s.w) (hm : t.mem = s.mem)
    (hviews : ¬ ReadsEntry i → KeepsViews s t) (hkeeps : KeepsEngine s t) : ChangesItsUnitOnly i s t := by
  refine ⟨fun a _ => State.byteAt_congr hm hkeeps.2.1 a, fun h => absurd (hunit.symm.trans h) (by decide),
    fun _ => ⟨hw, hm⟩, fun h => absurd (hunit.symm.trans h) (by decide), fun hchanged => .inl ?_, hkeeps⟩
  by_contra hother
  exact (hviews hother).not_changed hchanged

end

/-- Settles O57: a W effect writes MEM inside the writer's region and W, an R effect writes R and, for an entry, the
slots and CV, MARK writes a slot, and the rest of the effects write results only. -/
theorem commandsChangeTheirUnitOnly : Obligations.CommandsChangeTheirUnitOnly := by
  intro i s t hs hstep
  show ChangesItsUnitOnly i s t
  cases effect_of_exec hs hstep with
  | setW | rewindW =>
    exact changesItsUnitOnly_of_writer rfl (fun _ _ => rfl) rfl ⟨rfl, rfl, rfl⟩ ⟨rfl, rfl, rfl, rfl⟩
  | wrote bs hready hfits _ hunit =>
    obtain ⟨-, -, hbytes⟩ := stored_appends s bs
    exact changesItsUnitOnly_of_writer hunit (fun a ha => hbytes a (by omega)) rfl ⟨rfl, rfl, rfl⟩ ⟨rfl, rfl, rfl, rfl⟩
  | overran hready _ hunit =>
    obtain ⟨-, hpos, -⟩ := hs.w.2.1 hready.1
    obtain ⟨-, -, -, hbytes⟩ := takeBufferTooSmall_overran hpos
    exact changesItsUnitOnly_of_writer hunit hbytes rfl ⟨rfl, rfl, rfl⟩ ⟨rfl, rfl, rfl, rfl⟩
  | setR | rewindR =>
    exact changesItsUnitOnly_of_reader rfl rfl rfl (fun _ => ⟨rfl, rfl, rfl⟩) ⟨rfl, rfl, rfl, rfl⟩
  | readOn c v _ _ _ hunit =>
    exact changesItsUnitOnly_of_reader hunit rfl rfl (fun _ => ⟨rfl, rfl, rfl⟩) ⟨rfl, rfl, rfl, rfl⟩
  | malformed cause pos slot _ _ _ _ hother hunit =>
    refine changesItsUnitOnly_of_reader hunit rfl rfl (fun hno => ?_) ⟨rfl, rfl, rfl, rfl⟩
    rw [hother hno]
    exact ⟨rfl, rfl, rfl⟩
  | took v c y _ hentry =>
    exact changesItsUnitOnly_of_reader (unitOf_readsEntry hentry) rfl rfl (fun hno => absurd hentry hno)
      ⟨rfl, rfl, rfl, rfl⟩
  | marked vs v hholds =>
    exact ⟨fun _ _ => rfl, fun h => EngineUnit.noConfusion (h : EngineUnit.view = .writer),
      fun h => EngineUnit.noConfusion (h : EngineUnit.view = .reader), fun _ => ⟨rfl, rfl, rfl, rfl, rfl⟩,
      fun _ => .inr ⟨vs, rfl⟩, rfl, rfl, rfl, rfl⟩
  | refused | atEnd | gave | gave2 | loose | loose2 | conversion =>
    exact changesItsUnitOnly_of_results rfl rfl rfl ⟨rfl, rfl, rfl⟩ ⟨rfl, rfl, rfl, rfl⟩

/-! ## The return from a fault (60_exceptions.md R249, R250) -/

/-- What may happen to INIT and to a pending record of a cursor: INIT is set by the set-up command, and the record is
cleared by the set-up and rewind commands. -/
def RestartsOnlyBy (setsUp rewinds : Prop) (c c' : Cursor) : Prop :=
  (c.init ≠ c'.init → c'.init = true ∧ setsUp) ∧
  (c.errKind ≠ 0 → c' = c ∨ (c'.errKind = 0 ∧ (rewinds ∨ setsUp)))

section
variable {setsUp rewinds : Prop} {c c' : Cursor}

theorem restartsOnlyBy_self : RestartsOnlyBy setsUp rewinds c c := ⟨fun h => absurd rfl h, fun _ => .inl rfl⟩

/-- A command that passed the tests of its cursor met no pending record. -/
theorem restartsOnlyBy_of_ready (hinit : c'.init = c.init) (hkind : c.errKind = 0) : RestartsOnlyBy setsUp rewinds c c' :=
  ⟨fun h => absurd hinit.symm h, fun h => absurd hkind h⟩

theorem restartsOnlyBy_openRegion (off len : Nat) (h : setsUp) : RestartsOnlyBy setsUp rewinds c (openRegion off len c) :=
  ⟨fun _ => ⟨rfl, h⟩, fun _ => .inr ⟨rfl, .inr h⟩⟩

theorem restartsOnlyBy_rewound (h : rewinds) : RestartsOnlyBy setsUp rewinds c (rewound c) :=
  ⟨fun hinit => absurd rfl hinit, fun _ => .inr ⟨rfl, .inl h⟩⟩

theorem restartsOnlyBy_of_moved (hmoved : Moved c c') (hkind : c.errKind = 0) : RestartsOnlyBy setsUp rewinds c c' :=
  restartsOnlyBy_of_ready (by rw [hmoved.1]) hkind

end

theorem effect_restartsOnlyBy {s t : State} {i : Instr} (h : Effect s i t) :
    RestartsOnlyBy (∃ a b, i = .winit a b) (i = .wrewind) s.w t.w ∧
    RestartsOnlyBy (∃ a b, i = .parse a b) (i = .rrewind) s.r t.r := by
  cases h with
  | setW a b => exact ⟨restartsOnlyBy_openRegion _ _ ⟨a, b, rfl⟩, restartsOnlyBy_self⟩
  | rewindW => exact ⟨restartsOnlyBy_rewound rfl, restartsOnlyBy_self⟩
  | setR a b => exact ⟨restartsOnlyBy_self, restartsOnlyBy_openRegion _ _ ⟨a, b, rfl⟩⟩
  | rewindR => exact ⟨restartsOnlyBy_self, restartsOnlyBy_rewound rfl⟩
  | wrote bs hready => exact ⟨restartsOnlyBy_of_ready rfl hready.2, restartsOnlyBy_self⟩
  | overran hready => exact ⟨restartsOnlyBy_of_ready rfl hready.2, restartsOnlyBy_self⟩
  | readOn c v hready hmoved => exact ⟨restartsOnlyBy_self, restartsOnlyBy_of_moved hmoved hready.2⟩
  | malformed cause pos slot hready => exact ⟨restartsOnlyBy_self, restartsOnlyBy_of_ready rfl hready.2⟩
  | took v c y hready _ hmoved => exact ⟨restartsOnlyBy_self, restartsOnlyBy_of_moved hmoved hready.2⟩
  | refused | atEnd | marked | gave | gave2 | loose | loose2 | conversion =>
    exact ⟨restartsOnlyBy_self, restartsOnlyBy_self⟩

/-- Settles O58: the effects other than set-up and rewind leave a cursor as it is or met no pending record of it. -/
theorem onlyRestartClearsAFault : Obligations.OnlyRestartClearsAFault := by
  intro i s t hs hstep
  obtain ⟨⟨hwInit, hwRecord⟩, hrInit, hrRecord⟩ := effect_restartsOnlyBy (effect_of_exec hs hstep)
  exact ⟨hwInit, hrInit, hwRecord, hrRecord⟩

/-! ## View identity (44_reader.md R192, R205) -/

/-- The slot a completed NEXT filled is the current one, holds a valid view and is not marked. -/
theorem holds_of_completed {s t : State} (hs : Inv s) (hstep : exec .next s = .next t) (hok : t.status = 0) :
    t.cvValid = true ∧ t.x0.toNat = t.cvSlot.toNat ∧ (t.viewAt t.cvSlot.toNat).reuse = false ∧
      Holds t t.cvSlot (t.viewAt t.cvSlot.toNat) := by
  obtain ⟨-, -, -, hnext⟩ := nextChoosesTheSlot s hs
  obtain ⟨hcv, hslot, hx0, hvalid, hreuse, -⟩ := hnext t hstep hok
  rw [hslot]
  exact ⟨hcv, hx0, hreuse, (exec_keeps_inv hs hstep).cv hcv, by rw [hslot], hvalid⟩

/-- The state after MARK of slot `k`, which holds `v`. -/
def afterMark (s : State) (k : Nat) (v : View) : State :=
  { s with views := s.views.set k { v with reuse := true }, status := 0, reason := 0 }

theorem exec_mark_of_holds {s : State} {vs : Byte} {v : View} (h : Holds s vs v) :
    exec (.mark vs) s = .next (afterMark s vs.toNat v) := by
  rw [exec_mark, viewCommand_holds h]
  rfl

theorem viewAt_afterMark {s : State} {k : Nat} (v : View) (hk : k < s.views.length) :
    (afterMark s k v).viewAt k = { v with reuse := true } :=
  (State.viewAt_set s k k _).trans (if_pos ⟨rfl, hk⟩)

/-- A marked current view makes NEXT choose its slot again. -/
theorem chooseSlot_afterMark {s : State} {v : View} (hs : Inv s) (hcv : s.cvValid = true) (h : Holds s s.cvSlot v) :
    chooseSlot (afterMark s s.cvSlot.toNat v) = s.cvSlot.toNat := by
  obtain ⟨hslot, -, hvalid⟩ := h
  have hmarked := viewAt_afterMark v (hs.slots ▸ hslot)
  refine chooseSlot_of_marked (s := afterMark s s.cvSlot.toNat v) hcv ?_ ?_
  · exact (congrArg View.valid hmarked).trans hvalid
  · exact congrArg View.reuse hmarked

/-- Settles O48: NEXT leaves its slot current and unmarked, so a NEXT after it chooses another one; after MARK it
chooses the same. -/
theorem viewIdentityFollowsTheMark : Obligations.ViewIdentityFollowsTheMark := by
  intro s t hs hstep hok
  have ht : Inv t := exec_keeps_inv hs hstep
  obtain ⟨hcv, hx0, hreuse, hholds⟩ := holds_of_completed hs hstep hok
  refine ⟨fun u hstep' hok' => ?_, _, exec_mark_of_holds hholds, fun u hstep' hok' => ?_⟩
  · obtain ⟨-, hunmarked, -, hnext⟩ := nextChoosesTheSlot t ht
    obtain ⟨-, hother⟩ := hunmarked hcv (.inr hreuse)
    obtain ⟨-, hslot', hx0', -, -, hviews⟩ := hnext u hstep' hok'
    exact ⟨fun heq => hother (by rw [← hslot', heq]), fun heq => hother (by rw [← hx0', heq, hx0]),
      hviews _ (Ne.symm hother)⟩
  · have hm := exec_keeps_inv ht (exec_mark_of_holds hholds)
    obtain ⟨-, -, -, hnext⟩ := nextChoosesTheSlot _ hm
    obtain ⟨-, hslot', hx0', -⟩ := hnext u hstep' hok'
    rw [chooseSlot_afterMark ht hcv hholds] at hslot' hx0'
    exact ⟨BitVec.eq_of_toNat_eq hslot', BitVec.eq_of_toNat_eq (hx0'.trans hx0.symm)⟩

end Sys2Proof.Machine
end

section
/-! The varints as numbers (41_varint.md R119, R120): the value of a byte sequence, what the two encoders write of it,
and that nothing shorter has that value. -/

namespace Sys2Proof.Machine

/-! ## The shape of a varint -/

theorem varintTail_singleton {b : Byte} (h : b.toNat < 128) (n : Nat) : VarintTail (n + 1) [b] :=
  ⟨List.cons_ne_nil _ _, Nat.succ_le_succ (Nat.zero_le n), fun _ hb => absurd hb List.not_mem_nil, h⟩

theorem VarintTail.cons_of {fuel : Nat} {b : Byte} {bs : List Byte} (hb : 128 ≤ b.toNat) (h : VarintTail fuel bs) :
    VarintTail (fuel + 1) (b :: bs) := by
  obtain ⟨hne, hlength, hcontinue, hlast⟩ := h
  obtain ⟨d, ds, rfl⟩ := List.exists_cons_of_ne_nil hne
  refine ⟨List.cons_ne_nil _ _, Nat.succ_le_succ hlength, fun x hx => ?_, hlast⟩
  rcases List.mem_cons.mp hx with rfl | hx
  · exact hb
  · exact hcontinue x hx

theorem getLastD_cons_cons (b d : Byte) (ds : List Byte) : (b :: d :: ds).getLastD 0 = (d :: ds).getLastD 0 := rfl

/-- One more group is one more factor of 128. -/
theorem two_pow_groups_succ (n : Nat) : 2 ^ (7 * (n + 1)) = 128 * 2 ^ (7 * n) := by
  rw [Nat.mul_succ, Nat.pow_add, Nat.mul_comm]

theorem two_pow_groups_pred {n : Nat} (hn : 1 ≤ n) : 2 ^ (7 * n) = 128 * 2 ^ (7 * (n - 1)) := by
  rw [← two_pow_groups_succ, Nat.sub_add_cancel hn]

/-! ## Unsigned values (R112, R119) -/

theorem groups_lt (bs : List Byte) : groups bs < 2 ^ (7 * bs.length) := by
  induction bs with
  | nil => exact Nat.one_pos
  | cons b bs ih =>
    have hgroup : b.toNat % 128 < 128 := Nat.mod_lt _ (by decide)
    rw [groups, List.length_cons, two_pow_groups_succ]
    omega

/-- The last group is the highest digit. -/
theorem last_mul_le_groups {bs : List Byte} (hne : bs ≠ []) :
    (bs.getLastD 0).toNat % 128 * 2 ^ (7 * (bs.length - 1)) ≤ groups bs := by
  induction bs with
  | nil => exact absurd rfl hne
  | cons b bs ih =>
    cases bs with
    | nil => simp [groups]
    | cons d ds =>
      have hrest := ih (List.cons_ne_nil d ds)
      rw [List.length_cons, Nat.add_sub_cancel] at hrest
      rw [groups, getLastD_cons_cons, List.length_cons, Nat.add_sub_cancel, List.length_cons, two_pow_groups_succ]
      calc _ = 128 * (((d :: ds).getLastD 0).toNat % 128 * 2 ^ (7 * ds.length)) := by ring
        _ ≤ 128 * groups (d :: ds) := Nat.mul_le_mul_left 128 hrest
        _ ≤ b.toNat % 128 + 128 * groups (d :: ds) := Nat.le_add_left _ _

theorem toNat_ofNat_group (v : Nat) : (BitVec.ofNat 8 (v % 128)).toNat = v % 128 := by
  rw [BitVec.toNat_ofNat]
  omega

theorem toNat_ofNat_continued (v : Nat) : (BitVec.ofNat 8 (v % 128 + 128)).toNat = v % 128 + 128 := by
  rw [BitVec.toNat_ofNat]
  omega

/-- The three things the loop of R110 gives a value that fits its turns. -/
theorem ulebGroups_spec {n v : Nat} (hv : v < 2 ^ (7 * n + 7)) :
    VarintTail (n + 1) (ulebGroups (n + 1) v) ∧ groups (ulebGroups (n + 1) v) = v ∧
      ((ulebGroups (n + 1) v).length = 1 ∨ 2 ^ (7 * ((ulebGroups (n + 1) v).length - 1)) ≤ v) := by
  induction n generalizing v with
  | zero =>
    have hstop : v / 128 = 0 := by omega
    rw [ulebGroups_turn, if_pos hstop]
    refine ⟨varintTail_singleton (by rw [toNat_ofNat_group]; omega) 0, ?_, .inl rfl⟩
    simp only [groups, toNat_ofNat_group]
    omega
  | succ n ih =>
    rw [ulebGroups_turn]
    by_cases hstop : v / 128 = 0
    · rw [if_pos hstop]
      refine ⟨varintTail_singleton (by rw [toNat_ofNat_group]; omega) _, ?_, .inl rfl⟩
      simp only [groups, toNat_ofNat_group]
      omega
    · have hquotient : v / 128 < 2 ^ (7 * n + 7) := by
        rw [show 7 * (n + 1) + 7 = (7 * n + 7) + 7 by ring, Nat.pow_add] at hv
        omega
      obtain ⟨hshape, hvalue, hleast⟩ := ih hquotient
      rw [if_neg hstop]
      refine ⟨.cons_of (by rw [toNat_ofNat_continued]; omega) hshape, ?_, .inr ?_⟩
      · simp only [groups, toNat_ofNat_continued, hvalue]
        omega
      · have hlength := length_ulebGroups_pos n (v / 128)
        rw [List.length_cons, Nat.add_sub_cancel]
        rcases hleast with hone | hleast
        · rw [hone]
          omega
        · rw [two_pow_groups_pred hlength]
          omega

/-- The last byte of a value of 64 bits is at most 1 where it is the tenth (R114). -/
theorem last_le_one {bs : List Byte} (hshape : VarintShape bs) (hlength : bs.length = 10) (hv : groups bs < 2 ^ 64) :
    (bs.getLastD 0).toNat ≤ 1 := by
  obtain ⟨hne, -, -, hlast⟩ := hshape
  have htop := last_mul_le_groups hne
  rw [hlength, Nat.mod_eq_of_lt hlast] at htop
  omega

theorem isUnsigned_uleb {v : Nat} (hv : v < 2 ^ 64) : IsUnsigned (uleb v) v := by
  obtain ⟨hshape, hvalue, -⟩ := ulebGroups_spec (n := 9) (v := v) (by omega)
  exact ⟨hshape, fun hlength => last_le_one hshape hlength (hvalue.trans_lt hv), hvalue.symm⟩

/-- A value is below the power of its varint's length, and a value the loop gave more than one turn is not below the
power of one turn fewer: so no varint of it is shorter. -/
theorem length_uleb_le {v : Nat} (hv : v < 2 ^ 64) {bs : List Byte} (hbs : IsUnsigned bs v) :
    (uleb v).length ≤ bs.length := by
  obtain ⟨-, -, hleast⟩ := ulebGroups_spec (n := 9) (v := v) (by omega)
  have hone : 1 ≤ bs.length := hbs.pos
  have hbelow : v < 2 ^ (7 * bs.length) := hbs.2.2 ▸ groups_lt bs
  rcases hleast with hlength | hleast
  · exact hlength.trans_le hone
  · have hpowers := (Nat.pow_lt_pow_iff_right (by decide : 1 < 2)).mp (hleast.trans_lt hbelow)
    have hdef : (ulebGroups (9 + 1) v).length = (uleb v).length := rfl
    omega

/-- Settles O18: the loop writes a varint of its value, with one group more only where one fewer does not hold it. -/
theorem ulebIsShortest : Obligations.UlebIsShortest := by
  intro v hv
  have hvarint := isUnsigned_uleb hv
  obtain ⟨-, -, hleast⟩ := ulebGroups_spec (n := 9) (v := v) (by omega)
  exact ⟨hvarint, hvarint.2.2.trans_lt (groups_lt _), hleast, fun bs hbs => length_uleb_le hv hbs⟩

/-! ## Signed values (R113, R119) -/

/-- The two's-complement reading of the groups: the sign is bit 6 of the last byte. -/
def signedGroups (bs : List Byte) : Int :=
  (groups bs : Int) - (if 64 ≤ (bs.getLastD 0).toNat then 2 ^ (7 * bs.length) else 0)

theorem signedGroups_singleton (b : Byte) :
    signedGroups [b] = ((b.toNat % 128 : Nat) : Int) - (if 64 ≤ b.toNat then 128 else 0) := by
  simp [signedGroups, groups]

theorem signedGroups_cons (b : Byte) {bs : List Byte} (hne : bs ≠ []) :
    signedGroups (b :: bs) = ((b.toNat % 128 : Nat) : Int) + 128 * signedGroups bs := by
  obtain ⟨d, ds, rfl⟩ := List.exists_cons_of_ne_nil hne
  have hpower : (2 : Int) ^ (7 * (b :: d :: ds).length) = 128 * 2 ^ (7 * (d :: ds).length) := by
    rw [List.length_cons]
    exact_mod_cast two_pow_groups_succ _
  rw [signedGroups, signedGroups, groups, getLastD_cons_cons, hpower]
  split <;> push_cast <;> ring

/-- The highest digit of a signed varint: its last group with the sign. -/
def signedDigit (b : Byte) : Int := (b.toNat : Int) - (if 64 ≤ b.toNat then 128 else 0)

/-- The highest digit and those below it, which are not negative. -/
theorem signedGroups_bounds {bs : List Byte} (hne : bs ≠ []) (hlast : (bs.getLastD 0).toNat < 128) :
    signedDigit (bs.getLastD 0) * 2 ^ (7 * (bs.length - 1)) ≤ signedGroups bs ∧
      signedGroups bs < (signedDigit (bs.getLastD 0) + 1) * 2 ^ (7 * (bs.length - 1)) := by
  induction bs with
  | nil => exact absurd rfl hne
  | cons b bs ih =>
    cases bs with
    | nil =>
      have hgroup : b.toNat % 128 = b.toNat := Nat.mod_eq_of_lt hlast
      simp [signedGroups_singleton, hgroup, signedDigit]
    | cons d ds =>
      obtain ⟨hlow, hhigh⟩ := ih (List.cons_ne_nil d ds) hlast
      have hpower : (2 : Int) ^ (7 * (ds.length + 1)) = 128 * 2 ^ (7 * ds.length) := by
        exact_mod_cast two_pow_groups_succ _
      have hgroup : b.toNat % 128 < 128 := Nat.mod_lt _ (by decide)
      rw [List.length_cons, Nat.add_sub_cancel] at hlow hhigh
      rw [getLastD_cons_cons, signedGroups_cons b (List.cons_ne_nil d ds), List.length_cons, Nat.add_sub_cancel, List.length_cons, hpower,
        mul_left_comm, mul_left_comm (_ + 1 : Int)]
      omega

theorem signedDigit_bounds {b : Byte} (h : b.toNat < 128) : -64 ≤ signedDigit b ∧ signedDigit b < 64 := by
  rw [signedDigit]
  split <;> omega

/-- Half of the power of a varint's length, as the last digit counts it. -/
theorem two_pow_half {n : Nat} (hn : 1 ≤ n) : (2 : Int) ^ (7 * n - 1) = 64 * 2 ^ (7 * (n - 1)) := by
  rw [show 7 * n - 1 = 6 + 7 * (n - 1) by omega, pow_add]
  norm_num

theorem signedGroups_range {bs : List Byte} (hne : bs ≠ []) (hlast : (bs.getLastD 0).toNat < 128) :
    -2 ^ (7 * bs.length - 1) ≤ signedGroups bs ∧ signedGroups bs < 2 ^ (7 * bs.length - 1) := by
  obtain ⟨hlow, hhigh⟩ := signedGroups_bounds hne hlast
  obtain ⟨hdigit, hdigit'⟩ := signedDigit_bounds hlast
  have hpower : (0 : Int) < 2 ^ (7 * (bs.length - 1)) := by positivity
  rw [two_pow_half (List.length_pos_iff.mpr hne)]
  constructor
  · nlinarith
  · nlinarith

theorem toNat_ofInt_group (v : Int) : (BitVec.ofInt 8 (v % 128)).toNat = (v % 128).toNat := by
  rw [BitVec.toNat_ofInt]
  omega

theorem toNat_ofInt_continued (v : Int) : (BitVec.ofInt 8 (v % 128 + 128)).toNat = (v % 128).toNat + 128 := by
  rw [BitVec.toNat_ofInt]
  omega

/-- A value the loop of R111 stops at is the one group it writes, read with its sign. -/
theorem signedGroups_of_stop {v : Int} (h : (v / 128 = 0 ∧ v % 128 < 64) ∨ (v / 128 = -1 ∧ 64 ≤ v % 128)) (n : Nat) :
    VarintTail (n + 1) [BitVec.ofInt 8 (v % 128)] ∧ signedGroups [BitVec.ofInt 8 (v % 128)] = v := by
  refine ⟨varintTail_singleton (by rw [toNat_ofInt_group]; omega) n, ?_⟩
  rw [signedGroups_singleton, toNat_ofInt_group]
  split <;> omega

/-- The three things the loop of R111 gives a value that fits its turns with its sign. -/
theorem slebGroups_spec {n : Nat} {v : Int} (hlow : -2 ^ (7 * n + 6) ≤ v) (hhigh : v < 2 ^ (7 * n + 6)) :
    VarintTail (n + 1) (slebGroups (n + 1) v) ∧ signedGroups (slebGroups (n + 1) v) = v ∧
      ((slebGroups (n + 1) v).length = 1 ∨ v < -2 ^ (7 * ((slebGroups (n + 1) v).length - 1) - 1) ∨
        2 ^ (7 * ((slebGroups (n + 1) v).length - 1) - 1) ≤ v) := by
  induction n generalizing v with
  | zero =>
    have hstop : (v / 128 = 0 ∧ v % 128 < 64) ∨ (v / 128 = -1 ∧ 64 ≤ v % 128) := by omega
    obtain ⟨hshape, hvalue⟩ := signedGroups_of_stop hstop 0
    rw [slebGroups_turn, if_pos hstop]
    exact ⟨hshape, hvalue, .inl rfl⟩
  | succ n ih =>
    rw [slebGroups_turn]
    by_cases hstop : (v / 128 = 0 ∧ v % 128 < 64) ∨ (v / 128 = -1 ∧ 64 ≤ v % 128)
    · obtain ⟨hshape, hvalue⟩ := signedGroups_of_stop hstop (n + 1)
      rw [if_pos hstop]
      exact ⟨hshape, hvalue, .inl rfl⟩
    · have hpower : (2 : Int) ^ (7 * (n + 1) + 6) = 128 * 2 ^ (7 * n + 6) := by ring
      obtain ⟨hshape, hvalue, hleast⟩ := ih (v := v / 128) (by omega) (by omega)
      rw [if_neg hstop]
      refine ⟨.cons_of (by rw [toNat_ofInt_continued]; omega) hshape, ?_, .inr ?_⟩
      · rw [signedGroups_cons _ hshape.1, hvalue, toNat_ofInt_continued]
        omega
      · have hlength := length_slebGroups_pos n (v / 128)
        rw [List.length_cons, Nat.add_sub_cancel, two_pow_half hlength]
        rcases Nat.eq_or_lt_of_le hlength with hone | htwo
        · rw [← hone]
          omega
        · have hhalf := two_pow_half (n := (slebGroups (n + 1) (v / 128)).length - 1) (by omega)
          have hstep : (2 : Int) ^ (7 * ((slebGroups (n + 1) (v / 128)).length - 1)) =
              128 * 2 ^ (7 * ((slebGroups (n + 1) (v / 128)).length - 1 - 1)) := by
            exact_mod_cast two_pow_groups_pred (n := (slebGroups (n + 1) (v / 128)).length - 1) (by omega)
          omega

/-- The last byte of a value of 64 bits is 0x00 or 0x7F where it is the tenth (R114). -/
theorem last_of_signedGroups {bs : List Byte} (hshape : VarintShape bs) (hlength : bs.length = 10)
    (hlow : -2 ^ 63 ≤ signedGroups bs) (hhigh : signedGroups bs < 2 ^ 63) :
    bs.getLastD 0 = 0x00 ∨ bs.getLastD 0 = 0x7F := by
  obtain ⟨hne, -, -, hlast⟩ := hshape
  obtain ⟨hfrom, hto⟩ := signedGroups_bounds hne hlast
  rw [hlength, signedDigit] at hfrom hto
  have hdigit : (bs.getLastD 0).toNat = 0 ∨ (bs.getLastD 0).toNat = 127 := by
    split at hfrom <;> omega
  exact hdigit.imp (fun h => BitVec.eq_of_toNat_eq h) fun h => BitVec.eq_of_toNat_eq h

theorem isSigned_sleb {v : Int} (hlow : -2 ^ 63 ≤ v) (hhigh : v < 2 ^ 63) : IsSigned (sleb v) v := by
  obtain ⟨hshape, hvalue, -⟩ := slebGroups_spec (n := 9) (v := v) (by omega) (by omega)
  exact ⟨hshape, fun hlength => last_of_signedGroups hshape hlength (hlow.trans hvalue.ge) (hvalue.trans_lt hhigh),
    hvalue.symm⟩

theorem IsSigned.range {bs : List Byte} {v : Int} (h : IsSigned bs v) :
    -2 ^ (7 * bs.length - 1) ≤ v ∧ v < 2 ^ (7 * bs.length - 1) := by
  obtain ⟨⟨hne, -, -, hlast⟩, -, hvalue⟩ := h
  exact hvalue ▸ signedGroups_range hne hlast

/-- A value the loop gave more than one turn is outside the range of one turn fewer, which holds every varint that is
shorter. -/
theorem length_sleb_le {v : Int} (hlow : -2 ^ 63 ≤ v) (hhigh : v < 2 ^ 63) {bs : List Byte} (hbs : IsSigned bs v) :
    (sleb v).length ≤ bs.length := by
  obtain ⟨-, -, hleast⟩ := slebGroups_spec (n := 9) (v := v) (by omega) (by omega)
  have hone : 1 ≤ bs.length := hbs.pos
  obtain ⟨hfrom, hto⟩ := hbs.range
  rcases hleast with hlength | hleast
  · exact hlength.trans_le hone
  · by_contra hshorter
    have hexponent : 7 * bs.length - 1 ≤ 7 * ((slebGroups (9 + 1) v).length - 1) - 1 := by
      have hdef : (slebGroups (9 + 1) v).length = (sleb v).length := rfl
      omega
    have hpowers : (2 : Int) ^ (7 * bs.length - 1) ≤ 2 ^ (7 * ((slebGroups (9 + 1) v).length - 1) - 1) :=
      pow_le_pow_right₀ (by decide) hexponent
    omega

/-- Settles O19: the loop writes a varint of its value, with one group more only where one fewer does not hold it with
its sign. -/
theorem slebIsShortest : Obligations.SlebIsShortest := by
  intro v hlow hhigh
  have hvarint := isSigned_sleb hlow hhigh
  obtain ⟨-, -, hleast⟩ := slebGroups_spec (n := 9) (v := v) (by omega) (by omega)
  exact ⟨hvarint, hvarint.range, hleast, fun bs hbs => length_sleb_le hlow hhigh hbs⟩

end Sys2Proof.Machine
end

section
/-! Round trips of one value (41_varint.md R120, 42_fixed.md R144): what one command wrote at the start of a region,
another reads back there. -/

namespace Sys2Proof.Machine

/-- The state after WINIT over `len` bytes from `off` on. -/
def writerOpened (s : State) (off len : Nat) : State := { s with w := setUp s.w off len, status := 0, reason := 0 }

/-- The state after PARSE over `len` bytes from `off` on. -/
def readerOpened (s : State) (off len : Nat) : State := { s with r := setUp s.r off len, status := 0, reason := 0 }

theorem exec_winit_of_fits {s : State} {off len : Word} (h : off.toNat + len.toNat ≤ s.cfg.memSize) :
    exec (.winit off len) s = .next (writerOpened s off.toNat len.toNat) := by
  rw [exec_winit, if_neg (Nat.not_lt.mpr h), writerOpened]

theorem exec_parse_of_fits {s : State} {off len : Word} (h : off.toNat + len.toNat ≤ s.cfg.memSize) :
    exec (.parse off len) s = .next (readerOpened s off.toNat len.toNat) := by
  rw [exec_parse, if_neg (Nat.not_lt.mpr h), readerOpened]

/-- What the host reads is not changed by the set-up of a reader. -/
theorem bytesAt_readerOpened (s : State) (off len a n : Nat) : (readerOpened s off len).bytesAt a n = s.bytesAt a n :=
  State.bytesAt_congr fun _ _ _ => rfl

theorem execAll_cons_of_next {s t : State} {i : Instr} (h : exec i s = .next t) (is : List Instr) :
    execAll (i :: is) s = execAll is t := by
  rw [execAll, h]

/-- The state after a writing command that appended `bs`. -/
def appended (s : State) (bs : List Byte) : State := (stored s bs).complete .ok

theorem bytesAt_appended (s : State) (bs : List Byte) : (appended s bs).bytesAt s.w.pos bs.length = bs := by
  obtain ⟨-, hbytes, -⟩ := stored_appends s bs
  exact hbytes

theorem writerData_wrbytes_of_fits {s : State} {bs : List Byte} (hready : WriterReady s)
    (hlimit : s.w.limit ≤ s.cfg.memSize) (hfits : s.w.pos + bs.length ≤ s.w.limit) :
    writerData s (.ok (wrbytes s bs)) = .next (appended s bs) := by
  obtain ⟨-, hstore⟩ | ⟨hshort, -⟩ := wrbytes_cases bs hlimit
  · rw [writerData_ready hready, hstore]
    rfl
  · omega

/-- The reader set up over the region finds the bytes where the writer put them. -/
theorem writeThenRead {s : State} {off len v : Word} {put get : Instr} {bs : List Byte}
    (hregion : off.toNat + len.toNat ≤ s.cfg.memSize) (hfits : bs.length ≤ len.toNat)
    (hput : ∀ u, exec put u = writerData u (.ok (wrbytes u bs)))
    (hget : ∀ u, ReaderPlaced u → ReaderReady u → ReadsAt u u.r.pos bs → exec get u = .next (delivered u v bs.length)) :
    ∃ t, execAll [.winit off len, put, .parse off len, get] s = some t ∧
      t.x0 = v ∧ t.status = 0 ∧ t.r.pos = off.toNat + bs.length ∧ t.w.pos = off.toNat + bs.length := by
  have hroom : off.toNat + bs.length ≤ off.toNat + len.toNat := by omega
  have hopened : exec (.winit off len) s = .next (writerOpened s off.toNat len.toNat) := exec_winit_of_fits hregion
  have hwritten := (hput _).trans
    (writerData_wrbytes_of_fits (s := writerOpened s off.toNat len.toNat) ⟨rfl, rfl⟩ hregion hroom)
  have hparsed := exec_parse_of_fits (s := appended (writerOpened s off.toNat len.toNat) bs) hregion
  have hbytes := bytesAt_appended (writerOpened s off.toNat len.toNat) bs
  have hdelivered := hget (readerOpened (appended (writerOpened s off.toNat len.toNat) bs) off.toNat len.toNat)
    ⟨Nat.le_refl _, Nat.le_add_right _ _, hregion⟩ ⟨rfl, rfl⟩ ⟨hroom, (bytesAt_readerOpened ..).trans hbytes⟩
  have hrun := (execAll_cons_of_next hopened _).trans <| (execAll_cons_of_next hwritten _).trans <|
    (execAll_cons_of_next hparsed _).trans <| execAll_cons_of_next hdelivered []
  exact ⟨_, hrun, rfl, rfl, rfl, rfl⟩

/-- Settles O24: both encoders write a varint of the operand, which both decoders accept. -/
theorem varintRoundTrip : Obligations.VarintRoundTrip := by
  intro s off len a hregion
  refine ⟨fun hfits => ?_, fun hfits => ?_⟩
  · obtain ⟨-, hvgetu⟩ := vgetuReadsUnsigned
    obtain ⟨t, hrun, hx0, hok, hr, hw⟩ := writeThenRead (v := BitVec.ofNat 64 a.toNat) hregion hfits (exec_vputu a)
      fun u hplaced hready hreads => ((hvgetu u hplaced).2 hready).1 _ _ (isUnsigned_uleb a.isLt) hreads
    exact ⟨t, hrun, by rw [hx0, BitVec.ofNat_toNat, BitVec.setWidth_eq], hok, hr.trans hw.symm⟩
  · obtain ⟨-, hvgets⟩ := vgetsReadsSigned
    have hvarint : IsSigned (sleb a.toInt) a.toInt := isSigned_sleb (BitVec.le_toInt a) BitVec.toInt_lt
    obtain ⟨t, hrun, hx0, hok, hr, hw⟩ := writeThenRead (v := BitVec.ofInt 64 a.toInt) hregion hfits (exec_vputs a)
      fun u hplaced hready hreads => ((hvgets u hplaced).2 hready).1 _ _ hvarint hreads
    exact ⟨t, hrun, by rw [hx0, BitVec.ofInt_toInt], hok, hr.trans hw.symm⟩

/-! ## The fixed-width fields (42_fixed.md R144) -/

@[simp] theorem length_operandBytes (n : Nat) (a : Word) : (operandBytes n a).length = n := by simp [operandBytes]

theorem leNat_operandBytes (n : Nat) (a : Word) : leNat (operandBytes n a) = a.toNat % 2 ^ (8 * n) := by
  rw [← leBytes_lowBytes, leNat_leBytes, lowBytes, Nat.pow_mul]
  exact Nat.mod_mod _ _

/-- The low bytes of an operand, read as a signed pattern, are its low bits sign-extended. -/
theorem ofInt_signedReading_operandBytes {n : Nat} (hn : 1 ≤ n) (a : Word) :
    BitVec.ofInt 64 (signedReading n (leNat (operandBytes n a))) = (a.setWidth (8 * n)).signExtend 64 := by
  rw [leNat_operandBytes, ← signed_eq_ofInt_signedReading hn (Nat.mod_lt _ (Nat.two_pow_pos _)), signed,
    ← BitVec.toNat_setWidth, BitVec.ofNat_toNat, BitVec.setWidth_eq]

theorem fixedRoundTrip_of_mem {s : State} {off len a : Word} {put get : Instr} {n : Nat}
    (hput : (put, n) ∈ putCommands a) (hget : (get, n) ∈ getCommands) (hregion : off.toNat + len.toNat ≤ s.cfg.memSize)
    (hfits : n ≤ len.toNat) :
    ∃ t, execAll [.winit off len, put, .parse off len, get] s = some t ∧
      t.x0 = (a.setWidth (8 * n)).signExtend 64 ∧ t.status = 0 ∧ t.r.pos = off.toNat + n := by
  obtain ⟨-, -, -, -, -, hreads⟩ := getDeliversSignExtended
  obtain ⟨t, hrun, hx0, hok, hr, -⟩ := writeThenRead (bs := operandBytes n a)
    (v := BitVec.ofInt 64 (signedReading n (leNat (operandBytes n a)))) hregion (by rwa [length_operandBytes])
    (exec_of_mem_putCommands hput) fun u hplaced hready hbytes => by
      rw [length_operandBytes]
      exact ((hreads u hplaced _ hget).2 hready).1 _ (length_operandBytes n a) hbytes
  rw [length_operandBytes] at hr
  exact ⟨t, hrun, hx0.trans (ofInt_signedReading_operandBytes (width_pos_of_mem_getCommands hget) a), hok, hr⟩

/-- Settles O27: the five pairs of commands of one width; 64 bits are all of the operand. -/
theorem fixedRoundTrip : Obligations.FixedRoundTrip := by
  intro s off len a hregion p hp hfits
  have hwhole : (a.setWidth (8 * 8)).signExtend 64 = a := by rw [BitVec.setWidth_eq, BitVec.signExtend_eq]
  simp only [List.mem_cons, List.not_mem_nil, or_false] at hp
  have hmem {put get : Instr} {n : Nat} (hput : (put, n) ∈ putCommands a) (hget : (get, n) ∈ getCommands)
      (hfits : n ≤ len.toNat) := fixedRoundTrip_of_mem hput hget hregion hfits
  rcases hp with rfl | rfl | rfl | rfl | rfl
  · exact hmem (put := .put8 a) (get := .get8) (n := 1) (by simp [putCommands]) (by decide) hfits
  · exact hmem (put := .put16 a) (get := .get16) (n := 2) (by simp [putCommands]) (by decide) hfits
  · exact hmem (put := .put32 a) (get := .get32) (n := 4) (by simp [putCommands]) (by decide) hfits
  · have htrip := hmem (put := .put64 a) (get := .get64) (n := 8) (by simp [putCommands]) (by decide) hfits
    rwa [hwhole] at htrip
  · have htrip := hmem (put := .putd a) (get := .getd) (n := 8) (by simp [putCommands]) (by decide) hfits
    rwa [hwhole] at htrip

end Sys2Proof.Machine
end

section
/-! NEXT and the entry forms (44_reader.md section 1): what they share, the entries they take, and where and why a
malformed entry raises. -/

namespace Sys2Proof.Machine

/-! ## The step of the reader (R191, R193) -/

/-- All that the step does with MEM is to fetch the byte at R.POS. -/
theorem readerStep_congr {s : State} {k k' : Byte → Result} (h : k (s.byteAt s.r.pos) = k' (s.byteAt s.r.pos)) :
    readerStep s k = readerStep s k' := by
  rw [readerStep, readerStep, h]

theorem exec_next (s : State) :
    exec .next s = readerStep s fun b0 =>
      takeEntry s (entryArray b0) (typeOfCode (entryTypeCode b0).toNat) (entryInlineLength b0) := rfl

/-- NEXT and the entry forms differ in what they make of byte0 alone. -/
theorem exec_readsEntry {i : Instr} (h : ReadsEntry i) :
    ∃ (arr : Byte → Bool) (ty : Byte → Option EntryType) (il : Byte → BitVec 3), ∀ s : State,
      exec i s = readerStep s fun b0 => takeEntry s (arr b0) (ty b0) (il b0) := by
  rcases h with rfl | ⟨arr, ty, il, rfl⟩
  · exact ⟨_, _, _, exec_next⟩
  · exact ⟨fun _ => arr, fun _ => some ty, fun _ => il, fun s => exec_entryInstr s arr ty il⟩

theorem readerStep_of_end {s : State} (k : Byte → Result) (hready : ReaderReady s) (hend : s.r.limit ≤ s.r.pos) :
    readerStep s k = .next (s.complete .endOfDoc) := by
  rw [readerStep, readerReady_ready hready, if_pos hend]

theorem readerStep_of_inside {s : State} (k : Byte → Result) (hready : ReaderReady s) (hinside : s.r.pos < s.r.limit)
    (hmem : s.r.limit ≤ s.cfg.memSize) : readerStep s k = k (s.byteAt s.r.pos) := by
  rw [readerStep, readerReady_ready hready, if_neg (Nat.not_le.mpr hinside), if_pos (hinside.trans_le hmem)]

/-- Settles O39: the tests and the end of the document come before the fetch, so they are the same for NEXT and for
every entry form. -/
theorem nextGivesEndAtTheEnd : Obligations.NextGivesEndAtTheEnd := by
  refine ⟨encodes_of_row fun _ => rfl, fun s i hentry => ?_⟩
  obtain ⟨arr, ty, il, hexec⟩ := exec_readsEntry hentry
  rw [hexec]
  exact ⟨readerRefuses_readerReady s _, readerStep_of_end _⟩

/-- Settles O41: NEXT takes byte0 apart as the decoder of entry forms does. -/
theorem nextRunsTheFetchedEntry : Obligations.NextRunsTheFetchedEntry := by
  intro s i _ _ hform
  rw [decodeEntry_eq] at hform
  obtain ⟨y, hy, rfl⟩ := Option.map_eq_some_iff.mp hform
  rw [exec_next, exec_entryInstr, entryAtR]
  exact readerStep_congr (by rw [hy])

/-! ## Payloads that are read (R197 to R200) -/

/-- The types whose elements have no table: nothing, or a field of a fixed width. -/
def tablelessTypes : List EntryType := [.null, .int8, .int16, .int32, .int64, .double, .datetime]

theorem readPayload_of_tableless {s : State} {y : EntryType} (hy : y ∈ tablelessTypes) {cnt : Nat} {c : Cursor}
    (hfits : c.pos + cnt * typeWidth y ≤ c.limit) :
    readPayload s y cnt c = .ok ([], { c with pos := c.pos + cnt * typeWidth y }) := by
  obtain ⟨-, hskip⟩ | ⟨hshort, -⟩ := skip_cases c (cnt * typeWidth y) .truncFixed
  · cases y with
    | null => rfl
    | string | binary | varint => exact absurd hy (by decide)
    | int8 | int16 | int32 | int64 | double | datetime => simp only [readPayload, hskip]
  · omega

/-- Settles O42: after a well-formed head a payload that fits in the region is skipped. -/
theorem nextTakesNullAndFixedEntries : Obligations.NextTakesNullAndFixedEntries := by
  intro s i arr ty il lb tag cb cnt hform hready hplaced hty hhead hbytes hfits
  exact take_ok hform hready hplaced hhead hbytes (readPayload_of_tableless hty hfits)

/-- A list of parts of at least one byte each has at most as many parts as bytes. -/
theorem length_le_length_flatMap {α : Type} {els : List α} {f : α → List Byte} (h : ∀ e ∈ els, 1 ≤ (f e).length) :
    els.length ≤ (els.flatMap f).length := by
  induction els with
  | nil => exact Nat.zero_le _
  | cons e els ih =>
    have hhead := h e List.mem_cons_self
    have htail := ih fun x hx => h x (List.mem_cons_of_mem _ hx)
    rw [List.flatMap_cons, List.length_append, List.length_cons]
    omega

theorem length_le_length_spans {els : List (List Byte × List Byte)} (h : ∀ e ∈ els, IsUnsigned e.1 e.2.length) :
    els.length ≤ (els.flatMap fun e => e.1 ++ e.2).length :=
  length_le_length_flatMap fun e he => by
    have hlength := (h e he).pos
    rw [List.length_append]
    omega

theorem length_le_length_vals {els : List (List Byte × Int)} (h : ∀ e ∈ els, IsSigned e.1 e.2) :
    els.length ≤ (els.flatMap fun e => e.1).length :=
  length_le_length_flatMap fun e he => (h e he).pos

theorem readSpans_none (s : State) (fuel : Nat) (c : Cursor) : readSpans s (fuel + 1) 0 c = .ok ([], c) := rfl

theorem readVals_none (s : State) (fuel : Nat) (c : Cursor) : readVals s (fuel + 1) 0 c = .ok ([], c) := rfl

theorem readPayload_of_spanType {y : EntryType} (hy : y ∈ [EntryType.string, .binary]) (s : State) (cnt : Nat) (c : Cursor) :
    readPayload s y cnt c = readSpans s (loopBound c) cnt c := by
  simp only [List.mem_cons, List.not_mem_nil, or_false] at hy
  rcases hy with rfl | rfl <;> rfl

theorem lt_loopBound (c : Cursor) : c.limit - c.pos < loopBound c := Nat.lt_succ_self _

/-- A pass of the loop is left after as many elements as there are bytes. -/
theorem loopBound_sub {c : Cursor} {k : Nat} (h : c.pos + k ≤ c.limit) :
    loopBound c - k = c.limit - c.pos - k + 1 := by
  rw [loopBound]
  omega

/-- The elements of a String or Binary entry, of which the bound of the loop cuts none off (R203). -/
theorem readPayload_of_spans {s : State} {y : EntryType} (hy : y ∈ [EntryType.string, .binary])
    {els : List (List Byte × List Byte)} {c : Cursor} (hmem : c.limit ≤ s.cfg.memSize)
    (hels : ∀ e ∈ els, IsUnsigned e.1 e.2.length)
    (hinside : c.pos + (els.flatMap fun e => e.1 ++ e.2).length ≤ c.limit)
    (hbytes : s.bytesAt c.pos (els.flatMap fun e => e.1 ++ e.2).length = els.flatMap fun e => e.1 ++ e.2) :
    readPayload s y els.length c =
      .ok (spansFrom c.pos els, { c with pos := c.pos + (els.flatMap fun e => e.1 ++ e.2).length }) := by
  have hcount := length_le_length_spans hels
  rw [readPayload_of_spanType hy]
  refine (readSpans_ok els _ c 0 hmem hels hinside hbytes (lt_loopBound c)).trans ?_
  simp only [loopBound_sub (c := c) (k := els.length) (by omega), readSpans_none, List.append_nil]

theorem readPayload_of_vals {s : State} {els : List (List Byte × Int)} {c : Cursor} (hmem : c.limit ≤ s.cfg.memSize)
    (hels : ∀ e ∈ els, IsSigned e.1 e.2) (hinside : c.pos + (els.flatMap fun e => e.1).length ≤ c.limit)
    (hbytes : s.bytesAt c.pos (els.flatMap fun e => e.1).length = els.flatMap fun e => e.1) :
    readPayload s .varint els.length c =
      .ok (els.map fun e => .val (BitVec.ofInt 64 e.2), { c with pos := c.pos + (els.flatMap fun e => e.1).length }) := by
  have hcount := length_le_length_vals hels
  refine (readVals_ok els _ c 0 hmem hels hinside hbytes (lt_loopBound c)).trans ?_
  simp only [loopBound_sub (c := c) (k := els.length) (by omega), readVals_none, List.append_nil]

/-- The bytes of a region split where their parts meet. -/
theorem readsAt_append {s : State} {p : Nat} {xs ys : List Byte} (h : ReadsAt s p (xs ++ ys)) :
    ReadsAt s p xs ∧ ReadsAt s (p + xs.length) ys := by
  obtain ⟨hinside, hbytes⟩ := h
  obtain ⟨hxs, hys⟩ := bytesAt_append hbytes
  rw [List.length_append] at hinside
  exact ⟨⟨by omega, hxs⟩, by omega, hys⟩

/-- Where the payload of an entry starts. -/
theorem payload_start (p : Nat) (lb tag cb : List Byte) :
    p + (lb ++ tag ++ cb).length = p + lb.length + tag.length + cb.length := by
  rw [List.length_append, List.length_append]
  omega

/-- Settles O43: after a well-formed head the loop records the place of every element. -/
theorem nextTakesStringAndBinaryEntries : Obligations.NextTakesStringAndBinaryEntries := by
  intro s i arr ty il lb tag cb els hform hready hplaced hty hhead hels hbytes
  obtain ⟨hheadBytes, hinside, hpayload⟩ := readsAt_append hbytes
  rw [payload_start] at hinside hpayload
  have hread := readPayload_of_spans (c := { s.r with pos := s.r.pos + 1 + lb.length + tag.length + cb.length }) hty
    hplaced.2.2 hels hinside hpayload
  rw [List.length_append, ← Nat.add_assoc, payload_start]
  exact take_ok hform hready hplaced hhead hheadBytes hread

/-- Settles O44: after a well-formed head the loop records the value of every element. -/
theorem nextTakesVarintEntries : Obligations.NextTakesVarintEntries := by
  intro s i arr il lb tag cb els hform hready hplaced hhead hels hbytes
  obtain ⟨hheadBytes, hinside, hpayload⟩ := readsAt_append hbytes
  rw [payload_start] at hinside hpayload
  have hread := readPayload_of_vals (c := { s.r with pos := s.r.pos + 1 + lb.length + tag.length + cb.length })
    hplaced.2.2 hels hinside hpayload
  rw [List.length_append, ← Nat.add_assoc, payload_start]
  exact take_ok hform hready hplaced hhead hheadBytes hread

/-! ## Faults (R194 to R201) -/

/-- R standing at position `p` of its region. -/
abbrev readerAt (s : State) (p : Nat) : Cursor := { s.r with pos := p }

section
variable {s : State} {p : Nat} {r : Result} {slot : Option Nat}

/-- Whatever passes on what `udec` raises at `p` raises as an unsigned varint at `p` does. -/
theorem unsignedRaises_of_udec (hmem : s.r.limit ≤ s.cfg.memSize)
    (h : ∀ cause q, udec s (readerAt s p) = .error (.raised (.format cause q)) →
      RaisesFormat s r (causeCode cause) q slot) : UnsignedRaises s p r slot := by
  refine ⟨fun ⟨hpos, hshort, hcontinue⟩ => h .truncVarint s.r.limit ?_,
    fun ⟨⟨hroom, hcontinue⟩, hlast⟩ => h .varintRange (p + 9) ?_⟩
  · exact udecFrom_cut 10 0 0 (readerAt s p) hmem rfl hpos hshort fun x hfrom hto => hcontinue x hto hfrom
  · exact udecFrom_wide 9 0 0 (readerAt s p) hmem rfl hroom (fun x hfrom hto => hcontinue x hto hfrom) hlast

/-- Whatever passes on what `sdec` raises at `p` raises as a signed varint at `p` does. -/
theorem signedRaises_of_sdec (hmem : s.r.limit ≤ s.cfg.memSize)
    (h : ∀ cause q, sdec s (readerAt s p) = .error (.raised (.format cause q)) →
      RaisesFormat s r (causeCode cause) q slot) : SignedRaises s p r slot := by
  refine ⟨fun ⟨hpos, hshort, hcontinue⟩ => h .truncVarint s.r.limit ?_,
    fun ⟨⟨hroom, hcontinue⟩, hnotZero, hnotOnes⟩ => h .varintRange (p + 9) ?_⟩
  · exact sdecFrom_cut 10 0 0 (readerAt s p) hmem rfl hpos hshort fun x hfrom hto => hcontinue x hto hfrom
  · exact sdecFrom_wide 9 0 0 (readerAt s p) hmem rfl hroom (fun x hfrom hto => hcontinue x hto hfrom) hnotZero hnotOnes

end

section
variable {s : State} {p n : Nat} {cause : Cause}

theorem skip_readerAt_of_fits (h : p + n ≤ s.r.limit) : skip (readerAt s p) n cause = .ok (readerAt s (p + n)) := by
  rw [skip, if_neg (Nat.not_lt.mpr h)]

theorem skip_readerAt_of_short (h : s.r.limit < p + n) :
    skip (readerAt s p) n cause = .error (.raised (.format cause p)) := by
  rw [skip, if_pos h]

end

section
variable {s : State} {arr : Bool} {il : BitVec 3} {e0 : Nat} {c c1 c2 : Cursor} {e : Stop} {n : Nat}

theorem readHead_of_tagLen_error (h : readTagLen s il e0 c = .error e) : readHead s arr il e0 c = .error e := by
  rw [readHead, h]

theorem readHead_of_skip_error (hlen : readTagLen s il e0 c = .ok (n, c1)) (h : skip c1 n .truncBytes = .error e) :
    readHead s arr il e0 c = .error e := by
  simp only [readHead, hlen, h]

theorem readHead_of_count_error (hlen : readTagLen s il e0 c = .ok (n, c1)) (htag : skip c1 n .truncBytes = .ok c2)
    (h : readCount s arr c2 = .error e) : readHead s arr il e0 c = .error e := by
  simp only [readHead, hlen, htag, h]

theorem readTagLen_of_udec_error (hil : il = 0) (h : udec s c = .error e) : readTagLen s il e0 c = .error e := by
  rw [readTagLen, if_neg (by simp [hil]), h]

theorem readTagLen_of_udec (hil : il = 0) (h : udec s c = .ok (n, c1)) :
    readTagLen s il e0 c = if n = 0 then .error (.raised (.format .zeroTag e0)) else .ok (n, c1) := by
  rw [readTagLen, if_neg (by simp [hil]), h]

theorem readTagLen_of_inline (hil : il.toNat ≠ 0) : readTagLen s il e0 c = .ok (il.toNat, c) := by
  rw [readTagLen, if_pos hil]

theorem readEntry_of_head_error {ty : Option EntryType} (h : readHead s arr il e0 c = .error e) :
    readEntry s arr ty il e0 c = .error e := by
  rw [readEntry, h]

end

theorem udec_readerAt {s : State} {p : Nat} {bs : List Byte} {v : Nat} (hv : IsUnsigned bs v)
    (hmem : s.r.limit ≤ s.cfg.memSize) (h : ReadsAt s p bs) :
    udec s (readerAt s p) = .ok (v, readerAt s (p + bs.length)) :=
  udec_ok (c := readerAt s p) hv hmem h.1 h.2

/-- NEXT passes on what reading the entry raises, naming the slot it was filling. -/
theorem exec_next_raises {s : State} {cause : Cause} {q : Nat} (hready : ReaderReady s) (hplaced : ReaderPlaced s)
    (hinside : s.r.pos < s.r.limit)
    (h : readEntry s (entryArray (s.byteAt s.r.pos)) (typeOfCode (entryTypeCode (s.byteAt s.r.pos)).toNat)
      (entryInlineLength (s.byteAt s.r.pos)) s.r.pos (readerAt s (s.r.pos + 1)) = .error (.raised (.format cause q))) :
    RaisesFormat s (exec .next s) (causeCode cause) q (some (chooseSlot s)) := by
  obtain ⟨hstart, hpos, hmem⟩ := hplaced
  rw [exec_next, readerStep_of_inside _ hready hinside hmem, takeEntry]
  simp only [h]
  exact ⟨_, rfl, takeFormat_malformed cause q (some (chooseSlot s)) (hstart.trans hpos)⟩

/-- Settles O45: a tag length that raises, a length of 0, and a tag that does not fit, whether its length was written
out or inline. -/
theorem nextFaultsInTheTag : Obligations.NextFaultsInTheTag := by
  intro s hready hplaced hinside
  have ⟨_, _, hmem⟩ := hplaced
  have hraises {cause : Cause} {q : Nat} := exec_next_raises (cause := cause) (q := q) hready hplaced hinside
  refine ⟨fun hil => ⟨unsignedRaises_of_udec hmem fun cause q hlen => ?_, fun lb hlb hbytes => ?_,
    fun lb n hn hlb hbytes hshort => ?_⟩, fun n hn hinline hshort => ?_⟩
  · exact hraises (readEntry_of_head_error (readHead_of_tagLen_error (readTagLen_of_udec_error hil hlen)))
  · have hlen := (readTagLen_of_udec (e0 := s.r.pos) hil (udec_readerAt hlb hmem hbytes)).trans (if_pos rfl)
    exact hraises (readEntry_of_head_error (readHead_of_tagLen_error hlen))
  · have hlen := (readTagLen_of_udec (e0 := s.r.pos) hil (udec_readerAt hlb hmem hbytes)).trans (if_neg (by omega))
    exact hraises (readEntry_of_head_error (readHead_of_skip_error hlen (skip_readerAt_of_short hshort)))
  · subst hn
    exact hraises (readEntry_of_head_error
      (readHead_of_skip_error (readTagLen_of_inline hinline) (skip_readerAt_of_short hshort)))

/-- Settles O46: the count is read behind the tag, and the type code is looked at behind the count. -/
theorem nextFaultsInCountAndType : Obligations.NextFaultsInCountAndType := by
  intro s lb tag hready hplaced hinside il hil hhead hbytes
  subst hil
  have ⟨_, _, hmem⟩ := hplaced
  have hraises {cause : Cause} {q : Nat} := exec_next_raises (cause := cause) (q := q) hready hplaced hinside
  obtain ⟨⟨hlbFits, hlbBytes⟩, htagFits, -⟩ := readsAt_append hbytes
  refine ⟨fun harr => unsignedRaises_of_udec hmem fun cause q hcount => ?_, fun cb cnt hfull hcb htype => ?_⟩
  · have hlen := readTagLen_ok (e0 := s.r.pos) (c := readerAt s (s.r.pos + 1)) hhead hmem hlbFits hlbBytes
    have hcount' : readCount s (entryArray (s.byteAt s.r.pos)) (readerAt s (s.r.pos + 1 + lb.length + tag.length)) =
        .error (.raised (.format cause q)) := by rw [readCount, if_pos harr, hcount]
    exact hraises (readEntry_of_head_error (readHead_of_count_error hlen (skip_readerAt_of_fits htagFits) hcount'))
  · have hentry := readHead_ok (e0 := s.r.pos) (c := readerAt s (s.r.pos + 1)) hfull hmem hcb.1 hcb.2
    refine hraises (cause := .badType) ?_
    rw [readEntry, hentry, typeOfCode_of_gt htype]

/-! ## Faults in the payload (R197 to R200) -/

/-- A fixed-width payload that does not fit; the types without a width have none that could not. -/
theorem readPayload_of_truncFixed {s : State} {y : EntryType} {cnt p : Nat} (hp : p ≤ s.r.limit)
    (hshort : s.r.limit < p + cnt * typeWidth y) :
    readPayload s y cnt (readerAt s p) = .error (.raised (.format .truncFixed p)) := by
  have hskip := skip_readerAt_of_short (cause := .truncFixed) hshort
  cases y with
  | null | string | binary | varint => exact absurd hshort (by simp only [typeWidth]; omega)
  | int8 | int16 | int32 | int64 | double | datetime => simp only [readPayload, hskip]

theorem readSpans_of_udec_error {s : State} {c : Cursor} {e : Stop} (fuel cnt : Nat) (h : udec s c = .error e) :
    readSpans s (fuel + 1) (cnt + 1) c = .error e := by
  rw [readSpans, if_neg (Nat.succ_ne_zero cnt), h]

theorem readSpans_of_skip_error {s : State} {c c1 : Cursor} {len : Nat} {e : Stop} (fuel cnt : Nat)
    (hlen : udec s c = .ok (len, c1)) (h : skip c1 len .truncBytes = .error e) :
    readSpans s (fuel + 1) (cnt + 1) c = .error e := by
  simp only [readSpans, if_neg (Nat.succ_ne_zero cnt), hlen, h]

theorem readVals_of_sdec_error {s : State} {c : Cursor} {e : Stop} (fuel cnt : Nat) (h : sdec s c = .error e) :
    readVals s (fuel + 1) (cnt + 1) c = .error e := by
  rw [readVals, if_neg (Nat.succ_ne_zero cnt), sdecWord_of_error h]

/-- A loop over more elements than the good ones ends as its next pass does. -/
theorem readPayload_of_spans_error {s : State} {y : EntryType} (hy : y ∈ [EntryType.string, .binary])
    {els : List (List Byte × List Byte)} {cnt p : Nat} {e : Stop} (hmem : s.r.limit ≤ s.cfg.memSize)
    (hmore : els.length < cnt) (hels : ∀ e ∈ els, IsUnsigned e.1 e.2.length)
    (hbytes : ReadsAt s p (els.flatMap fun e => e.1 ++ e.2))
    (h : ∀ fuel cnt, readSpans s (fuel + 1) (cnt + 1)
      (readerAt s (p + (els.flatMap fun e => e.1 ++ e.2).length)) = .error e) :
    readPayload s y cnt (readerAt s p) = .error e := by
  obtain ⟨rest, rfl⟩ := Nat.exists_eq_add_of_lt hmore
  have hcount := length_le_length_spans hels
  have hinside := hbytes.1
  rw [readPayload_of_spanType hy]
  have hbound : loopBound (readerAt s p) - els.length = s.r.limit - p - els.length + 1 :=
    loopBound_sub (c := readerAt s p) ((Nat.add_le_add_left hcount p).trans hinside)
  refine (readSpans_ok els _ (readerAt s p) (rest + 1) hmem hels hinside hbytes.2 (lt_loopBound _)).trans ?_
  rw [hbound, h]

theorem readPayload_of_vals_error {s : State} {els : List (List Byte × Int)} {cnt p : Nat} {e : Stop}
    (hmem : s.r.limit ≤ s.cfg.memSize) (hmore : els.length < cnt) (hels : ∀ e ∈ els, IsSigned e.1 e.2)
    (hbytes : ReadsAt s p (els.flatMap fun e => e.1))
    (h : ∀ fuel cnt, readVals s (fuel + 1) (cnt + 1)
      (readerAt s (p + (els.flatMap fun e => e.1).length)) = .error e) :
    readPayload s .varint cnt (readerAt s p) = .error e := by
  obtain ⟨rest, rfl⟩ := Nat.exists_eq_add_of_lt hmore
  have hcount := length_le_length_vals hels
  have hinside := hbytes.1
  have hbound : loopBound (readerAt s p) - els.length = s.r.limit - p - els.length + 1 :=
    loopBound_sub (c := readerAt s p) ((Nat.add_le_add_left hcount p).trans hinside)
  refine (readVals_ok els _ (readerAt s p) (rest + 1) hmem hels hinside hbytes.2 (lt_loopBound _)).trans ?_
  rw [hbound, h]

/-- Settles O47: after a well-formed head, what the payload raises is what its first bad part raises. -/
theorem entriesFaultInThePayload : Obligations.EntriesFaultInThePayload := by
  intro s i arr ty il lb tag cb cnt p hform hready hplaced hhead hbytes hp
  have ⟨_, _, hmem⟩ := hplaced
  have hraises {cause : Cause} {q : Nat}
      (hpayload : readPayload s ty cnt (readerAt s p) = .error (.raised (.format cause q))) :
      RaisesFormat s (exec i s) (causeCode cause) q (some (chooseSlot s)) :=
    take_err hform hready hplaced hhead hbytes (hp ▸ hpayload)
  have hstart : p ≤ s.r.limit := by
    have hinside := hbytes.1
    rwa [payload_start, ← hp] at hinside
  refine ⟨fun hshort => ?_, fun els hty hmore hels hgood q hq => ⟨?_, fun eb n heb hebBytes hshort => ?_⟩,
    fun els hty hmore hels hgood => ?_⟩
  · exact hraises (readPayload_of_truncFixed hstart hshort)
  · subst hq
    exact unsignedRaises_of_udec hmem fun cause q hlen =>
      hraises (readPayload_of_spans_error hty hmem hmore hels hgood fun fuel k => readSpans_of_udec_error fuel k hlen)
  · subst hq
    exact hraises (readPayload_of_spans_error hty hmem hmore hels hgood fun fuel k =>
      readSpans_of_skip_error fuel k (udec_readerAt heb hmem hebBytes) (skip_readerAt_of_short hshort))
  · subst hty
    exact signedRaises_of_sdec hmem fun cause q hval =>
      hraises (readPayload_of_vals_error hmem hmore hels hgood fun fuel k => readVals_of_sdec_error fuel k hval)

end Sys2Proof.Machine
end

section
/-! The unchecked use of a typed accessor (45_view.md R231): it completes and draws its results. -/

namespace Sys2Proof.Machine

theorem accessOk_of_unchecked {v : View} {y : EntryType} {a : Word}
    (h : v.type.toNat ≠ typeCode y ∨ v.count.toNat ≤ a.toNat) : accessOk v y (zext a) = false := by
  rw [accessOk, Bool.and_eq_false_iff, decide_eq_false_iff_not, decide_eq_false_iff_not, zext, Nat.not_lt]
  exact h

section
variable {s : State} {vs : Byte} {a : Word} {v : View} {y : EntryType}

theorem fixedAccessor_of_unchecked (hholds : Holds s vs v) (h : v.type.toNat ≠ typeCode y ∨ v.count.toNat ≤ a.toNat) :
    fixedAccessor y vs a s = .next (s.looseX0.complete .ok) := by
  rw [fixedAccessor, viewCommand_holds hholds, accessOk_of_unchecked h]
  rfl

theorem spanAccessor_of_unchecked (hholds : Holds s vs v) (h : v.type.toNat ≠ typeCode y ∨ v.count.toNat ≤ a.toNat) :
    spanAccessor y vs a s = .next (s.looseX.complete .ok) := by
  rw [spanAccessor, viewCommand_holds hholds, accessOk_of_unchecked h]

theorem exec_vvar_of_unchecked (hholds : Holds s vs v)
    (h : v.type.toNat ≠ typeCode .varint ∨ v.count.toNat ≤ a.toNat) :
    exec (.vvar vs a) s = .next (s.looseX0.complete .ok) := by
  rw [exec, execVvar, viewCommand_holds hholds, accessOk_of_unchecked h]
  rfl

end

/-- Settles O55: an unchecked use fails the one test of the accessor. -/
theorem uncheckedAccessorsComplete : Obligations.UncheckedAccessorsComplete := by
  intro s vs a v hholds
  have hfixed {i : Instr} {y : EntryType} (hi : (i, y) ∈ fixedAccessors vs a)
      (h : v.type.toNat ≠ typeCode y ∨ v.count.toNat ≤ a.toNat) : ∃ x, exec i s = .next (looseAnswer s x) :=
    ⟨_, (exec_of_mem_fixedAccessors hi s).trans (fixedAccessor_of_unchecked hholds h)⟩
  have hspan {i : Instr} {y : EntryType} (hi : (i, y) ∈ spanAccessors vs a)
      (h : v.type.toNat ≠ typeCode y ∨ v.count.toNat ≤ a.toNat) : ∃ x z, exec i s = .next (looseAnswer2 s 0 x z) :=
    ⟨_, _, (exec_of_mem_spanAccessors hi s).trans (spanAccessor_of_unchecked hholds h)⟩
  refine ⟨fun p hp h => ?_, fun p hp h => ?_⟩
  · simp only [List.mem_cons, List.not_mem_nil, or_false] at hp
    rcases hp with rfl | rfl | rfl | rfl | rfl | rfl | rfl
    · exact hfixed (y := .int8) (by simp [fixedAccessors]) h
    · exact hfixed (y := .int16) (by simp [fixedAccessors]) h
    · exact hfixed (y := .int32) (by simp [fixedAccessors]) h
    · exact hfixed (y := .int64) (by simp [fixedAccessors]) h
    · exact hfixed (y := .datetime) (by simp [fixedAccessors]) h
    · exact hfixed (y := .double) (by simp [fixedAccessors]) h
    · exact ⟨_, exec_vvar_of_unchecked hholds h⟩
  · simp only [List.mem_cons, List.not_mem_nil, or_false] at hp
    rcases hp with rfl | rfl
    · exact hspan (y := .string) (by simp [spanAccessors]) h
    · exact hspan (y := .binary) (by simp [spanAccessors]) h

end Sys2Proof.Machine
end

section
/-! Texts (43_serializer.md R159 to R161): which operands carry one, its UTF-8, and how long that is. -/

namespace Sys2Proof.Machine

/-! ## Code units (R159) -/

@[simp] theorem length_unitBytes (us : List CodeUnit) : (unitBytes us).length = 2 * us.length := by
  induction us with
  | nil => rfl
  | cons u us ih =>
    rw [unitBytes, List.length_cons, List.length_cons, List.length_cons, ih]
    omega

/-- A code unit is its two bytes, low one first. -/
theorem ofNat_unit_bytes (u : CodeUnit) :
    BitVec.ofNat 16 ((u.extractLsb' 0 8).toNat + 256 * (u.extractLsb' 8 8).toNat) = u := by
  have hu := u.isLt
  apply BitVec.eq_of_toNat_eq
  simp only [BitVec.toNat_ofNat, BitVec.extractLsb'_toNat, Nat.shiftRight_eq_div_pow]
  omega

theorem unit_bytes_ofNat (lo hi : Byte) :
    (BitVec.ofNat 16 (lo.toNat + 256 * hi.toNat)).extractLsb' 0 8 = lo ∧
      (BitVec.ofNat 16 (lo.toNat + 256 * hi.toNat)).extractLsb' 8 8 = hi := by
  have hlo := lo.isLt
  have hhi := hi.isLt
  constructor <;>
  · apply BitVec.eq_of_toNat_eq
    simp only [BitVec.toNat_ofNat, BitVec.extractLsb'_toNat, Nat.shiftRight_eq_div_pow]
    omega

theorem codeUnits_unitBytes (us : List CodeUnit) : codeUnits (unitBytes us) = some us := by
  induction us with
  | nil => rfl
  | cons u us ih =>
    simp only [unitBytes, codeUnits, ih, ofNat_unit_bytes]

theorem codeUnits_eq_some_iff {bs : List Byte} {us : List CodeUnit} : codeUnits bs = some us ↔ bs = unitBytes us := by
  refine ⟨fun h => ?_, fun h => h ▸ codeUnits_unitBytes us⟩
  induction bs using codeUnits.induct generalizing us with
  | case1 =>
    cases h
    rfl
  | case2 b => cases h
  | case3 lo hi rest us' hrest ih =>
    rw [codeUnits, hrest] at h
    cases h
    obtain ⟨hlo, hhi⟩ := unit_bytes_ofNat lo hi
    rw [unitBytes, hlo, hhi, ← ih hrest]
  | case4 lo hi rest hrest =>
    rw [codeUnits, hrest] at h
    cases h

/-! ## Pairs of surrogates (R159; log 18) -/

/-- The surrogates of a text are paired, where a high one may just have gone before: a low one stands exactly behind
a high one. -/
def PairedAfter : Bool → List CodeUnit → Prop
  | high, [] => high = false
  | high, u :: us => isLow u = high ∧ PairedAfter (isHigh u) us

theorem isLow_of_isHigh {u : CodeUnit} (h : isHigh u = true) : isLow u = false := by
  simp only [isHigh, isLow, decide_eq_true_eq, decide_eq_false_iff_not] at h ⊢
  omega

theorem isHigh_of_isLow {u : CodeUnit} (h : isLow u = true) : isHigh u = false := by
  simp only [isHigh, isLow, decide_eq_true_eq, decide_eq_false_iff_not] at h ⊢
  omega

theorem textWellFormed_iff {us : List CodeUnit} : textWellFormed us = true ↔ PairedAfter false us := by
  induction us using textWellFormed.induct with
  | case1 => simp [textWellFormed, PairedAfter]
  | case2 u => simp [textWellFormed, PairedAfter, and_comm]
  | case3 u v rest hhigh ih =>
    simp only [textWellFormed, hhigh, if_true, Bool.and_eq_true, ih, PairedAfter, isLow_of_isHigh hhigh, true_and]
    exact and_congr_right fun hlow => by rw [isHigh_of_isLow hlow]
  | case4 u v rest hhigh ih =>
    simp only [textWellFormed, hhigh, Bool.false_eq_true, if_false, Bool.and_eq_true, ih, Bool.not_eq_true']
    simp only [PairedAfter, Bool.not_eq_true] at hhigh ⊢
    rw [hhigh]

/-- `Paired`, where a high surrogate may just have gone before. -/
def PairedIn (high : Bool) (us : List CodeUnit) : Prop :=
  (high = true → ∃ v, us[0]? = some v ∧ isLow v = true) ∧
  ∀ k u, us[k]? = some u →
    (isHigh u = true → ∃ v, us[k + 1]? = some v ∧ isLow v = true) ∧
    (isLow u = true → (k = 0 ∧ high = true) ∨ ∃ j v, k = j + 1 ∧ us[j]? = some v ∧ isHigh v = true)

theorem paired_iff_pairedIn {us : List CodeUnit} : Paired us ↔ PairedIn false us := by
  simp [Paired, PairedIn, isHigh, isLow]

theorem pairedIn_cons {high : Bool} {u : CodeUnit} {us : List CodeUnit} :
    PairedIn high (u :: us) ↔ isLow u = high ∧ PairedIn (isHigh u) us := by
  constructor
  · rintro ⟨hhead, hall⟩
    obtain ⟨hhighFirst, hlowFirst⟩ := hall 0 u rfl
    refine ⟨?_, hhighFirst, fun k v hv => ?_⟩
    · rw [Bool.eq_iff_iff]
      refine ⟨fun hlow => ?_, fun hhigh => ?_⟩
      · rcases hlowFirst hlow with ⟨-, hhigh⟩ | ⟨j, -, hj, -⟩
        · exact hhigh
        · exact absurd hj (Nat.succ_ne_zero j).symm
      · obtain ⟨v, hv, hlow⟩ := hhead hhigh
        rwa [Option.some.inj hv]
    · obtain ⟨hnext, hlow⟩ := hall (k + 1) v hv
      refine ⟨hnext, fun h => ?_⟩
      rcases hlow h with ⟨hk, -⟩ | ⟨j, w, hj, hw, hhigh⟩
      · exact absurd hk (Nat.succ_ne_zero k)
      · obtain rfl : k = j := Nat.succ.inj hj
        cases k with
        | zero => exact .inl ⟨rfl, by rwa [Option.some.inj hw]⟩
        | succ k => exact .inr ⟨k, w, rfl, hw, hhigh⟩
  · rintro ⟨rfl, hhead, hall⟩
    refine ⟨fun hlow => ⟨u, rfl, hlow⟩, fun k v hv => ?_⟩
    cases k with
    | zero =>
      obtain rfl : u = v := Option.some.inj hv
      exact ⟨hhead, fun hlow => .inl ⟨rfl, hlow⟩⟩
    | succ k =>
      obtain ⟨hnext, hlow⟩ := hall k v hv
      refine ⟨hnext, fun h => .inr ?_⟩
      rcases hlow h with ⟨rfl, hfirst⟩ | ⟨j, w, rfl, hw, hhigh⟩
      · exact ⟨0, u, rfl, rfl, hfirst⟩
      · exact ⟨j + 1, w, rfl, hw, hhigh⟩

theorem pairedIn_iff {high : Bool} {us : List CodeUnit} : PairedIn high us ↔ PairedAfter high us := by
  induction us generalizing high with
  | nil => simp [PairedIn, PairedAfter]
  | cons u us ih => rw [pairedIn_cons, PairedAfter, ih]

theorem textWellFormed_iff_paired {us : List CodeUnit} : textWellFormed us = true ↔ Paired us := by
  rw [textWellFormed_iff, paired_iff_pairedIn, pairedIn_iff]

/-- Settles O32: the bytes give the code units back, and their check is the pairing, unit by unit. -/
theorem textOperandsAreUtf16 : Obligations.TextOperandsAreUtf16 := by
  intro bs us
  rw [textOf, ← codeUnits_eq_some_iff, ← textWellFormed_iff_paired]
  cases hunits : codeUnits bs with
  | none => simp
  | some us' =>
    simp only [Option.some.injEq, Option.ite_none_right_eq_some]
    constructor
    · rintro ⟨hwf, rfl⟩
      exact ⟨rfl, hwf⟩
    · rintro ⟨rfl, hwf⟩
      exact ⟨hwf, rfl⟩

theorem textOf_unitBytes {us : List CodeUnit} (h : Paired us) : textOf (unitBytes us) = some us :=
  (textOperandsAreUtf16 _ us).mpr ⟨rfl, h⟩

/-! ## UTF-8 (R160; log 18) -/

theorem utf8_cons_of_notHigh {u : CodeUnit} (h : isHigh u = false) (us : List CodeUnit) :
    utf8 (u :: us) = utf8Unit u ++ utf8 us := by
  cases us with
  | nil => exact (List.append_nil _).symm
  | cons v rest => rw [utf8, h, Bool.false_and, if_neg Bool.false_ne_true]

theorem utf8_pair {hi lo : CodeUnit} (hhi : isHigh hi = true) (hlo : isLow lo = true) (us : List CodeUnit) :
    utf8 (hi :: lo :: us) = utf8Pair hi lo ++ utf8 us := by
  rw [utf8, hhi, hlo, Bool.and_self, if_pos rfl]

/-- A byte of the table: fixed high bits, and below them a run of `n` bits of the code point from bit `p` up. -/
theorem ofNat_add_bits {w : Nat} (x : BitVec w) (m p : Nat) {n : Nat} (hn : n ≤ 8) :
    BitVec.ofNat 8 (m + x.toNat / 2 ^ p % 2 ^ n) = BitVec.ofNat 8 m + (x.extractLsb' p n).setWidth 8 := by
  apply BitVec.eq_of_toNat_eq
  have hbits : x.toNat / 2 ^ p % 2 ^ n < 2 ^ 8 :=
    (Nat.mod_lt _ (Nat.two_pow_pos n)).trans_le (Nat.pow_le_pow_right (by decide) hn)
  simp only [BitVec.toNat_ofNat, BitVec.toNat_add, BitVec.toNat_setWidth, BitVec.extractLsb'_toNat,
    Nat.shiftRight_eq_div_pow]
  omega

theorem utf8Unit_bits (u : CodeUnit) :
    utf8Unit u =
      if u.toNat < 0x80 then [u.extractLsb' 0 8]
      else if u.toNat ≤ 0x7FF then
        [0xC0 + (u.extractLsb' 6 5).setWidth 8, 0x80 + (u.extractLsb' 0 6).setWidth 8]
      else [0xE0 + (u.extractLsb' 12 4).setWidth 8, 0x80 + (u.extractLsb' 6 6).setWidth 8,
            0x80 + (u.extractLsb' 0 6).setWidth 8] := by
  have hu := u.isLt
  have hlow6 : BitVec.ofNat 8 (0x80 + u.toNat % 64) = 0x80 + (u.extractLsb' 0 6).setWidth 8 := by
    simpa using ofNat_add_bits u 0x80 0 (n := 6) (by decide)
  have hmid6 : BitVec.ofNat 8 (0x80 + u.toNat / 64 % 64) = 0x80 + (u.extractLsb' 6 6).setWidth 8 :=
    ofNat_add_bits u 0x80 6 (n := 6) (by decide)
  have htop5 := ofNat_add_bits u 0xC0 6 (n := 5) (by decide)
  have htop4 := ofNat_add_bits u 0xE0 12 (n := 4) (by decide)
  simp only [utf8Unit, hlow6, hmid6]
  by_cases hascii : u.toNat < 0x80
  · rw [if_pos hascii, if_pos hascii]
    congr 1
  by_cases htwo : u.toNat ≤ 0x7FF
  · rw [if_neg hascii, if_neg hascii, if_pos htwo, if_pos htwo]
    rw [Nat.mod_eq_of_lt (by omega)] at htop5
    exact congrArg (· :: _) htop5
  · rw [if_neg hascii, if_neg hascii, if_neg htwo, if_neg htwo]
    rw [Nat.mod_eq_of_lt (by omega)] at htop4
    exact congrArg (· :: _) htop4

theorem utf8Pair_bits {hi lo : CodeUnit} {c : BitVec 21} (hc : c.toNat = pairPoint hi lo) :
    utf8Pair hi lo =
      [0xF0 + (c.extractLsb' 18 3).setWidth 8, 0x80 + (c.extractLsb' 12 6).setWidth 8,
       0x80 + (c.extractLsb' 6 6).setWidth 8, 0x80 + (c.extractLsb' 0 6).setWidth 8] := by
  have hbound := c.isLt
  have hlow : BitVec.ofNat 8 (0x80 + c.toNat % 64) = 0x80 + (c.extractLsb' 0 6).setWidth 8 := by
    simpa using ofNat_add_bits c 0x80 0 (n := 6) (by decide)
  have hmid : BitVec.ofNat 8 (0x80 + c.toNat / 64 % 64) = 0x80 + (c.extractLsb' 6 6).setWidth 8 :=
    ofNat_add_bits c 0x80 6 (n := 6) (by decide)
  have hhigh : BitVec.ofNat 8 (0x80 + c.toNat / 4096 % 64) = 0x80 + (c.extractLsb' 12 6).setWidth 8 :=
    ofNat_add_bits c 0x80 12 (n := 6) (by decide)
  have htop := ofNat_add_bits c 0xF0 18 (n := 3) (by decide)
  rw [Nat.mod_eq_of_lt (by omega)] at htop
  simp only [utf8Pair, ← hc, hlow, hmid, hhigh]
  exact congrArg (· :: _) htop

/-- Settles O33: a code unit that is no surrogate has a row of its own, a pair has the fourth. -/
theorem utf8FollowsItsTable : Obligations.Utf8FollowsItsTable := by
  refine ⟨rfl, fun u us hhigh _ => ?_, fun hi lo us c hhi hlo hc => ?_⟩
  · rw [utf8_cons_of_notHigh hhigh, utf8Unit_bits]
  · rw [utf8_pair hhi hlo, utf8Pair_bits hc]

/-! ## The length of the UTF-8 (R161) -/

theorem length_utf8Unit (u : CodeUnit) :
    (utf8Unit u).length = if u.toNat < 0x80 then 1 else if u.toNat ≤ 0x7FF then 2 else 3 := by
  simp only [utf8Unit]
  split
  · rfl
  · split <;> rfl

/-- How many bytes a text takes: between one and three a code unit, one for every unit only where all are ASCII. -/
def Utf8LengthBound (us : List CodeUnit) : Prop :=
  us.length ≤ (utf8 us).length ∧ (utf8 us).length ≤ 3 * us.length ∧
    ((utf8 us).length = us.length ↔ ∀ u ∈ us, u.toNat < 0x80)

theorem utf8LengthBound_cons {u : CodeUnit} {us : List CodeUnit} (hhigh : isHigh u = false) (h : Utf8LengthBound us) :
    Utf8LengthBound (u :: us) := by
  obtain ⟨hleast, hmost, hascii⟩ := h
  rw [Utf8LengthBound, utf8_cons_of_notHigh hhigh, List.length_append, length_utf8Unit, List.length_cons,
    List.forall_mem_cons, ← hascii]
  split
  · omega
  · split <;> omega

theorem utf8LengthBound_pair {hi lo : CodeUnit} {us : List CodeUnit} (hhi : isHigh hi = true) (hlo : isLow lo = true)
    (h : Utf8LengthBound us) : Utf8LengthBound (hi :: lo :: us) := by
  obtain ⟨hleast, hmost, -⟩ := h
  have hlength : (utf8Pair hi lo).length = 4 := rfl
  have hnotAscii : ¬ hi.toNat < 0x80 := by
    rw [isHigh, decide_eq_true_eq] at hhi
    omega
  rw [Utf8LengthBound, utf8_pair hhi hlo, List.length_append, hlength, List.length_cons, List.length_cons]
  refine ⟨by omega, by omega, fun heq => by omega, fun hall => absurd (hall hi List.mem_cons_self) hnotAscii⟩

theorem utf8LengthBound_of_wellFormed {us : List CodeUnit} (h : textWellFormed us = true) : Utf8LengthBound us := by
  induction us using textWellFormed.induct with
  | case1 => simp [Utf8LengthBound, utf8]
  | case2 u =>
    simp only [textWellFormed, Bool.and_eq_true, Bool.not_eq_true'] at h
    exact utf8LengthBound_cons h.1 (by simp [Utf8LengthBound, utf8])
  | case3 u v rest hhigh ih =>
    simp only [textWellFormed, hhigh, if_true, Bool.and_eq_true] at h
    exact utf8LengthBound_pair hhigh h.1 (ih h.2)
  | case4 u v rest hhigh ih =>
    simp only [textWellFormed, hhigh, Bool.false_eq_true, if_false, Bool.and_eq_true] at h
    exact utf8LengthBound_cons (by simpa using hhigh) (ih h.2)

/-- Settles O34: a unit that is no surrogate takes one to three bytes, a pair takes four. -/
theorem utf8LengthBounds : Obligations.Utf8LengthBounds := fun _ hpaired =>
  utf8LengthBound_of_wellFormed (textWellFormed_iff_paired.mpr hpaired)

end Sys2Proof.Machine
end

section
/-! The text forms (43_serializer.md R163 to R166): their operand checks in order, and that on a text they are the
byte forms on its UTF-8. -/

namespace Sys2Proof.Machine

theorem exec_escalart (ty : Byte) (t : List Byte) (a : Word) (d : List Byte) (s : State) :
    exec (.escalart ty t a d) s = serialize s (scalarTextBytes ty t a d) := rfl

theorem exec_earrayt (ty : Byte) (t : List Byte) (a : Word) (s : State) :
    exec (.earrayt ty t a) s = serialize s (arrayTextBytes ty t a) := rfl

theorem exec_eelemt (ty : Byte) (d : List Byte) (s : State) :
    exec (.eelemt ty d) s = serialize s (elementTextBytes ty d) := rfl

/-- The operand of a text that is not empty is at least two bytes long. -/
theorem two_le_length_of_textOf {t : List Byte} {us : List CodeUnit} (hne : us ≠ []) (h : textOf t = some us) :
    2 ≤ t.length := by
  obtain ⟨rfl, -⟩ := (textOperandsAreUtf16 t us).mp h
  have hlength := List.length_pos_iff.mpr hne
  rw [length_unitBytes]
  omega

theorem textData_of_ne_string {y : EntryType} (hy : y ≠ .string) (d : List Byte) : textData y d = some d := if_neg hy

theorem textData_string (d : List Byte) : textData .string d = (textOf d).map utf8 := if_pos rfl

/-! ## ESCALART (R163) -/

section
variable {ty : Byte} {y : EntryType} {t : List Byte} {a : Word} {d : List Byte}

theorem scalarTextBytes_of_unassigned (h : 9 < ty.toNat) : scalarTextBytes ty t a d = .error .badType := by
  rw [scalarTextBytes, typeOfCode_of_gt h]

theorem scalarTextBytes_of_short (hy : ty.toNat = typeCode y) (ht : t.length < 2) :
    scalarTextBytes ty t a d = .error .emptyTag := by
  simp only [scalarTextBytes, typeOfCode_of_eq hy, if_pos ht]

theorem scalarTextBytes_of_badTag (hy : ty.toNat = typeCode y) (ht : 2 ≤ t.length) (htext : textOf t = none) :
    scalarTextBytes ty t a d = .error .badText := by
  simp only [scalarTextBytes, typeOfCode_of_eq hy, if_neg (Nat.not_lt.mpr ht), htext]

theorem scalarTextBytes_of_badData (hy : ty.toNat = typeCode y) (ht : 2 ≤ t.length) (hdata : textData y d = none) :
    scalarTextBytes ty t a d = .error .badText := by
  simp only [scalarTextBytes, typeOfCode_of_eq hy, if_neg (Nat.not_lt.mpr ht), hdata]
  split
  case h_1 hnone => cases hnone
  case h_2 => rfl

theorem scalarTextBytes_of_text {tu : List CodeUnit} {db : List Byte} (hy : ty.toNat = typeCode y) (hne : tu ≠ [])
    (htext : textOf t = some tu) (hdata : textData y d = some db) :
    scalarTextBytes ty t a d = .ok (hdr false y (utf8 tu) ++ elemBytes y a db) := by
  have ht := two_le_length_of_textOf hne htext
  simp only [scalarTextBytes, typeOfCode_of_eq hy, if_neg (Nat.not_lt.mpr ht), htext, hdata]

end

/-- Settles O35: the checks of R163 one after another, and then the entry of the transcoded operands. -/
theorem escalartWritesTheEntry : Obligations.EscalartWritesTheEntry := by
  refine ⟨encodes_of_row fun _ => rfl, fun s ty t a d hplaced => ?_⟩
  rw [exec_escalart]
  refine ⟨fun hty => ?_, fun hty ht => ?_, fun hty ht htext => ?_, fun hty ht hdata => ?_, fun tu hne htext =>
    ⟨fun du hty hdata => ?_, fun y hy hty => ?_⟩⟩
  · exact rejectsFor_serialize s (scalarTextBytes_of_unassigned hty)
  · obtain ⟨y, hy⟩ := exists_typeCode_of_le hty
    exact rejectsFor_serialize s (scalarTextBytes_of_short hy ht)
  · obtain ⟨y, hy⟩ := exists_typeCode_of_le hty
    exact rejectsFor_serialize s (scalarTextBytes_of_badTag hy ht htext)
  · have hnone : textData .string d = none := by rw [textData_string, hdata, Option.map_none]
    exact rejectsFor_serialize s (scalarTextBytes_of_badData (y := .string) hty ht hnone)
  · have hsome : textData .string d = some (utf8 du) := by rw [textData_string, hdata, Option.map_some]
    exact writesOrFaults_serialize (scalarTextBytes_of_text (y := .string) hty hne htext hsome) hplaced
  · exact writesOrFaults_serialize (scalarTextBytes_of_text hty hne htext (textData_of_ne_string hy d)) hplaced

/-! ## EARRAYT and EELEMT (R164, R165) -/

section
variable {ty : Byte} {y : EntryType} {t : List Byte} {a : Word} {d : List Byte}

theorem arrayTextBytes_of_unassigned (h : 9 < ty.toNat) : arrayTextBytes ty t a = .error .badType := by
  rw [arrayTextBytes, typeOfCode_of_gt h]

theorem arrayTextBytes_of_short (hy : ty.toNat = typeCode y) (ht : t.length < 2) :
    arrayTextBytes ty t a = .error .emptyTag := by
  simp only [arrayTextBytes, typeOfCode_of_eq hy, if_pos ht]

theorem arrayTextBytes_of_badTag (hy : ty.toNat = typeCode y) (ht : 2 ≤ t.length) (htext : textOf t = none) :
    arrayTextBytes ty t a = .error .badText := by
  simp only [arrayTextBytes, typeOfCode_of_eq hy, if_neg (Nat.not_lt.mpr ht), htext]

theorem arrayTextBytes_of_text {tu : List CodeUnit} (hy : ty.toNat = typeCode y) (hne : tu ≠ [])
    (htext : textOf t = some tu) : arrayTextBytes ty t a = .ok (hdr true y (utf8 tu) ++ uleb a.toNat) := by
  have ht := two_le_length_of_textOf hne htext
  simp only [arrayTextBytes, typeOfCode_of_eq hy, if_neg (Nat.not_lt.mpr ht), htext, zext]

theorem elementTextBytes_of_other (h : ty.toNat ≠ 1) : elementTextBytes ty d = .error .badType := if_pos h

theorem elementTextBytes_of_string (h : ty.toNat = 1) :
    elementTextBytes ty d = match textOf d with
      | some du => .ok (counted (utf8 du))
      | none => .error .badText := if_neg (not_not_intro h)

end

/-- Settles O36: the checks of R164 and of R165 one after another, and then the bytes of the transcoded operand. -/
theorem earraytAndEelemtWrite : Obligations.EarraytAndEelemtWrite := by
  refine ⟨encodes_of_row fun _ => rfl, encodes_of_row fun _ => rfl, fun s ty t d a hplaced => ?_⟩
  rw [exec_earrayt, exec_eelemt]
  refine ⟨fun hty => ?_, fun hty ht => ?_, fun hty ht htext => ?_, fun tu y hne htext hty => ?_, fun hty => ?_,
    fun hty hdata => ?_, fun du hty hdata => ?_⟩
  · exact rejectsFor_serialize s (arrayTextBytes_of_unassigned hty)
  · obtain ⟨y, hy⟩ := exists_typeCode_of_le hty
    exact rejectsFor_serialize s (arrayTextBytes_of_short hy ht)
  · obtain ⟨y, hy⟩ := exists_typeCode_of_le hty
    exact rejectsFor_serialize s (arrayTextBytes_of_badTag hy ht htext)
  · exact writesOrFaults_serialize (arrayTextBytes_of_text hty hne htext) hplaced
  · exact rejectsFor_serialize s (elementTextBytes_of_other hty)
  · exact rejectsFor_serialize s (why := .badText) (by rw [elementTextBytes_of_string hty, hdata])
  · exact writesOrFaults_serialize (bs := counted (utf8 du)) (by rw [elementTextBytes_of_string hty, hdata]) hplaced

/-! ## The byte forms on the UTF-8 (R166) -/

/-- The one writing command answers as itself, and where it raises it leaves what BufferTooSmall does. -/
theorem writesAlike_serialize {s : State} (bytes : Except Reason (List Byte)) (hplaced : WriterReady s → WriterPlaced s) :
    WritesAlike s (serialize s bytes) (serialize s bytes) := by
  have hrejected (why : BitVec 8) :
      WritesAlike s (.next (rejected s why)) (.next (rejected s why)) :=
    ⟨_, _, rfl, rfl, fun _ => rfl, fun h => absurd h (by decide : (6 : BitVec 8) ≠ 3)⟩
  by_cases hinit : s.w.init = true
  · by_cases hkind : s.w.errKind = 0
    · obtain ⟨hpos, hmem⟩ := hplaced ⟨hinit, hkind⟩
      rw [serialize, writerData_ready ⟨hinit, hkind⟩]
      cases bytes with
      | error why => exact hrejected (reasonCode why)
      | ok bs =>
        obtain ⟨-, hstore⟩ | ⟨-, hraise⟩ := wrbytes_cases bs hmem
        · simp only [Except.map, hstore]
          exact ⟨_, _, rfl, rfl, fun _ => rfl, fun h => absurd h (by decide : statusCode .ok ≠ 3)⟩
        · have hover := takeBufferTooSmall_overran hpos
          simp only [Except.map, hraise]
          exact ⟨_, _, rfl, rfl, fun _ => rfl, fun _ => ⟨hover, hover⟩⟩
    · rw [serialize, writerData_pending hinit hkind]
      exact hrejected 3
  · rw [serialize, writerData_notInit (by simpa using hinit)]
    exact hrejected 2

section
variable {tu : List CodeUnit} (hne : tu ≠ []) (htag : Paired tu)
include hne htag

/-- The checks of a text tag agree with those of the byte tag it transcodes to: neither is empty. -/
theorem length_utf8_ne_zero : (utf8 tu).length ≠ 0 := by
  have hunits := List.length_pos_iff.mpr hne
  obtain ⟨hleast, -⟩ := utf8LengthBounds tu htag
  omega

theorem scalarTextBytes_eq {ty : Byte} (a : Word) {d db : List Byte}
    (hd : ∀ y, ty.toNat = typeCode y → textData y d = some db) :
    scalarTextBytes ty (unitBytes tu) a d = scalarBytes ty (utf8 tu) a db := by
  rcases Nat.lt_or_ge 9 ty.toNat with hunassigned | hassigned
  · rw [scalarTextBytes_of_unassigned hunassigned, scalarBytes_of_unassigned _ _ _ hunassigned]
  · obtain ⟨y, hy⟩ := exists_typeCode_of_le hassigned
    rw [scalarTextBytes_of_text hy hne (textOf_unitBytes htag) (hd y hy), scalarBytes_of_typeCode _ _ _ hy,
      if_neg (length_utf8_ne_zero hne htag)]

theorem arrayTextBytes_eq (ty : Byte) (a : Word) :
    arrayTextBytes ty (unitBytes tu) a = arrayBytes ty (utf8 tu) a := by
  rcases Nat.lt_or_ge 9 ty.toNat with hunassigned | hassigned
  · rw [arrayTextBytes_of_unassigned hunassigned, arrayBytes_of_unassigned _ _ hunassigned]
  · obtain ⟨y, hy⟩ := exists_typeCode_of_le hassigned
    rw [arrayTextBytes_of_text hy hne (textOf_unitBytes htag), arrayBytes_of_typeCode _ _ hy,
      if_neg (length_utf8_ne_zero hne htag)]

end

theorem elementTextBytes_eq {du : List CodeUnit} (hdata : Paired du) (a : Word) :
    elementTextBytes 1 (unitBytes du) = elementBytes 1 a (utf8 du) := by
  rw [elementTextBytes_of_string rfl, textOf_unitBytes hdata, elementBytes_of_typeCode (y := .string) a _ rfl]
  rfl

/-- Settles O37: the two forms hand the same bytes, or the same reason, to the same command. -/
theorem textFormsAreByteForms : Obligations.TextFormsAreByteForms := by
  intro s ty tu du a d hplaced hne htag hdata
  have halike {bytes bytes' : Except Reason (List Byte)} (h : bytes = bytes') :
      WritesAlike s (serialize s bytes) (serialize s bytes') := h ▸ writesAlike_serialize bytes hplaced
  refine ⟨fun hty => halike (scalarTextBytes_eq hne htag a fun y hy => ?_),
    halike (scalarTextBytes_eq hne htag a fun y hy => ?_), halike (arrayTextBytes_eq hne htag ty a),
    halike (elementTextBytes_eq hdata a)⟩
  · exact textData_of_ne_string (fun h => hty (by rw [hy, h]; rfl)) d
  · obtain rfl : y = .string := Option.some.inj ((typeOfCode_of_eq hy).symm.trans rfl)
    rw [textData_string, textOf_unitBytes hdata, Option.map_some]

end Sys2Proof.Machine
end

section
/-! Noninterference (20_memory.md R54 to R56): what a reading command answers depends on no byte of MEM outside the
reader's region. -/

namespace Sys2Proof.Machine

/-! ## The reads of one region -/

/-- Two states of one engine that hold the same bytes from the cursor's position up to its limit. -/
def SameRegion (s s' : State) (c : Cursor) : Prop :=
  s'.cfg = s.cfg ∧ ∀ a, c.pos ≤ a → a < c.limit → s'.byteAt a = s.byteAt a

section
variable {s s' : State} {c c' : Cursor}

theorem SameRegion.moved (h : SameRegion s s' c) (hmoved : Moved c c') : SameRegion s s' c' := by
  obtain ⟨hcfg, hbytes⟩ := h
  refine ⟨hcfg, fun a hfrom hto => hbytes a (hmoved.2.1.trans hfrom) ?_⟩
  rwa [hmoved.limit_eq] at hto

theorem rd8_congr (h : SameRegion s s' c) (cause : Cause) : rd8 s' c cause = rd8 s c cause := by
  obtain ⟨hcfg, hbytes⟩ := h
  unfold rd8
  by_cases hend : c.limit ≤ c.pos
  · rw [if_pos hend, if_pos hend]
  · rw [if_neg hend, if_neg hend, hcfg, hbytes c.pos (Nat.le_refl _) (by omega)]

theorem rdN_congr (h : SameRegion s s' c) (n : Nat) : rdN s' c n = rdN s c n := by
  obtain ⟨hcfg, hbytes⟩ := h
  unfold rdN
  by_cases hshort : c.limit < c.pos + n
  · rw [if_pos hshort, if_pos hshort]
  · have hfield : s'.bytesAt c.pos n = s.bytesAt c.pos n :=
      State.bytesAt_congr fun x hfrom hto => hbytes x hfrom (by omega)
    rw [if_neg hshort, if_neg hshort, memRead, memRead, hcfg, hfield]

theorem moved_one (h : c.pos < c.limit) : Moved c { c with pos := c.pos + 1 } := ⟨rfl, Nat.le_succ _, h⟩

/-- A byte is read only where the region goes on. -/
theorem moved_of_rd8 {cause : Cause} {b : Byte} (h : rd8 s c cause = .ok (b, c')) : Moved c c' := by
  unfold rd8 at h
  split at h
  case isTrue => cases h
  case isFalse hinside =>
    split at h
    · cases h
      exact moved_one (by omega)
    · cases h

theorem udecFrom_congr (h : SameRegion s s' c) (fuel k res : Nat) : udecFrom s' fuel k res c = udecFrom s fuel k res c := by
  induction fuel generalizing k res c with
  | zero => rfl
  | succ fuel ih =>
    simp only [udecFrom, rd8_congr h]
    cases hread : rd8 s c .truncVarint with
    | error e => rfl
    | ok bc =>
      obtain ⟨b, c'⟩ := bc
      simp only [ih (h.moved (moved_of_rd8 hread))]

theorem sdecFrom_congr (h : SameRegion s s' c) (fuel k res : Nat) : sdecFrom s' fuel k res c = sdecFrom s fuel k res c := by
  induction fuel generalizing k res c with
  | zero => rfl
  | succ fuel ih =>
    simp only [sdecFrom, rd8_congr h]
    cases hread : rd8 s c .truncVarint with
    | error e => rfl
    | ok bc =>
      obtain ⟨b, c'⟩ := bc
      simp only [ih (h.moved (moved_of_rd8 hread))]

theorem udec_congr (h : SameRegion s s' c) : udec s' c = udec s c := udecFrom_congr h 10 0 0

theorem sdec_congr (h : SameRegion s s' c) : sdec s' c = sdec s c := sdecFrom_congr h 10 0 0

theorem udecWord_congr (h : SameRegion s s' c) : udecWord s' c = udecWord s c := by
  rw [udecWord, udec_congr h, udecWord]

theorem sdecWord_congr (h : SameRegion s s' c) : sdecWord s' c = sdecWord s c := by
  rw [sdecWord, sdec_congr h, sdecWord]

theorem moved_of_udec (hmem : c.limit ≤ s.cfg.memSize) (hpos : c.pos ≤ c.limit) {v : Nat} (h : udec s c = .ok (v, c')) :
    Moved c c' := by
  obtain ⟨v', c'', hok, hmoved, -⟩ | ⟨e, herror, -⟩ := udec_stop hmem hpos
  · rw [h] at hok
    cases hok
    exact hmoved
  · rw [h] at herror
    cases herror

theorem moved_of_sdecWord (hmem : c.limit ≤ s.cfg.memSize) (hpos : c.pos ≤ c.limit) {v : Word}
    (h : sdecWord s c = .ok (v, c')) : Moved c c' := by
  obtain ⟨v', c'', hok, hmoved, -⟩ | ⟨e, herror, -⟩ := sdec_stop hmem hpos
  · rw [sdecWord_of_ok hok] at h
    cases h
    exact hmoved
  · rw [sdecWord_of_error herror] at h
    cases h

theorem moved_of_skip {n : Nat} {cause : Cause} (h : skip c n cause = .ok c') : Moved c c' := by
  obtain ⟨hfits, hok⟩ | ⟨-, herror⟩ := skip_cases c n cause
  · rw [hok] at h
    cases h
    exact ⟨rfl, Nat.le_add_right _ _, hfits⟩
  · rw [herror] at h
    cases h

end

/-! ## The parts of an entry -/

section
variable {s s' : State} {c : Cursor}

/-- A cursor inside a region of MEM. -/
abbrev InMemory (s : State) (c : Cursor) : Prop := c.limit ≤ s.cfg.memSize ∧ c.pos ≤ c.limit

theorem InMemory.moved {c' : Cursor} (h : InMemory s c) (hmoved : Moved c c') : InMemory s c' :=
  ⟨hmoved.limit_eq.trans_le h.1, hmoved.placed⟩

theorem readTagLen_congr (h : SameRegion s s' c) (il : BitVec 3) (e0 : Nat) :
    readTagLen s' il e0 c = readTagLen s il e0 c := by
  rw [readTagLen, udec_congr h, readTagLen]

theorem readCount_congr (h : SameRegion s s' c) (arr : Bool) : readCount s' arr c = readCount s arr c := by
  rw [readCount, udec_congr h, readCount]

theorem readSpans_congr (h : SameRegion s s' c) (hin : InMemory s c) (fuel cnt : Nat) :
    readSpans s' fuel cnt c = readSpans s fuel cnt c := by
  induction fuel generalizing cnt c with
  | zero => rfl
  | succ fuel ih =>
    simp only [readSpans, udec_congr h]
    cases hlen : udec s c with
    | error e => rfl
    | ok vc =>
      obtain ⟨len, c1⟩ := vc
      have hmoved := moved_of_udec hin.1 hin.2 hlen
      cases hbody : skip c1 len .truncBytes with
      | error e => simp only [hbody]
      | ok c2 =>
        have hmoved' := hmoved.trans (moved_of_skip hbody)
        simp only [hbody, ih (h.moved hmoved') (hin.moved hmoved')]

theorem readVals_congr (h : SameRegion s s' c) (hin : InMemory s c) (fuel cnt : Nat) :
    readVals s' fuel cnt c = readVals s fuel cnt c := by
  induction fuel generalizing cnt c with
  | zero => rfl
  | succ fuel ih =>
    simp only [readVals, sdecWord_congr h]
    cases hval : sdecWord s c with
    | error e => rfl
    | ok vc =>
      obtain ⟨v, c1⟩ := vc
      have hmoved := moved_of_sdecWord hin.1 hin.2 hval
      simp only [ih (h.moved hmoved) (hin.moved hmoved)]

theorem readPayload_congr (h : SameRegion s s' c) (hin : InMemory s c) (y : EntryType) (cnt : Nat) :
    readPayload s' y cnt c = readPayload s y cnt c := by
  cases y with
  | null => rfl
  | string | binary => exact readSpans_congr h hin _ cnt
  | varint => exact readVals_congr h hin _ cnt
  | int8 | int16 | int32 | int64 | double | datetime => rfl

theorem moved_of_readTagLen (hin : InMemory s c) {c' : Cursor} {il : BitVec 3} {e0 n : Nat}
    (h : readTagLen s il e0 c = .ok (n, c')) : Moved c c' := by
  unfold readTagLen at h
  split at h
  · cases h
    exact Moved.refl hin.2
  · split at h
    · cases h
    · next hlen =>
      split at h
      · cases h
      · cases h
        exact moved_of_udec hin.1 hin.2 hlen

theorem readHead_congr (h : SameRegion s s' c) (hin : InMemory s c) (arr : Bool) (il : BitVec 3) (e0 : Nat) :
    readHead s' arr il e0 c = readHead s arr il e0 c := by
  simp only [readHead, readTagLen_congr h]
  cases hlen : readTagLen s il e0 c with
  | error e => rfl
  | ok nc =>
    obtain ⟨n, c1⟩ := nc
    cases htag : skip c1 n .truncBytes with
    | error e => simp only [htag]
    | ok c2 =>
      have hmoved := (moved_of_readTagLen hin hlen).trans (moved_of_skip htag)
      simp only [htag, readCount_congr (h.moved hmoved)]

theorem readEntry_congr (h : SameRegion s s' c) (hin : InMemory s c) (arr : Bool) (ty : Option EntryType) (il : BitVec 3)
    {e0 : Nat} (he0 : e0 ≤ c.pos) : readEntry s' arr ty il e0 c = readEntry s arr ty il e0 c := by
  simp only [readEntry, readHead_congr h hin]
  obtain ⟨toff, tlen, cnt, c', hhead, hmoved, -⟩ | ⟨e, herror, -⟩ :=
    readHead_stop (arr := arr) (il := il) hin.1 hin.2 he0
  · simp only [hhead, readPayload_congr (h.moved hmoved) (hin.moved hmoved)]
  · simp only [herror]

end

/-! ## The answers of the commands -/

/-- `r'` is what the command that took `s` to `t` answers from `s` with another MEM: the same next state but for MEM, or
the same FormatError. -/
def SameAnswer (i : Instr) (s t : State) (m : Memory) (r' : Result) : Prop :=
  ∃ t', r' = .next t' ∧
    (t.status ≠ 2 → t' = { t with mem := m }) ∧
    (t.status = 2 → ∃ cause pos slot, (ReadsEntry i → slot = some (chooseSlot s)) ∧
      (¬ ReadsEntry i → slot = none) ∧
      Malformed s t cause pos slot ∧ Malformed { s with mem := m } t' cause pos slot)

section
variable {i : Instr} {s t : State} {m : Memory}

theorem sameAnswer_of_completed (ht : t.status ≠ 2) : SameAnswer i s t m (.next { t with mem := m }) :=
  ⟨_, rfl, fun _ => rfl, fun h => absurd h ht⟩

/-- A body that completes, or raises a FormatError, in the same way from both states. -/
theorem sameAnswer_finish {slot : Option Nat} {body body' : Except Stop State} (hregion : s.r.start ≤ s.r.limit)
    (hentry : ReadsEntry i → slot = some (chooseSlot s)) (hother : ¬ ReadsEntry i → slot = none)
    (hbody : (∃ u, body = .ok u ∧ body' = .ok { u with mem := m }) ∨
      ∃ cause p, body = .error (.raised (.format cause p)) ∧ body' = .error (.raised (.format cause p)))
    (hstep : finish s slot body = .next t) : SameAnswer i s t m (finish { s with mem := m } slot body') := by
  rcases hbody with ⟨u, rfl, rfl⟩ | ⟨cause, p, rfl, rfl⟩
  · cases hstep
    exact sameAnswer_of_completed (by decide : statusCode .ok ≠ 2)
  · cases hstep
    exact ⟨_, rfl, fun h => absurd rfl h, fun _ => ⟨causeCode cause, p, slot, hentry, hother,
      takeFormat_malformed cause p slot hregion,
      takeFormat_malformed (s := { s with mem := m }) cause p slot hregion⟩⟩

/-- The tests of the cursor read no MEM. -/
theorem sameAnswer_readerReady {k k' : Result}
    (hk : ReaderReady s → k = .next t → SameAnswer i s t m k') (hstep : readerReady s k = .next t) :
    SameAnswer i s t m (readerReady { s with mem := m } k') := by
  by_cases hinit : s.r.init = true
  · by_cases hkind : s.r.errKind = 0
    · rw [readerReady_ready ⟨hinit, hkind⟩] at hstep
      rw [readerReady_ready (s := { s with mem := m }) ⟨hinit, hkind⟩]
      exact hk ⟨hinit, hkind⟩ hstep
    · rw [readerReady_pending hinit hkind] at hstep
      rw [readerReady_pending (s := { s with mem := m }) hinit hkind]
      cases hstep
      exact sameAnswer_of_completed (by decide : (6 : BitVec 8) ≠ 2)
  · rw [readerReady_notInit (by simpa using hinit)] at hstep
    rw [readerReady_notInit (s := { s with mem := m }) (by simpa using hinit)]
    cases hstep
    exact sameAnswer_of_completed (by decide : (6 : BitVec 8) ≠ 2)

/-- A command that delivers a value read through R. -/
theorem sameAnswer_deliverX0 {M : Except Stop (Word × Cursor)} (hregion : s.r.start ≤ s.r.limit) (hi : ¬ ReadsEntry i)
    (hM : (∃ v c, M = .ok (v, c)) ∨ ∃ e, M = .error e ∧ FormatStop s.r.pos s.r.limit e)
    (hstep : readerData s (deliverX0 s M) = .next t) :
    SameAnswer i s t m (readerData { s with mem := m } (deliverX0 { s with mem := m } M)) := by
  refine sameAnswer_readerReady (fun _ => sameAnswer_finish hregion (fun h => absurd h hi) (fun _ => rfl) ?_) hstep
  rcases hM with ⟨v, c, rfl⟩ | ⟨e, rfl, cause, p, rfl, -⟩
  · exact .inl ⟨_, rfl, rfl⟩
  · exact .inr ⟨cause, p, rfl, rfl⟩

/-- A command that takes an entry. -/
theorem sameAnswer_takeEntry {arr : Bool} {ty : Option EntryType} {il : BitVec 3} (hi : ReadsEntry i)
    (hplaced : ReaderPlaced s) (hinside : s.r.pos < s.r.limit) (hsame : SameRegion s { s with mem := m } s.r)
    (hstep : takeEntry s arr ty il = .next t) : SameAnswer i s t m (takeEntry { s with mem := m } arr ty il) := by
  obtain ⟨hstart, hpos, hmem⟩ := hplaced
  have hmoved : Moved s.r (readerAt s (s.r.pos + 1)) := moved_one hinside
  have hentry := readEntry_congr (hsame.moved hmoved) ⟨hmem, hinside⟩ arr ty il (e0 := s.r.pos) (Nat.le_succ _)
  refine sameAnswer_finish (hstart.trans hpos) (fun _ => rfl) (fun h => absurd hi h) ?_ hstep
  rw [hentry]
  obtain ⟨v, c, -, hok, -⟩ | ⟨e, herror, cause, p, rfl, -⟩ :=
    readEntry_stop (s := s) (arr := arr) (ty := ty) (il := il) (c := readerAt s (s.r.pos + 1)) hmem hinside (Nat.le_succ _)
  · rw [hok]
    exact .inl ⟨_, rfl, rfl⟩
  · rw [herror]
    exact .inr ⟨cause, p, rfl, rfl⟩

theorem sameAnswer_readsEntry (hi : ReadsEntry i) (hplaced : ReaderPlaced s)
    (hsame : SameRegion s { s with mem := m } s.r) (hstep : exec i s = .next t) :
    SameAnswer i s t m (exec i { s with mem := m }) := by
  obtain ⟨arr, ty, il, hexec⟩ := exec_readsEntry hi
  have ⟨_, _, hmem⟩ := hplaced
  rw [hexec] at hstep ⊢
  refine sameAnswer_readerReady (fun _ hk => ?_) hstep
  by_cases hend : s.r.limit ≤ s.r.pos
  · rw [if_pos hend] at hk ⊢
    cases hk
    exact sameAnswer_of_completed (by decide : statusCode .endOfDoc ≠ 2)
  · have hinside : s.r.pos < s.r.limit := by omega
    rw [if_neg hend, if_pos (by omega)] at hk
    rw [if_neg hend, if_pos (by simp only; omega), hsame.2 _ (Nat.le_refl _) hinside]
    exact sameAnswer_takeEntry hi hplaced hinside hsame hk

end

/-- The commands that deliver a value read through R. -/
theorem sameAnswer_get {i : Instr} {s t : State} {m : Memory} {n : Nat} (hget : (i, n) ∈ getCommands)
    (hi : ¬ ReadsEntry i) (hplaced : ReaderPlaced s) (hsame : SameRegion s { s with mem := m } s.r)
    (hstep : exec i s = .next t) : SameAnswer i s t m (exec i { s with mem := m }) := by
  obtain ⟨hstart, hpos, hmem⟩ := hplaced
  have hread : unpackR { s with mem := m } n = unpackR s n := by
    rw [unpackR, rdN_congr hsame, unpackR]
  rw [exec_of_mem_getCommands hget] at hstep ⊢
  simp only at hstep ⊢
  rw [hread]
  refine sameAnswer_deliverX0 (hstart.trans hpos) hi ?_ hstep
  obtain ⟨-, hok⟩ | ⟨-, herror⟩ := rdN_cases (s := s) (c := s.r) n hmem
  · exact .inl ⟨_, _, by rw [unpackR, hok]⟩
  · exact .inr ⟨_, by rw [unpackR, herror], _, _, rfl, Nat.le_refl _, hpos⟩

/-- Settles O59: the reads of every command stay in the region, so its body is the same from both states. -/
theorem readersSeeTheirRegionOnly : Obligations.ReadersSeeTheirRegionOnly := by
  intro i s t m hplaced hi hbytes hstep
  have hsame : SameRegion s { s with mem := m } s.r := ⟨rfl, hbytes⟩
  have ⟨hstart, hpos, hmem⟩ := hplaced
  show SameAnswer i s t m (exec i { s with mem := m })
  rcases hi with hcommand | hentry
  · simp only [List.mem_cons, List.not_mem_nil, or_false] at hcommand
    rcases hcommand with rfl | rfl | rfl | rfl | rfl | rfl | rfl | rfl
    · rw [exec_vgetu] at hstep ⊢
      rw [udecWord_congr hsame]
      refine sameAnswer_deliverX0 (hstart.trans hpos) (not_readsEntry (by simp) rfl) ?_ hstep
      obtain ⟨v, c, hok, -⟩ | ⟨e, herror, hstop⟩ := udec_stop (s := s) (c := s.r) hmem hpos
      · exact .inl ⟨_, _, udecWord_of_ok hok⟩
      · exact .inr ⟨e, udecWord_of_error herror, hstop⟩
    · rw [exec_vgets] at hstep ⊢
      rw [sdecWord_congr hsame]
      refine sameAnswer_deliverX0 (hstart.trans hpos) (not_readsEntry (by simp) rfl) ?_ hstep
      obtain ⟨v, c, hok, -⟩ | ⟨e, herror, hstop⟩ := sdec_stop (s := s) (c := s.r) hmem hpos
      · exact .inl ⟨_, _, sdecWord_of_ok hok⟩
      · exact .inr ⟨e, sdecWord_of_error herror, hstop⟩
    · exact sameAnswer_get (n := 1) (by decide) (not_readsEntry (by simp) rfl) hplaced hsame hstep
    · exact sameAnswer_get (n := 2) (by decide) (not_readsEntry (by simp) rfl) hplaced hsame hstep
    · exact sameAnswer_get (n := 4) (by decide) (not_readsEntry (by simp) rfl) hplaced hsame hstep
    · exact sameAnswer_get (n := 8) (by decide) (not_readsEntry (by simp) rfl) hplaced hsame hstep
    · exact sameAnswer_get (n := 8) (by decide) (not_readsEntry (by simp) rfl) hplaced hsame hstep
    · rw [exec_rrem] at hstep ⊢
      refine sameAnswer_readerReady (fun _ hk => ?_) hstep
      cases hk
      exact sameAnswer_of_completed (by decide : (0 : BitVec 8) ≠ 2)
  · exact sameAnswer_readsEntry hentry hplaced hsame hstep

end Sys2Proof.Machine
end

section
/-! Reserve-then-patch (43_serializer.md R162, R173 to R176): every stage of the procedure is one write at W.POS, and
what a later stage writes over an earlier one is one write of the later bytes. -/

namespace Sys2Proof.Machine

/-! ## Writes over writes -/

theorem Memory.writeBytes_append (m : Memory) (a : Nat) (xs ys : List Byte) :
    m.writeBytes a (xs ++ ys) = (m.writeBytes a xs).writeBytes (a + xs.length) ys := by
  induction xs generalizing m a with
  | nil => rfl
  | cons x xs ih =>
    rw [List.cons_append, Memory.writeBytes, Memory.writeBytes, ih, List.length_cons, Nat.add_right_comm, Nat.add_assoc]

/-- A canonical memory is what its positions read. -/
theorem Memory.writeBytes_eq_of_lookup {m n : Memory} (hm : m.wf) (hn : n.wf) {a : Nat} {bs : List Byte}
    (hinside : ∀ k, (hk : k < bs.length) → n.lookup (a + k) = some bs[k])
    (houtside : ∀ x, x < a ∨ a + bs.length ≤ x → n.lookup x = m.lookup x) : n = m.writeBytes a bs := by
  refine Memory.ext_of_wf hn (Memory.wf_writeBytes hm a bs) fun x => ?_
  rw [Memory.lookup_writeBytes]
  by_cases h : a ≤ x ∧ x < a + bs.length
  · obtain ⟨k, rfl⟩ := Nat.exists_eq_add_of_le h.1
    have hk : k < bs.length := by omega
    rw [if_pos h, hinside k hk, Nat.add_sub_cancel_left, List.getD_eq_getElem _ 0 hk]
  · rw [if_neg h, houtside x (by omega)]

theorem Memory.lookup_writeBytes_inside (m : Memory) (a : Nat) {bs : List Byte} {k : Nat} (hk : k < bs.length) :
    (m.writeBytes a bs).lookup (a + k) = some bs[k] := by
  rw [Memory.lookup_writeBytes, if_pos (by omega), Nat.add_sub_cancel_left, List.getD_eq_getElem _ 0 hk]

theorem Memory.lookup_writeBytes_outside (m : Memory) {a x : Nat} {bs : List Byte} (h : x < a ∨ a + bs.length ≤ x) :
    (m.writeBytes a bs).lookup x = m.lookup x := by
  rw [Memory.lookup_writeBytes, if_neg (by omega)]

/-- A longer write covers a shorter one at the same position. -/
theorem Memory.writeBytes_over {m : Memory} (hm : m.wf) (a : Nat) {xs ys : List Byte} (h : xs.length ≤ ys.length) :
    (m.writeBytes a xs).writeBytes a ys = m.writeBytes a ys := by
  refine Memory.writeBytes_eq_of_lookup hm (Memory.wf_writeBytes (Memory.wf_writeBytes hm a xs) a ys)
    (fun k hk => Memory.lookup_writeBytes_inside _ a hk) fun x hx => ?_
  rw [Memory.lookup_writeBytes_outside _ hx, Memory.lookup_writeBytes_outside _ (by omega)]

/-- The front of a write is replaced by as many bytes. -/
theorem Memory.writeBytes_front {m : Memory} (hm : m.wf) (a : Nat) {xs xs' : List Byte} (ys : List Byte)
    (h : xs'.length = xs.length) : (m.writeBytes a (xs ++ ys)).writeBytes a xs' = m.writeBytes a (xs' ++ ys) := by
  refine Memory.writeBytes_eq_of_lookup hm (Memory.wf_writeBytes (Memory.wf_writeBytes hm a _) a xs') (fun k hk => ?_)
    fun x hx => ?_
  · by_cases hfront : k < xs'.length
    · rw [Memory.lookup_writeBytes_inside _ a hfront, List.getElem_append_left hfront]
    · have hk' : k < (xs ++ ys).length := by
        rw [List.length_append] at hk ⊢
        omega
      rw [Memory.lookup_writeBytes_outside _ (by omega), Memory.lookup_writeBytes_inside _ a hk',
        List.getElem_append_right (by omega), List.getElem_append_right (by omega)]
      simp only [h]
  · rw [List.length_append] at hx
    rw [Memory.lookup_writeBytes_outside _ (by omega),
      Memory.lookup_writeBytes_outside _ (by rw [List.length_append]; omega)]

/-! ## The stages as states -/

section
variable {s : State} {xs ys : List Byte}

/-- Everything but MEM and W.POS as in `s`. -/
def placedAt (s : State) (m : Memory) (p : Nat) : State := { s with mem := m, w := { s.w with pos := p } }

theorem stored_eq (s : State) (bs : List Byte) :
    stored s bs = placedAt s (s.mem.writeBytes s.w.pos bs) (s.w.pos + bs.length) := rfl

theorem stored_stored (s : State) (xs ys : List Byte) : stored (stored s xs) ys = stored s (xs ++ ys) := by
  rw [stored_eq s (xs ++ ys), Memory.writeBytes_append, List.length_append, ← Nat.add_assoc]
  rfl

theorem wf_stored (h : s.mem.wf) (bs : List Byte) : (stored s bs).mem.wf := Memory.wf_writeBytes h _ _

/-- Going back to where a write began and writing at least as much. -/
theorem stored_over (h : s.mem.wf) (hlength : xs.length ≤ ys.length) :
    stored (moveW s.w.pos (stored s xs)) ys = stored s ys :=
  congrArg (placedAt s · (s.w.pos + ys.length)) (Memory.writeBytes_over h s.w.pos hlength)

/-- Going back to where a write began, replacing its front and going forth again. -/
theorem stored_front (h : s.mem.wf) {xs' : List Byte} (ys : List Byte) (hlength : xs'.length = xs.length) :
    moveW (s.w.pos + xs.length + ys.length) (stored (moveW s.w.pos (stored s (xs ++ ys))) xs') =
      stored s (xs' ++ ys) := by
  rw [stored_eq s (xs' ++ ys), ← Memory.writeBytes_front h s.w.pos ys hlength, List.length_append, hlength,
    ← Nat.add_assoc]
  rfl

/-- A byte poked over the first of a write. -/
theorem poke_stored (h : s.mem.wf) (b b' : Byte) (ys : List Byte) :
    poke s.w.pos b' (stored s (b :: ys)) = stored s (b' :: ys) :=
  congrArg (placedAt s · (s.w.pos + (ys.length + 1)))
    (Memory.writeBytes_front h s.w.pos (xs := [b]) (xs' := [b']) ys rfl)

theorem wrbytes_of_fits (hmem : s.w.limit ≤ s.cfg.memSize) (h : s.w.pos + xs.length ≤ s.w.limit) :
    wrbytes s xs = .ok (stored s xs) := by
  rw [wrbytes, if_neg (Nat.not_lt.mpr h), storeAtW_ok (h.trans hmem)]

theorem wrbytes_of_short (h : s.w.limit < s.w.pos + xs.length) : wrbytes s xs = .error (.raised .bufferTooSmall) :=
  if_pos h

theorem wr8_eq_wrbytes (s : State) (b : Byte) : wr8 s b = wrbytes s [b] := if_congr Nat.lt_succ_iff.symm rfl rfl

/-- Two writes one after the other are one write, and raise where it does. -/
theorem andThen_wrbytes {k : State → Except Stop State} (hmem : s.w.limit ≤ s.cfg.memSize)
    (hk : k (stored s xs) = wrbytes (stored s xs) ys) : andThen (wrbytes s xs) k = wrbytes s (xs ++ ys) := by
  have hlength : s.w.pos + (xs ++ ys).length = s.w.pos + xs.length + ys.length := by
    rw [List.length_append, Nat.add_assoc]
  rcases Nat.lt_or_ge s.w.limit (s.w.pos + xs.length) with hshort | hfits
  · rw [wrbytes_of_short hshort, wrbytes_of_short (by omega), andThen]
  · rw [wrbytes_of_fits hmem hfits, andThen, hk]
    rcases Nat.lt_or_ge s.w.limit (s.w.pos + xs.length + ys.length) with hshort | hfits'
    · rw [wrbytes_of_short hshort, wrbytes_of_short (by omega)]
    · rw [wrbytes_of_fits (s := stored s xs) hmem hfits', wrbytes_of_fits hmem (by omega), stored_stored]

/-- Going back to where a write began and writing at least as much raises where the second write alone does. -/
theorem wrbytes_over (hmem : s.w.limit ≤ s.cfg.memSize) (h : s.mem.wf) (hlength : xs.length ≤ ys.length) :
    wrbytes (moveW s.w.pos (stored s xs)) ys = wrbytes s ys := by
  rcases Nat.lt_or_ge s.w.limit (s.w.pos + ys.length) with hshort | hfits
  · rw [wrbytes_of_short hshort]
    exact wrbytes_of_short (s := moveW s.w.pos (stored s xs)) hshort
  · rw [wrbytes_of_fits hmem hfits, ← stored_over h hlength]
    exact wrbytes_of_fits (s := moveW s.w.pos (stored s xs)) hmem hfits

/-- A procedure that writes no more at first than in the end: where the provisional bytes do not fit, the final ones do
not either, and where they do, the rest of the procedure decides. -/
theorem andThen_provisional {k : State → State → Except Stop State} {final : List Byte}
    (hmem : s.w.limit ≤ s.cfg.memSize) (hlength : (xs ++ ys).length ≤ final.length)
    (hk : s.w.pos + (xs ++ ys).length ≤ s.w.limit → k (stored s xs) (stored s (xs ++ ys)) = wrbytes s final) :
    andThen (wrbytes s xs) (fun s1 => andThen (wrbytes s1 ys) (k s1)) = wrbytes s final := by
  rw [List.length_append] at hlength hk
  rcases Nat.lt_or_ge s.w.limit (s.w.pos + xs.length) with hshort | hfits
  · rw [wrbytes_of_short hshort, wrbytes_of_short (by omega), andThen]
  · rw [wrbytes_of_fits hmem hfits, andThen]
    rcases Nat.lt_or_ge s.w.limit (s.w.pos + xs.length + ys.length) with hshort | hfits'
    · rw [wrbytes_of_short (s := stored s xs) hshort, wrbytes_of_short (by omega), andThen]
    · rw [wrbytes_of_fits (s := stored s xs) hmem hfits', andThen, stored_stored, hk (by omega)]

end

/-! ## The transcoder and the lengths (R162, R175) -/

theorem fastTranscode_eq {us : List CodeUnit} {bs : List Byte} (h : fastTranscode us = some bs) : bs = utf8 us := by
  induction us generalizing bs with
  | nil =>
    cases h
    rfl
  | cons u us ih =>
    rw [fastTranscode] at h
    split at h
    case isTrue => cases h
    case isFalse hplain =>
      split at h
      case h_1 rest hrest =>
        cases h
        have hhigh : isHigh u = false := by
          simp only [Bool.or_eq_true, not_or, Bool.not_eq_true] at hplain
          exact hplain.1
        rw [utf8_cons_of_notHigh hhigh, ih hrest]
      case h_2 => cases h

/-- The fast path gives up before it could differ. -/
theorem transcode_eq_utf8 (us : List CodeUnit) : transcode us = utf8 us := by
  rw [transcode]
  split
  case h_1 bs hfast => exact fastTranscode_eq hfast
  case h_2 => rfl

/-- A longer value has no shorter varint. -/
theorem length_uleb_mono {n m : Nat} (hm : m < 2 ^ 64) (h : n ≤ m) : (uleb n).length ≤ (uleb m).length := by
  obtain ⟨-, hbound, -⟩ := ulebIsShortest m hm
  obtain ⟨-, -, hleast, -⟩ := ulebIsShortest n (h.trans_lt hm)
  have hpos : 1 ≤ (uleb m).length := length_ulebGroups_pos 9 m
  rcases hleast with hone | hleast
  · omega
  · have hpowers := (Nat.pow_lt_pow_iff_right (by decide : 1 < 2)).mp ((hleast.trans h).trans_lt hbound)
    omega

/-! ## Counted texts (R174, R175) -/

theorem patchCounted_eq {s : State} {us : List CodeUnit} (hmem : s.w.limit ≤ s.cfg.memSize) (hwf : s.mem.wf)
    (hleast : us.length ≤ (utf8 us).length) (hmost : (utf8 us).length < 2 ^ 64) :
    patchCounted us s = wrbytes s (counted (utf8 us)) := by
  have hlengths := length_uleb_mono hmost hleast
  have hprovisional : (uleb us.length ++ utf8 us).length ≤ (counted (utf8 us)).length := by
    rw [counted, List.length_append, List.length_append]
    omega
  simp only [patchCounted, transcode_eq_utf8]
  refine andThen_provisional hmem hprovisional fun hfits => ?_
  by_cases hsame : (utf8 us).length = us.length
  · rw [if_pos hsame, counted, hsame, wrbytes_of_fits hmem hfits]
  · rw [if_neg hsame]
    by_cases hmoves : retranscode us.length (utf8 us).length = true
    · simp only [hmoves, if_true]
      rw [andThen_wrbytes (s := moveW s.w.pos (stored s (uleb us.length ++ utf8 us))) hmem rfl]
      exact wrbytes_over hmem hwf hprovisional
    · have hfront : (uleb (utf8 us).length).length = (uleb us.length).length := by
        have hagree : ¬ (uleb us.length).length ≠ (uleb (utf8 us).length).length := by simpa [retranscode] using hmoves
        exact (not_not.mp hagree).symm
      rw [List.length_append] at hfits
      have hroom : s.w.pos + (uleb (utf8 us).length).length ≤ s.w.limit := by omega
      have hfinal : s.w.pos + (counted (utf8 us)).length ≤ s.w.limit := by
        rw [counted, List.length_append]
        omega
      rw [wrbytes_of_fits (s := moveW s.w.pos (stored s (uleb us.length ++ utf8 us))) hmem hroom, andThen,
        if_neg hmoves, wrbytes_of_fits hmem hfinal, counted, ← stored_front hwf (utf8 us) hfront]
      rfl

/-! ## Tags (R173, R174) -/

theorem lookup_poke (s : State) (a : Nat) (b : Byte) (x : Nat) :
    (poke a b s).mem.lookup x = if x = a then some b else s.mem.lookup x := Memory.lookup_insert s.mem a b x

/-- Moving bytes up, the highest first, reads none that it has written. -/
theorem lookup_shiftUp (a m : Nat) (s : State) (x : Nat) :
    (shiftUp a m s).mem.lookup x = if a < x ∧ x ≤ a + m then some (s.byteAt (x - 1)) else s.mem.lookup x := by
  induction m generalizing s with
  | zero =>
    rw [shiftUp, if_neg (by omega)]
  | succ m ih =>
    rw [shiftUp, ih, lookup_poke]
    rcases Nat.lt_trichotomy x (a + m + 1) with hbelow | rfl | habove
    · have hunread : (poke (a + m + 1) (s.byteAt (a + m)) s).byteAt (x - 1) = s.byteAt (x - 1) := by
        rw [State.byteAt, lookup_poke, if_neg (by omega)]
        rfl
      rw [if_neg (by omega : ¬ x = a + m + 1), hunread]
      exact if_congr (by omega) rfl rfl
    · rw [if_neg (by omega), if_pos rfl, if_pos (by omega), Nat.add_sub_cancel]
    · rw [if_neg (by omega), if_neg (by omega), if_neg (by omega)]

/-- Moving bytes in MEM changes MEM alone. -/
theorem shiftUp_eq (a m : Nat) (s : State) : shiftUp a m s = { s with mem := (shiftUp a m s).mem } := by
  induction m generalizing s with
  | zero => rfl
  | succ m ih => exact ih _

/-- The tag moved one position up, with its length put in the gap. -/
theorem shifted_eq {s : State} (hwf : s.mem.wf) (b l : Byte) (tag : List Byte) :
    moveW (s.w.pos + 2 + tag.length)
      (poke s.w.pos b (poke (s.w.pos + 1) l (shiftUp (s.w.pos + 1) tag.length (stored s (b :: tag))))) =
      stored s (b :: l :: tag) := by
  have htag {k : Nat} (hk : k < tag.length) : (stored s (b :: tag)).byteAt (s.w.pos + 1 + k) = tag[k] := by
    have hinside : k + 1 < (b :: tag).length := Nat.succ_lt_succ hk
    rw [stored_byteAt, if_pos (by omega), show s.w.pos + 1 + k - s.w.pos = k + 1 by omega, List.getD_eq_getElem _ 0 hinside,
      List.getElem_cons_succ]
  have hmem : (poke s.w.pos b (poke (s.w.pos + 1) l (shiftUp (s.w.pos + 1) tag.length (stored s (b :: tag))))).mem =
      s.mem.writeBytes s.w.pos (b :: l :: tag) := by
    refine Memory.writeBytes_eq_of_lookup hwf (wf_poke (wf_poke (wf_shiftUp _ _ (wf_stored hwf _)) _ _) _ _)
      (fun k hk => ?_) fun x hx => ?_
    · rw [lookup_poke, lookup_poke, lookup_shiftUp]
      match k, hk with
      | 0, _ => rw [Nat.add_zero, if_pos rfl, List.getElem_cons_zero]
      | 1, _ => rw [if_neg (by omega), if_pos rfl, List.getElem_cons_succ, List.getElem_cons_zero]
      | k + 2, hk =>
        have hk' : k < tag.length := Nat.lt_of_succ_lt_succ (Nat.lt_of_succ_lt_succ hk)
        rw [if_neg (by omega), if_neg (by omega), if_pos (by omega), show s.w.pos + (k + 2) - 1 = s.w.pos + 1 + k by omega,
          htag hk', List.getElem_cons_succ, List.getElem_cons_succ]
    · rw [List.length_cons, List.length_cons] at hx
      rw [lookup_poke, lookup_poke, lookup_shiftUp, if_neg (by omega), if_neg (by omega), if_neg (by omega)]
      exact Memory.lookup_writeBytes_outside _ (by rw [List.length_cons]; omega)
  rw [stored_eq s (b :: l :: tag), ← hmem, shiftUp_eq, List.length_cons, List.length_cons, Nat.add_assoc, Nat.add_comm 2]
  rfl

theorem uleb_of_lt {m : Nat} (h : m < 128) : uleb m = [BitVec.ofNat 8 m] := by
  have hquotient : m / 128 = 0 := Nat.div_eq_of_lt h
  rw [uleb_turn (by omega), if_pos hquotient, Nat.mod_eq_of_lt h]

theorem patchShortTag_eq {s : State} (ty : EntryType) {us : List CodeUnit} (hmem : s.w.limit ≤ s.cfg.memSize)
    (hwf : s.mem.wf) (hshort : (utf8 us).length < 128) : patchShortTag ty us s = wrbytes s (hdr false ty (utf8 us)) := by
  simp only [patchShortTag, transcode_eq_utf8, wr8_eq_wrbytes]
  by_cases hinline : (utf8 us).length < 8
  · rw [hdr_of_inline false ty (by omega)]
    refine andThen_provisional hmem (Nat.le_refl _) fun hfits => ?_
    rw [if_pos hinline, wrbytes_of_fits (xs := headerByte false ty (utf8 us).length :: utf8 us) hmem hfits]
    exact congrArg Except.ok (poke_stored hwf _ _ _)
  · rw [hdr_of_explicit false ty (by omega), uleb_of_lt hshort]
    refine andThen_provisional hmem (by simp) fun _ => ?_
    rw [if_neg hinline]
    rcases Nat.lt_or_ge s.w.limit (s.w.pos + 2 + (utf8 us).length) with hlong | hfits
    · rw [wrbytes_of_short (by simp only [List.length_cons, List.singleton_append]; omega)]
      exact if_pos hlong
    · rw [wrbytes_of_fits hmem (by simp only [List.length_cons, List.singleton_append]; omega)]
      exact (if_neg (Nat.not_lt.mpr hfits)).trans (congrArg Except.ok (shifted_eq hwf _ _ _))

theorem patchLongTag_eq {s : State} (ty : EntryType) {us : List CodeUnit} (hmem : s.w.limit ≤ s.cfg.memSize)
    (hwf : s.mem.wf) (hlong : 8 ≤ us.length) (hleast : us.length ≤ (utf8 us).length)
    (hmost : (utf8 us).length < 2 ^ 64) : patchLongTag ty us s = wrbytes s (hdr false ty (utf8 us)) := by
  rw [patchLongTag, wr8_eq_wrbytes, hdr_of_explicit false ty (hlong.trans hleast)]
  exact andThen_wrbytes hmem (patchCounted_eq hmem (wf_stored hwf _) hleast hmost)

/-- What R161 says of the texts a procedure is given: the actual length lies between the estimate and three times it. -/
theorem utf8_lengths {us : List CodeUnit} (hpaired : Paired us) (hlength : us.length < 2 ^ 32) :
    us.length ≤ (utf8 us).length ∧ (utf8 us).length ≤ 3 * us.length ∧ (utf8 us).length < 2 ^ 64 := by
  obtain ⟨hleast, hmost, -⟩ := utf8LengthBounds us hpaired
  exact ⟨hleast, hmost, by omega⟩

theorem patchTag_eq {s : State} (ty : EntryType) {us : List CodeUnit} (hmem : s.w.limit ≤ s.cfg.memSize) (hwf : s.mem.wf)
    (hpaired : Paired us) (hlength : us.length < 2 ^ 32) : patchTag ty us s = wrbytes s (hdr false ty (utf8 us)) := by
  obtain ⟨hleast, hmost, hword⟩ := utf8_lengths hpaired hlength
  rw [patchTag]
  by_cases hshort : us.length < 8
  · rw [if_pos hshort]
    exact patchShortTag_eq ty hmem hwf (by omega)
  · rw [if_neg hshort]
    exact patchLongTag_eq ty hmem hwf (by omega) hleast hword

/-! ## Entries (R157, R173 to R176) -/

/-- A header but for its array flag. -/
theorem hdr_eq_cons (ty : EntryType) (tag : List Byte) :
    ∃ il rest, il ≤ 7 ∧ ∀ arr, hdr arr ty tag = headerByte arr ty il :: rest := by
  rcases Nat.lt_or_ge 7 tag.length with hexplicit | hinline
  · exact ⟨0, _, by decide, fun arr => hdr_of_explicit arr ty hexplicit⟩
  · exact ⟨tag.length, _, hinline, fun arr => hdr_of_inline arr ty hinline⟩

/-- The array bit of a first byte (R157). -/
theorem headerByte_array (ty : EntryType) {il : Nat} (hil : il ≤ 7) :
    headerByte false ty il ||| 0x80 = headerByte true ty il := by
  interval_cases il <;> cases ty <;> decide

/-- The first byte of a header just written, rewritten with the array bit set. -/
theorem poke_array {s : State} (hwf : s.mem.wf) (ty : EntryType) (tag : List Byte) :
    poke s.w.pos ((stored s (hdr false ty tag)).byteAt s.w.pos ||| 0x80) (stored s (hdr false ty tag)) =
      stored s (hdr true ty tag) := by
  obtain ⟨il, rest, hil, hhdr⟩ := hdr_eq_cons ty tag
  have hfirst : (stored s (headerByte false ty il :: rest)).byteAt s.w.pos = headerByte false ty il := by
    rw [stored_byteAt, if_pos ⟨Nat.le_refl _, by rw [List.length_cons]; omega⟩, Nat.sub_self, List.getD_cons_zero]
  rw [hhdr, hhdr, hfirst, headerByte_array ty hil, poke_stored hwf]

theorem length_hdr_array (ty : EntryType) (tag : List Byte) : (hdr true ty tag).length = (hdr false ty tag).length := by
  obtain ⟨il, rest, -, hhdr⟩ := hdr_eq_cons ty tag
  rw [hhdr, hhdr, List.length_cons, List.length_cons]

theorem patchArray_eq {s : State} (ty : EntryType) {tag : List CodeUnit} (count : Nat)
    (hmem : s.w.limit ≤ s.cfg.memSize) (hwf : s.mem.wf) (hpaired : Paired tag) (hlength : tag.length < 2 ^ 32) :
    patchArray ty tag count s = wrbytes s (hdr true ty (utf8 tag) ++ uleb count) := by
  rw [patchArray, patchTag_eq ty hmem hwf hpaired hlength, ← andThen_wrbytes (k := fun s1 => wrbytes s1 (uleb count)) hmem rfl]
  have hlengths := length_hdr_array ty (utf8 tag)
  rcases Nat.lt_or_ge s.w.limit (s.w.pos + (hdr false ty (utf8 tag)).length) with hshort | hfits
  · rw [wrbytes_of_short hshort, wrbytes_of_short (by omega)]
    rfl
  · rw [wrbytes_of_fits hmem hfits, wrbytes_of_fits hmem (by omega), andThen, andThen, poke_array hwf]

/-- Settles O38: every stage of the three procedures is a write, and a later stage covers the earlier ones. -/
theorem reserveThenPatchWritesFinalBytes : Obligations.ReserveThenPatchWritesFinalBytes := by
  intro s ty tag value count ⟨_, hmem⟩ hwf _ htag hvalue _ htagPaired hvaluePaired
  obtain ⟨hleast, -, hword⟩ := utf8_lengths hvaluePaired hvalue
  refine ⟨?_, patchTag_eq ty hmem hwf htagPaired htag, patchArray_eq ty count hmem hwf htagPaired htag⟩
  rw [patchStringScalar, patchTag_eq .string hmem hwf htagPaired htag]
  exact andThen_wrbytes hmem (patchCounted_eq hmem (wf_stored hwf _) hleast hword)

end Sys2Proof.Machine
end

section
/-! The round trip of a document (43_serializer.md R177): the bytes the byte-form commands write, and what NEXT and the
accessors make of these bytes. -/

namespace Sys2Proof.Machine

/-! ## The bytes of a document -/

/-- A document entry taken apart alike for scalars and arrays: a scalar is one value and has no count. -/
def DocEntry.isArray : DocEntry → Bool
  | .scalar .. => false
  | .array .. => true

def DocEntry.type : DocEntry → EntryType
  | .scalar ty .. => ty
  | .array ty .. => ty

def DocEntry.tag : DocEntry → List Byte
  | .scalar _ tag .. => tag
  | .array _ tag _ => tag

def DocEntry.values : DocEntry → List (Word × List Byte)
  | .scalar _ _ a d => [(a, d)]
  | .array _ _ els => els

def DocEntry.countBytes : DocEntry → List Byte
  | .scalar .. => []
  | .array _ _ els => uleb els.length

/-- The inline field of byte0 for a tag (R151). -/
def inlineLength (tag : List Byte) : BitVec 3 := if tag.length ≤ 7 then BitVec.ofNat 3 tag.length else 0

/-- The tag length where it is not inline (R151). -/
def lengthBytes (tag : List Byte) : List Byte := if tag.length ≤ 7 then [] else uleb tag.length

/-- The elements of an entry, one after the other (R152). -/
def payloadOf (ty : EntryType) (vals : List (Word × List Byte)) : List Byte :=
  vals.flatMap fun v => elemBytes ty v.1 v.2

/-- What follows byte0. -/
def DocEntry.tail (e : DocEntry) : List Byte := lengthBytes e.tag ++ e.tag ++ e.countBytes ++ payloadOf e.type e.values

def DocEntry.bytes (e : DocEntry) : List Byte :=
  packByte0 e.isArray (typeCode e.type) (inlineLength e.tag) :: e.tail

theorem toNat_inlineLength_of_le {tag : List Byte} (h : tag.length ≤ 7) : (inlineLength tag).toNat = tag.length := by
  rw [inlineLength, if_pos h, BitVec.toNat_ofNat]
  omega

theorem hdr_eq_packByte0 (arr : Bool) (ty : EntryType) (tag : List Byte) :
    hdr arr ty tag = packByte0 arr (typeCode ty) (inlineLength tag) :: (lengthBytes tag ++ tag) := by
  rcases Nat.lt_or_ge 7 tag.length with hexplicit | hinline
  · rw [hdr_of_explicit arr ty hexplicit, inlineLength, lengthBytes, if_neg (Nat.not_le.mpr hexplicit),
      if_neg (Nat.not_le.mpr hexplicit)]
    rfl
  · rw [hdr_of_inline arr ty hinline, packByte0, toNat_inlineLength_of_le hinline, lengthBytes, if_pos hinline]
    rfl

/-! ## Writing a document -/

/-- A command that hands `bs` to `wrbytes`, whatever the state. -/
def Writes (i : Instr) (bs : List Byte) : Prop := ∀ u, exec i u = writerData u (.ok (wrbytes u bs))

/-- Commands that write, and all that they write. -/
inductive WritesAll : List Instr → List Byte → Prop
  | nil : WritesAll [] []
  | cons {i : Instr} {bs : List Byte} {is : List Instr} {rest : List Byte} :
    Writes i bs → WritesAll is rest → WritesAll (i :: is) (bs ++ rest)

theorem WritesAll.single {i : Instr} {bs : List Byte} (h : Writes i bs) : WritesAll [i] bs := by
  have hall := WritesAll.cons h .nil
  rwa [List.append_nil] at hall

theorem WritesAll.append {is js : List Instr} {xs ys : List Byte} (hxs : WritesAll is xs) (hys : WritesAll js ys) :
    WritesAll (is ++ js) (xs ++ ys) := by
  induction hxs with
  | nil => exact hys
  | cons hfirst _ ih =>
    rw [List.cons_append, List.append_assoc]
    exact .cons hfirst ih

theorem toNat_tyOperand (ty : EntryType) : (tyOperand ty).toNat = typeCode ty := by
  cases ty <;> rfl

theorem writes_escalar (ty : EntryType) {tag : List Byte} (htag : tag ≠ []) (a : Word) (d : List Byte) :
    Writes (.escalar (tyOperand ty) tag a d) (hdr false ty tag ++ elemBytes ty a d) := by
  intro u
  rw [exec_escalar, scalarBytes_of_typeCode tag a d (toNat_tyOperand ty), if_neg (mt List.length_eq_zero_iff.mp htag)]
  rfl

theorem writes_earray (ty : EntryType) {tag : List Byte} (htag : tag ≠ []) (a : Word) :
    Writes (.earray (tyOperand ty) tag a) (hdr true ty tag ++ uleb a.toNat) := by
  intro u
  rw [exec_earray, arrayBytes_of_typeCode tag a (toNat_tyOperand ty), if_neg (mt List.length_eq_zero_iff.mp htag)]
  rfl

theorem writes_eelem (ty : EntryType) (a : Word) (d : List Byte) :
    Writes (.eelem (tyOperand ty) a d) (elemBytes ty a d) := by
  intro u
  rw [exec_eelem, elementBytes_of_typeCode a d (toNat_tyOperand ty)]
  rfl

theorem writesAll_elements (ty : EntryType) (vals : List (Word × List Byte)) :
    WritesAll (vals.map fun v => .eelem (tyOperand ty) v.1 v.2) (payloadOf ty vals) := by
  induction vals with
  | nil => exact .nil
  | cons v vals ih => exact .cons (writes_eelem ty v.1 v.2) ih

theorem writesAll_entry {e : DocEntry} (he : e.writable) : WritesAll e.commands e.bytes := by
  cases e with
  | scalar ty tag a d =>
    have hbytes : hdr false ty tag ++ elemBytes ty a d = (DocEntry.scalar ty tag a d).bytes := by
      simp [hdr_eq_packByte0, DocEntry.bytes, DocEntry.tail, DocEntry.isArray, DocEntry.type, DocEntry.tag,
        DocEntry.values, DocEntry.countBytes, payloadOf]
    obtain ⟨htag, -, -⟩ := he
    exact hbytes ▸ .single (writes_escalar ty htag a d)
  | array ty tag els =>
    obtain ⟨htag, -, hcount, -⟩ := he
    have hword : (BitVec.ofNat 64 els.length).toNat = els.length := Nat.mod_eq_of_lt hcount
    have hbytes : hdr true ty tag ++ uleb (BitVec.ofNat 64 els.length).toNat ++ payloadOf ty els =
        (DocEntry.array ty tag els).bytes := by
      simp [hdr_eq_packByte0, DocEntry.bytes, DocEntry.tail, DocEntry.isArray, DocEntry.type, DocEntry.tag,
        DocEntry.values, DocEntry.countBytes, hword]
    exact hbytes ▸ .cons (writes_earray ty htag _) (writesAll_elements ty els)

theorem writesAll_document {doc : List DocEntry} (hdoc : ∀ e ∈ doc, e.writable) :
    WritesAll (doc.flatMap DocEntry.commands) (doc.flatMap DocEntry.bytes) := by
  induction doc with
  | nil => exact .nil
  | cons e doc ih =>
    exact (writesAll_entry (hdoc e List.mem_cons_self)).append (ih fun x hx => hdoc x (List.mem_cons_of_mem _ hx))

theorem execAll_cons_eq_some {i : Instr} {is : List Instr} {u w : State} (h : execAll (i :: is) u = some w) :
    ∃ t, exec i u = .next t ∧ execAll is t = some w := by
  rw [execAll] at h
  split at h
  case h_1 t ht => exact ⟨t, ht, h⟩
  case h_2 => cases h

theorem execAll_keeps_inv {is : List Instr} {u w : State} (hu : Inv u) (hrun : execAll is u = some w) : Inv w := by
  induction is generalizing u with
  | nil =>
    cases hrun
    exact hu
  | cons i is ih =>
    obtain ⟨t, hstep, hrest⟩ := execAll_cons_eq_some hrun
    exact ih (exec_keeps_inv hu hstep) hrest

/-- No writing command takes a pending record away. -/
theorem execAll_pending {is : List Instr} {bs : List Byte} {u w : State} (his : WritesAll is bs)
    (hinit : u.w.init = true) (hpending : u.w.errKind ≠ 0) (hrun : execAll is u = some w) : w.w = u.w := by
  induction his generalizing u with
  | nil =>
    cases hrun
    rfl
  | cons hfirst _ ih =>
    rw [execAll_cons_of_next ((hfirst u).trans (writerData_pending hinit hpending))] at hrun
    exact ih (u := rejected u 3) hinit hpending hrun

theorem appended_appended (u : State) (xs ys : List Byte) : appended (appended u xs) ys = appended u (xs ++ ys) :=
  calc appended (appended u xs) ys = (stored (stored u xs) ys).complete .ok := rfl
    _ = appended u (xs ++ ys) := by rw [stored_stored, appended]

/-- Commands that write and leave no record have written all their bytes, and the region held them. -/
theorem execAll_of_writesAll {is : List Instr} {bs done : List Byte} {u w : State} (his : WritesAll is bs)
    (hready : WriterReady u) (hmem : u.w.limit ≤ u.cfg.memSize) (hdone : u.w.pos + done.length ≤ u.w.limit)
    (hrun : execAll is (appended u done) = some w) (hok : w.w.errKind = 0) :
    w = appended u (done ++ bs) ∧ u.w.pos + (done ++ bs).length ≤ u.w.limit := by
  induction his generalizing done with
  | nil =>
    cases hrun
    rw [List.append_nil]
    exact ⟨rfl, hdone⟩
  | @cons i bs is rest hfirst hrest ih =>
    rcases Nat.lt_or_ge u.w.limit (u.w.pos + done.length + bs.length) with hshort | hfits
    · obtain ⟨-, -, hraise, -⟩ := writesOrFaults_wrbytes (s := appended u done) bs ⟨hdone, hmem⟩
      obtain ⟨t, hstep, hoverran, -⟩ := hraise hready hshort
      have hkind : t.w.errKind = 2 := by rw [hoverran]
      have hinit : t.w.init = true := by
        rw [hoverran]
        exact hready.1
      rw [execAll_cons_of_next ((hfirst _).trans hstep)] at hrun
      rw [execAll_pending hrest hinit (by rw [hkind]; decide) hrun, hkind] at hok
      exact absurd hok (by decide)
    · have hstep := writerData_wrbytes_of_fits (s := appended u done) hready hmem hfits
      rw [execAll_cons_of_next ((hfirst _).trans hstep), appended_appended] at hrun
      rw [← List.append_assoc]
      exact ih (by rw [List.length_append]; omega) hrun

/-! ## The elements of an entry -/

/-- What NEXT records of the elements of an entry whose payload starts at `off` (44_reader.md R199, R200). -/
def recordsOf (ty : EntryType) (off : Nat) (vals : List (Word × List Byte)) : List Elem :=
  match ty with
  | .string | .binary => spansFrom off (vals.map fun v => (uleb v.2.length, v.2))
  | .varint => vals.map fun v => .val v.1
  | _ => []

theorem type_families (ty : EntryType) : ty ∈ tablelessTypes ∨ ty ∈ [EntryType.string, .binary] ∨ ty = .varint := by
  cases ty <;> decide

theorem recordsOf_of_tableless {ty : EntryType} (h : ty ∈ tablelessTypes) (off : Nat) (vals : List (Word × List Byte)) :
    recordsOf ty off vals = [] := by
  cases ty with
  | string | binary | varint => exact absurd h (by decide)
  | _ => rfl

theorem length_elemBytes_of_tableless {ty : EntryType} (h : ty ∈ tablelessTypes) (a : Word) (d : List Byte) :
    (elemBytes ty a d).length = typeWidth ty := by
  cases ty with
  | string | binary | varint => exact absurd h (by decide)
  | null => rfl
  | _ => rw [elemBytes_of_width_pos a d (by decide), length_operandBytes]

theorem length_payloadOf_of_tableless {ty : EntryType} (h : ty ∈ tablelessTypes) (vals : List (Word × List Byte)) :
    (payloadOf ty vals).length = vals.length * typeWidth ty := by
  induction vals with
  | nil => rw [List.length_nil, Nat.zero_mul]; rfl
  | cons v vals ih =>
    rw [payloadOf, List.flatMap_cons, List.length_append, length_elemBytes_of_tableless h, List.length_cons, Nat.succ_mul,
      ← ih, Nat.add_comm]
    rfl

theorem recordsOf_of_span {ty : EntryType} (h : ty ∈ [EntryType.string, .binary]) (off : Nat)
    (vals : List (Word × List Byte)) :
    recordsOf ty off vals = spansFrom off (vals.map fun v => (uleb v.2.length, v.2)) := by
  simp only [List.mem_cons, List.not_mem_nil, or_false] at h
  rcases h with rfl | rfl <;> rfl

theorem payloadOf_of_span {ty : EntryType} (h : ty ∈ [EntryType.string, .binary]) (vals : List (Word × List Byte)) :
    payloadOf ty vals = (vals.map fun v => (uleb v.2.length, v.2)).flatMap fun e => e.1 ++ e.2 := by
  rw [List.flatMap_map]
  simp only [List.mem_cons, List.not_mem_nil, or_false] at h
  rcases h with rfl | rfl <;> rfl

theorem payloadOf_varint (vals : List (Word × List Byte)) :
    payloadOf .varint vals = (vals.map fun v => (sleb v.1.toInt, v.1.toInt)).flatMap fun e => e.1 := by
  rw [List.flatMap_map]
  rfl

theorem recordsOf_varint (off : Nat) (vals : List (Word × List Byte)) :
    recordsOf .varint off vals =
      (vals.map fun v => (sleb v.1.toInt, v.1.toInt)).map fun e => .val (BitVec.ofInt 64 e.2) := by
  rw [List.map_map]
  exact List.map_congr_left fun v _ => congrArg Elem.val (BitVec.ofInt_toInt).symm

/-! ## NEXT on a written entry -/

/-- What `writable` says of an entry's tag, count and texts. -/
theorem DocEntry.writable_bounds {e : DocEntry} (he : e.writable) :
    e.tag ≠ [] ∧ e.tag.length < 2 ^ 32 ∧ e.values.length < 2 ^ 64 ∧ ∀ v ∈ e.values, v.2.length < 2 ^ 32 := by
  cases e with
  | scalar ty tag a d =>
    obtain ⟨htag, hlength, hd⟩ := he
    exact ⟨htag, hlength, (by decide : 1 < 2 ^ 64), fun v hv => List.mem_singleton.mp hv ▸ hd⟩
  | array ty tag els => exact he

theorem headBytes_of_writable {e : DocEntry} (he : e.writable) :
    HeadBytes e.isArray (inlineLength e.tag) (lengthBytes e.tag) e.tag e.countBytes e.values.length := by
  obtain ⟨htag, hlength, hcount, -⟩ := e.writable_bounds he
  have hpos : 1 ≤ e.tag.length := List.length_pos_iff.mpr htag
  refine ⟨hpos, ?_, ?_⟩
  · rcases Nat.lt_or_ge 7 e.tag.length with hexplicit | hinline
    · rw [if_pos (by rw [inlineLength, if_neg (Nat.not_le.mpr hexplicit)]), lengthBytes, if_neg (Nat.not_le.mpr hexplicit)]
      exact isUnsigned_uleb (by omega)
    · have hfield := toNat_inlineLength_of_le hinline
      have hnonzero : inlineLength e.tag ≠ 0 := fun hzero => by
        rw [hzero] at hfield
        exact absurd hfield (Nat.ne_of_lt hpos)
      rw [if_neg hnonzero, lengthBytes, if_pos hinline]
      exact ⟨rfl, hfield.symm⟩
  · cases e with
    | scalar => exact ⟨rfl, rfl⟩
    | array ty tag els => exact isUnsigned_uleb hcount

/-- Where the payload of an entry starts whose byte0 stands at `e0`. -/
def DocEntry.dataOff (e : DocEntry) (e0 : Nat) : Nat :=
  e0 + 1 + (lengthBytes e.tag).length + e.tag.length + e.countBytes.length

/-- The view NEXT makes of an entry whose byte0 stands at `e0`. -/
def DocEntry.view (e : DocEntry) (e0 : Nat) : View :=
  entryView e.isArray e.type (lengthBytes e.tag) e.tag e.countBytes e.values.length e0
    (recordsOf e.type (e.dataOff e0) e.values)

theorem DocEntry.end_eq (e : DocEntry) (e0 : Nat) :
    e0 + e.bytes.length = e.dataOff e0 + (payloadOf e.type e.values).length := by
  rw [DocEntry.bytes, DocEntry.tail, DocEntry.dataOff, List.length_cons]
  simp only [List.length_append]
  omega

/-- The parts of a written entry, each at its place. -/
theorem readsAt_parts {s : State} {e : DocEntry} {e0 : Nat} (h : ReadsAt s e0 e.bytes) :
    s.byteAt e0 = packByte0 e.isArray (typeCode e.type) (inlineLength e.tag) ∧
    ReadsAt s (e0 + 1) (lengthBytes e.tag ++ e.tag ++ e.countBytes) ∧
    ReadsAt s (e.dataOff e0) (payloadOf e.type e.values) := by
  obtain ⟨hinside, hbytes⟩ := h
  obtain ⟨-, hfirst, htail⟩ := bytesAt_cons hbytes
  rw [DocEntry.bytes, List.length_cons] at hinside
  have hparts : ReadsAt s (e0 + 1) e.tail := ⟨by omega, htail⟩
  obtain ⟨hhead, hpayload⟩ := readsAt_append hparts
  rw [payload_start] at hpayload
  exact ⟨hfirst, hhead, hpayload⟩

/-- NEXT takes a written entry, whatever its type. -/
theorem exec_next_of_written {s : State} {e : DocEntry} (he : e.writable) (hready : ReaderReady s)
    (hplaced : ReaderPlaced s) (hbytes : ReadsAt s s.r.pos e.bytes) :
    exec .next s = .next (entryTaken s (e.view s.r.pos) (s.r.pos + e.bytes.length)) := by
  have hhead := headBytes_of_writable he
  obtain ⟨-, -, -, htexts⟩ := e.writable_bounds he
  obtain ⟨hfirst, hheadAt, hinside, hpayload⟩ := readsAt_parts hbytes
  rw [e.end_eq, DocEntry.view]
  refine take_ok (.inr ⟨rfl, hfirst⟩) hready hplaced hhead hheadAt ?_
  rcases type_families e.type with htableless | hspan | hvarint
  · rw [recordsOf_of_tableless htableless, length_payloadOf_of_tableless htableless]
    rw [length_payloadOf_of_tableless htableless] at hinside
    exact readPayload_of_tableless htableless hinside
  · rw [payloadOf_of_span hspan] at hinside hpayload ⊢
    have hread := readPayload_of_spans (c := readerAt s (e.dataOff s.r.pos)) hspan hplaced.2.2 (fun x hx => by
      obtain ⟨v, hv, rfl⟩ := List.mem_map.mp hx
      have htext := htexts v hv
      exact isUnsigned_uleb (by omega)) hinside hpayload
    rwa [List.length_map, ← recordsOf_of_span hspan] at hread
  · rw [hvarint, payloadOf_varint] at hinside hpayload
    rw [hvarint, payloadOf_varint]
    have hread := readPayload_of_vals (c := readerAt s (e.dataOff s.r.pos)) hplaced.2.2 (fun x hx => by
      obtain ⟨v, -, rfl⟩ := List.mem_map.mp hx
      exact isSigned_sleb (BitVec.le_toInt v.1) BitVec.toInt_lt) hinside hpayload
    rwa [List.length_map, ← recordsOf_varint (e.dataOff s.r.pos)] at hread

/-! ## The accessors on a written entry -/

/-- Elements of one width stand at multiples of it. -/
theorem bytesAt_element {α : Type} {s : State} {f : α → List Byte} {w : Nat} (hw : ∀ x, (f x).length = w) {l : List α}
    {p i : Nat} {x : α} (hbytes : s.bytesAt p (l.flatMap f).length = l.flatMap f) (hi : l[i]? = some x) :
    s.bytesAt (p + i * w) w = f x := by
  induction l generalizing p i with
  | nil => cases hi
  | cons y l ih =>
    rw [List.flatMap_cons] at hbytes
    obtain ⟨hfirst, hrest⟩ := bytesAt_append hbytes
    rw [hw] at hfirst hrest
    cases i with
    | zero =>
      cases hi
      rwa [Nat.zero_mul]
    | succ i =>
      rw [Nat.succ_mul, Nat.add_comm (i * w), ← Nat.add_assoc]
      exact ih hrest hi

/-- The place recorded of an element is where its body stands. -/
theorem spansFrom_place {s : State} {els : List (List Byte × List Byte)} {p i : Nat} {lb body : List Byte}
    (hbytes : ReadsAt s p (els.flatMap fun e => e.1 ++ e.2)) (hi : els[i]? = some (lb, body)) :
    ∃ off, (spansFrom p els)[i]? = some (.span off body.length) ∧ ReadsAt s off body := by
  induction els generalizing p i with
  | nil => cases hi
  | cons e els ih =>
    rw [List.flatMap_cons, List.append_assoc] at hbytes
    obtain ⟨-, hbody⟩ := readsAt_append hbytes
    obtain ⟨hplace, hrest⟩ := readsAt_append hbody
    cases i with
    | zero =>
      cases hi
      exact ⟨_, rfl, hplace⟩
    | succ i => exact ih hrest hi

theorem toNat_deliver_of_lt {n : Nat} (h : n < 2 ^ 64) : (deliver n).toNat = n := by
  rw [deliver, if_pos h, BitVec.toNat_ofNat, Nat.mod_eq_of_lt h]

/-- A delivered place names the same bytes: only an empty body can start at a position that no register holds. -/
theorem bytesAt_deliver {s : State} {off : Nat} {body : List Byte} (hsize : s.cfg.memSize ≤ 2 ^ 64)
    (hmem : s.r.limit ≤ s.cfg.memSize) (hbody : body.length < 2 ^ 32) (h : ReadsAt s off body) :
    s.bytesAt (deliver off).toNat (deliver body.length).toNat = body := by
  obtain ⟨hinside, hbytes⟩ := h
  have hlength : (deliver body.length).toNat = body.length := toNat_deliver_of_lt (by omega)
  rw [hlength]
  cases body with
  | nil => rfl
  | cons b bs =>
    have hoff : (deliver off).toNat = off := toNat_deliver_of_lt (by rw [List.length_cons] at hinside; omega)
    rw [hoff, hbytes]

section
variable {s : State} {vs : Byte} {e : DocEntry} {e0 i : Nat} {a : Word} {d : List Byte}

theorem toNat_type_view (e : DocEntry) (e0 : Nat) : (e.view e0).type.toNat = typeCode e.type := by
  have hcode := typeCode_le e.type
  exact Nat.mod_eq_of_lt (by omega)

theorem toNat_count_view (he : e.writable) (e0 : Nat) : (e.view e0).count.toNat = e.values.length := by
  obtain ⟨-, -, hcount, -⟩ := e.writable_bounds he
  exact Nat.mod_eq_of_lt hcount

/-- An index of an element fits its operand register. -/
theorem index_of_getElem (he : e.writable) (hi : e.values[i]? = some (a, d)) :
    (BitVec.ofNat 64 i).toNat = i ∧ i < e.values.length := by
  obtain ⟨-, -, hcount, -⟩ := e.writable_bounds he
  obtain ⟨hlt, -⟩ := List.getElem?_eq_some_iff.mp hi
  exact ⟨Nat.mod_eq_of_lt (hlt.trans hcount), hlt⟩

theorem fixedAccessor_of_written (hs : Inv s) (he : e.writable) (hholds : Holds s vs (e.view e0))
    (hpayload : ReadsAt s (e.dataOff e0) (payloadOf e.type e.values)) (hwidth : 1 ≤ typeWidth e.type)
    (hi : e.values[i]? = some (a, d)) :
    fixedAccessor e.type vs (BitVec.ofNat 64 i) s =
      .next (answered s ((a.setWidth (8 * typeWidth e.type)).signExtend 64)) := by
  obtain ⟨hword, hlt⟩ := index_of_getElem he hi
  have htype := toNat_type_view e e0
  have hindex : (BitVec.ofNat 64 i).toNat < (e.view e0).count.toNat := by rwa [hword, toNat_count_view he]
  have hwidths (v : Word × List Byte) : (elemBytes e.type v.1 v.2).length = typeWidth e.type := by
    rw [elemBytes_of_width_pos v.1 v.2 hwidth, length_operandBytes]
  have helement := bytesAt_element hwidths hpayload.2 hi
  rw [elemBytes_of_width_pos a d hwidth] at helement
  rw [fixedAccessor_of_typeCode hholds htype hindex,
    fetchElement_of_sane hwidth hholds.2.2 (inv_viewSane hs hholds) htype hindex, hword,
    ← ofInt_signedReading_operandBytes hwidth, ← helement]
  rfl

theorem spanAccessor_of_written (hsize : s.cfg.memSize ≤ 2 ^ 64) (hmem : s.r.limit ≤ s.cfg.memSize) (he : e.writable)
    (hholds : Holds s vs (e.view e0)) (hpayload : ReadsAt s (e.dataOff e0) (payloadOf e.type e.values))
    (hspan : e.type ∈ [EntryType.string, .binary]) (hi : e.values[i]? = some (a, d)) :
    ∃ off len, spanAccessor e.type vs (BitVec.ofNat 64 i) s = .next (answered2 s off len) ∧
      s.bytesAt off.toNat len.toNat = d := by
  obtain ⟨hword, hlt⟩ := index_of_getElem he hi
  obtain ⟨-, -, -, htexts⟩ := e.writable_bounds he
  have hindex : (BitVec.ofNat 64 i).toNat < (e.view e0).count.toNat := by rwa [hword, toNat_count_view he]
  rw [payloadOf_of_span hspan] at hpayload
  have hpair : (e.values.map fun v => (uleb v.2.length, v.2))[i]? = some (uleb d.length, d) := by
    rw [List.getElem?_map, hi]
    rfl
  obtain ⟨off, hplace, hbody⟩ := spansFrom_place hpayload hpair
  have hrecord : (e.view e0).elems[(BitVec.ofNat 64 i).toNat]? = some (.span off d.length) := by
    rw [hword, ← hplace, ← recordsOf_of_span hspan]
    rfl
  exact ⟨_, _, spanAccessor_of_span hholds (toNat_type_view e e0) hindex hrecord,
    bytesAt_deliver hsize hmem (htexts _ (List.mem_of_getElem? hi)) hbody⟩

theorem exec_vvar_of_written (he : e.writable) (hholds : Holds s vs (e.view e0)) (hvarint : e.type = .varint)
    (hi : e.values[i]? = some (a, d)) : exec (.vvar vs (BitVec.ofNat 64 i)) s = .next (answered s a) := by
  obtain ⟨hword, hlt⟩ := index_of_getElem he hi
  have hindex : (BitVec.ofNat 64 i).toNat < (e.view e0).count.toNat := by rwa [hword, toNat_count_view he]
  have hrecord : (e.view e0).elems[i]? = some (.val a) := by
    rw [DocEntry.view, entryView, hvarint, recordsOf, List.getElem?_map, hi]
    rfl
  rw [exec_vvar_of_typeCode hholds (hvarint ▸ toNat_type_view e e0) hindex, hword, recordedValue_of_val hrecord]

/-- The accessor of each type gives back what the entry was written with (R177). -/
theorem givesBack_of_written (hs : Inv s) (hsize : s.cfg.memSize ≤ 2 ^ 64) (he : e.writable)
    (hmem : s.r.limit ≤ s.cfg.memSize) (hholds : Holds s vs (e.view e0))
    (hpayload : ReadsAt s (e.dataOff e0) (payloadOf e.type e.values)) (hi : e.values[i]? = some (a, d)) :
    GivesBack s vs e.type i a d := by
  have hfixed := fixedAccessor_of_written hs he hholds hpayload (hi := hi)
  have hspan := spanAccessor_of_written hsize hmem he hholds hpayload (hi := hi)
  have hvarint := exec_vvar_of_written he hholds (hi := hi)
  have hwhole : (a.setWidth (8 * 8)).signExtend 64 = a := by rw [BitVec.setWidth_eq, BitVec.signExtend_eq]
  intro instr hinstr
  generalize e.type = ty at hinstr hfixed hspan hvarint ⊢
  cases ty <;> cases hinstr
  case string => exact hspan (by decide)
  case binary => exact hspan (by decide)
  case int8 => exact hfixed (by decide)
  case int16 => exact hfixed (by decide)
  case int32 => exact hfixed (by decide)
  case int64 => exact (hfixed (by decide)).trans (congrArg (Host.Outcome.next <| answered s ·) hwhole)
  case double => exact (hfixed (by decide)).trans (congrArg (Host.Outcome.next <| answered s ·) hwhole)
  case datetime => exact (hfixed (by decide)).trans (congrArg (Host.Outcome.next <| answered s ·) hwhole)
  case varint => exact hvarint rfl

end

/-! ## Reading a document back -/

/-- A view of an entry with the tag and the values it was written with is what the host is shown. -/
theorem shownIn_of_givesBack {t : State} {vs : Byte} {e : DocEntry} {e0 : Nat} (he : e.writable)
    (hholds : Holds t vs (e.view e0)) (htag : t.bytesAt (e.view e0).tagOff (e.view e0).tagLen = e.tag)
    (hvalues : ∀ i a d, e.values[i]? = some (a, d) → GivesBack t vs e.type i a d) : e.shownIn t vs := by
  have htype := toNat_type_view e e0
  cases e with
  | scalar ty tag a d => exact ⟨_, hholds, htype, rfl, rfl, htag, hvalues 0 a d rfl⟩
  | array ty tag els => exact ⟨_, hholds, htype, rfl, toNat_count_view he e0, htag, hvalues⟩

theorem toNat_chosenSlot {s : State} (hs : Inv s) : (BitVec.ofNat 8 (chooseSlot s)).toNat = chooseSlot s := by
  obtain ⟨-, -, -, hpool⟩ := hs.cfg
  have hslot := chooseSlot_lt hs
  exact Nat.mod_eq_of_lt (by omega)

/-- A completed NEXT leaves the view in the slot that CV and x[0] name. -/
theorem holds_entryTaken {s : State} (hs : Inv s) {v : View} (hvalid : v.valid = true) (pos : Nat) :
    Holds (entryTaken s v pos) (BitVec.ofNat 8 (chooseSlot s)) v := by
  have hslot := chooseSlot_lt hs
  have hnumber := toNat_chosenSlot hs
  refine ⟨hnumber.trans_lt hslot, ?_, hvalid⟩
  rw [hnumber]
  exact (State.viewAt_set s _ _ v).trans (if_pos ⟨rfl, hs.slots ▸ hslot⟩)

theorem x0_entryTaken {s : State} (hs : Inv s) (v : View) (pos : Nat) :
    (entryTaken s v pos).x0 = (BitVec.ofNat 8 (chooseSlot s)).setWidth 64 := by
  refine BitVec.eq_of_toNat_eq ?_
  rw [BitVec.toNat_setWidth, toNat_chosenSlot hs]
  rfl

theorem bytesAt_entryTaken (s : State) (v : View) (pos a n : Nat) : (entryTaken s v pos).bytesAt a n = s.bytesAt a n :=
  State.bytesAt_congr fun _ _ _ => rfl

/-- NEXT shows a written entry and stands behind it. -/
theorem shownIn_entryTaken {s : State} {e : DocEntry} (hs : Inv s) (hsize : s.cfg.memSize ≤ 2 ^ 64) (he : e.writable)
    (hready : ReaderReady s) (hplaced : ReaderPlaced s) (hbytes : ReadsAt s s.r.pos e.bytes) :
    e.shownIn (entryTaken s (e.view s.r.pos) (s.r.pos + e.bytes.length)) (BitVec.ofNat 8 (chooseSlot s)) := by
  have hstep := exec_next_of_written he hready hplaced hbytes
  have hholds := holds_entryTaken hs (v := e.view s.r.pos) rfl (s.r.pos + e.bytes.length)
  obtain ⟨-, hhead, hpayload⟩ := readsAt_parts hbytes
  obtain ⟨⟨-, htag⟩, -⟩ : ReadsAt s (s.r.pos + 1 + (lengthBytes e.tag).length) e.tag ∧ _ :=
    readsAt_append (readsAt_append (List.append_assoc .. ▸ hhead)).2
  refine shownIn_of_givesBack he hholds ((bytesAt_entryTaken ..).trans htag) fun i a d hi => ?_
  exact givesBack_of_written (exec_keeps_inv hs hstep) hsize he hplaced.2.2 hholds
    ⟨hpayload.1, (bytesAt_entryTaken ..).trans hpayload.2⟩ hi

theorem readsBack_of_written {doc : List DocEntry} {s : State} (hs : Inv s) (hsize : s.cfg.memSize ≤ 2 ^ 64)
    (hdoc : ∀ e ∈ doc, e.writable) (hready : ReaderReady s) (hplaced : ReaderPlaced s)
    (hend : s.r.limit = s.r.pos + (doc.flatMap DocEntry.bytes).length)
    (hbytes : s.bytesAt s.r.pos (doc.flatMap DocEntry.bytes).length = doc.flatMap DocEntry.bytes) : ReadsBack doc s := by
  induction doc generalizing s with
  | nil =>
    rw [ReadsBack, exec_next, readerStep_of_end _ hready hend.le]
    rfl
  | cons e doc ih =>
    have he := hdoc e List.mem_cons_self
    obtain ⟨hstart, -, hmem⟩ := hplaced
    rw [List.flatMap_cons] at hend hbytes
    obtain ⟨hentry, hinside, hrest⟩ := readsAt_append (s := s) ⟨hend.ge, hbytes⟩
    have hstep := exec_next_of_written he hready ⟨hstart, by omega, hmem⟩ hentry
    refine ⟨_, _, hstep, rfl, x0_entryTaken hs _ _, shownIn_entryTaken hs hsize he hready ⟨hstart, by omega, hmem⟩ hentry,
      ?_⟩
    refine ih (exec_keeps_inv hs hstep) hsize (fun x hx => hdoc x (List.mem_cons_of_mem _ hx)) hready
      ⟨?_, ?_, hmem⟩ ?_ ((bytesAt_entryTaken ..).trans hrest)
    · exact hstart.trans (Nat.le_add_right _ _)
    · exact (Nat.le_add_right _ _).trans hinside
    · exact hend.trans (by rw [List.length_append, ← Nat.add_assoc]; rfl)

/-- Settles O60: a run without a record has written the bytes of the document, and NEXT takes them entry by entry. -/
theorem documentRoundTrip : Obligations.DocumentRoundTrip := by
  intro s w off len doc hs hsize hregion hdoc hrun hok
  have hw := execAll_keeps_inv hs hrun
  rw [execAll_cons_of_next (exec_winit_of_fits hregion)] at hrun
  obtain ⟨rfl, hfits⟩ := execAll_of_writesAll (u := writerOpened s off.toNat len.toNat) (done := [])
    (writesAll_document hdoc) ⟨rfl, rfl⟩ hregion (Nat.le_add_right _ _) hrun hok
  rw [List.nil_append] at hfits hw ⊢
  have hroom : (doc.flatMap DocEntry.bytes).length ≤ len.toNat := Nat.le_of_add_le_add_left hfits
  have hlength : (BitVec.ofNat 64 ((appended (writerOpened s off.toNat len.toNat)
      (doc.flatMap DocEntry.bytes)).w.pos - off.toNat)).toNat = (doc.flatMap DocEntry.bytes).length := by
    have hpos : (appended (writerOpened s off.toNat len.toNat) (doc.flatMap DocEntry.bytes)).w.pos =
      off.toNat + (doc.flatMap DocEntry.bytes).length := rfl
    rw [hpos, Nat.add_sub_cancel_left, BitVec.toNat_ofNat, Nat.mod_eq_of_lt (hroom.trans_lt len.isLt)]
  have hparsed := exec_parse_of_fits (s := appended (writerOpened s off.toNat len.toNat) (doc.flatMap DocEntry.bytes))
    (off := off) (len := BitVec.ofNat 64 ((appended (writerOpened s off.toNat len.toNat)
      (doc.flatMap DocEntry.bytes)).w.pos - off.toNat)) (by
        rw [hlength]
        exact (Nat.add_le_add_left hroom _).trans hregion)
  refine ⟨_, hparsed, readsBack_of_written (exec_keeps_inv hw hparsed) hsize hdoc ⟨rfl, rfl⟩
    ⟨Nat.le_refl _, Nat.le_add_right _ _, ?_⟩ ?_ ?_⟩
  · rw [hlength]
    exact (Nat.add_le_add_left hroom _).trans hregion
  · rw [hlength]
    rfl
  · exact (bytesAt_readerOpened ..).trans (bytesAt_appended (writerOpened s off.toNat len.toNat) _)

end Sys2Proof.Machine
end
